-- ==== Sys2Proof/Word.lean ====
section
/-! DEFINITION. The word types of PSS-CORE: the 32-bit words of the command port, the 16-bit
elements of its memories, and the bytes a link may carry words as (spec/00_scope.md R10, R11;
spec/30_encoding.md R67). -/

namespace Sys2Proof

/-- A word of the command port: CMD, ARG or RDATA (R67). -/
abbrev Word := BitVec 32

/-- One 16-bit element of the note table or of a voice buffer (R50), and the IMM field (R67). -/
abbrev Half := BitVec 16

/-- A byte of a host link (R54), and the OP and VF fields (R67). -/
abbrev Byte := BitVec 8

end Sys2Proof
end

