-- ==== Sys2Proof/Syntax.lean ====
section
/-! DEFINITION. The commands of PSS-CORE (spec/30_encoding.md R70): one constructor of `Instr` per row
of spec/opcode_table.json, its operands in the order of the assembly syntax, VF, IMM, ARG (R76). A
field that R70 marks reserved is no operand: the decoder rejects a nonzero one (R72). -/

namespace Sys2Proof

/-- A command with its operands (R70). `v` is the voice field VF. -/
inductive Instr where
  /-- NOP (R80). -/
  | nop
  /-- INIT n, sr (R81): IMM the voice count, ARG the sample rate. -/
  | init (n : Half) (sr : Word)
  /-- SET_SR sr (R82). -/
  | setSr (sr : Word)
  /-- SET_MVOL pct (R83). -/
  | setMvol (pct : Half)
  /-- CLR_STATUS (R84). -/
  | clrStatus
  /-- READ v, sel (R86); for a selector up to 0x0F the voice field is reserved (R72). -/
  | read (v : Byte) (sel : Half)
  /-- SET_WAVE v, mask (R104): the mask is IMM[5:0]. -/
  | setWave (v : Byte) (mask : BitVec 6)
  /-- SET_FREQ v, hz (R105). -/
  | setFreq (v : Byte) (hz : Half)
  /-- SET_PW v, pw (R106). -/
  | setPw (v : Byte) (pw : Half)
  /-- ARB_WRITE v, x, i (R107). -/
  | arbWrite (v : Byte) (x : Half) (i : Word)
  /-- ARB_READ v, i (R108). -/
  | arbRead (v : Byte) (i : Word)
  /-- SET_ATTACK v, ms (R118). -/
  | setAttack (v : Byte) (ms : Half)
  /-- SET_DECAY v, ms (R119). -/
  | setDecay (v : Byte) (ms : Half)
  /-- SET_SUSTAIN v, level (R120). -/
  | setSustain (v : Byte) (level : Half)
  /-- SET_RELEASE v, ms (R121). -/
  | setRelease (v : Byte) (ms : Half)
  /-- TRIG_ATTACK v (R123). -/
  | trigAttack (v : Byte)
  /-- TRIG_RELEASE v (R125). -/
  | trigRelease (v : Byte)
  /-- SET_VOL v, vol (R133): the volume is IMM[7:0]. -/
  | setVol (v : Byte) (vol : Byte)
  /-- SAMPLE (R134). -/
  | sample
  /-- SEQ_INIT n, len, base (R146): VF a count. -/
  | seqInit (n : Byte) (len : Half) (base : Word)
  /-- SEQ_START loop, now (R147): the loop flag is IMM[0]. -/
  | seqStart (loop : Bool) (now : Word)
  /-- SEQ_STOP (R148). -/
  | seqStop
  /-- SEQ_TEMPO bpm (R151). -/
  | seqTempo (bpm : Half)
  /-- SEQ_CB en (R152): the enable is IMM[0]. -/
  | seqCb (en : Bool)
  /-- NT_WRITE x, a (R153). -/
  | ntWrite (x : Half) (a : Word)
  /-- NT_READ a (R154). -/
  | ntRead (a : Word)
  /-- TICK now (R156). -/
  | tick (now : Word)
  deriving DecidableEq, Repr

/-- The rejection codes, the values of ERRCODE (spec/60_exceptions.md R164). Codes 6..15 are never
produced, so they have no constructor (U14). -/
inductive ErrCode where
  /-- 0: no rejection since the last clear. -/
  | none
  /-- 1: OP is not a defined opcode (R73). -/
  | illegalOp
  /-- 2: a reserved field is nonzero (R72). -/
  | rsvd
  /-- 3: the voice index is not below G.NVA. -/
  | badVoice
  /-- 4: an operand is outside its legal range (R75). -/
  | badValue
  /-- 5: the command is not allowed in the present state (R75). -/
  | badState
  deriving DecidableEq, Repr

end Sys2Proof
end

