-- ==== Sys2Proof/WellFormed.lean ====
section
/-! DEFINITION. Which terms of `Instr` are commands the encoding can express (spec/30_encoding.md R72).
The operand types bound every field but one: READ's voice field, which is reserved for the selectors
up to 0x0F. -/

namespace Sys2Proof

/-- The READ selector leaves VF reserved: IMM <= 0x0F (R72). -/
def isGlobalSel (sel : Half) : Bool := decide (sel.toNat ≤ 0x0F)

/-- The command can be encoded: its reserved fields are zero (R72). -/
def Instr.wf : Instr → Bool
  | .read v sel => !isGlobalSel sel || v == 0
  | .nop | .init _ _ | .setSr _ | .setMvol _ | .clrStatus | .setWave _ _ | .setFreq _ _ | .setPw _ _
  | .arbWrite _ _ _ | .arbRead _ _ | .setAttack _ _ | .setDecay _ _ | .setSustain _ _
  | .setRelease _ _ | .trigAttack _ | .trigRelease _ | .setVol _ _ | .sample | .seqInit _ _ _
  | .seqStart _ _ | .seqStop | .seqTempo _ | .seqCb _ | .ntWrite _ _ | .ntRead _ | .tick _ => true

end Sys2Proof
end

