-- ==== Sys2Proof/Decode.lean ====
section
/-! DEFINITION. The decoder and the encoder of PSS-CORE's 64-bit commands (spec/30_encoding.md), the
bytes a link may carry them as (spec/20_memory.md R54), and the reading of an opcode-table word. The
decoder is total on any pair of words, and on any list of bytes; what it does not accept it names by
the rejection code of R164. -/

namespace Sys2Proof

/-- The transfer a command is: CMD and ARG (R67). -/
abbrev Transfer := Word × Word

/-- The field OP, CMD[31:24] (R67). -/
def opField (cmd : Word) : Byte := cmd.extractLsb' 24 8

/-- The field VF, CMD[23:16] (R67). -/
def vfField (cmd : Word) : Byte := cmd.extractLsb' 16 8

/-- The field IMM, CMD[15:0] (R67). -/
def immField (cmd : Word) : Half := cmd.extractLsb' 0 16

/-- `CMD = {OP, VF, IMM}` (R67). -/
def cmdWord (op vf : Byte) (imm : Half) : Word := op ++ vf ++ imm

/-- Accept a command if its reserved fields are zero; else reject it with RSVD (R72). -/
def unlessReserved (fieldsZero : Bool) (i : Instr) : Except ErrCode Instr :=
  if fieldsZero then .ok i else .error .rsvd

/-- READ's voice field is reserved when IMM <= 0x0F (R72). -/
def readVfReserved (sel : Half) : Bool := decide (sel.toNat ≤ 0x0F)

/-- Decode one command (R69, R70, R72, R73): selected by OP alone; an unlisted OP is ILLEGAL_OP whatever
the other fields hold, and a nonzero reserved field of a listed one is RSVD, in that order (R165). -/
def decode (cmd arg : Word) : Except ErrCode Instr :=
  let vf := vfField cmd
  let imm := immField cmd
  let noVf := vf == 0
  let noImm := imm == 0
  let noArg := arg == 0
  match opField cmd with
  | 0x00#8 => unlessReserved (noVf && noImm && noArg) .nop
  | 0x01#8 => unlessReserved noVf (.init imm arg)
  | 0x02#8 => unlessReserved (noVf && noImm) (.setSr arg)
  | 0x03#8 => unlessReserved (noVf && noArg) (.setMvol imm)
  | 0x04#8 => unlessReserved (noVf && noImm && noArg) .clrStatus
  | 0x05#8 => unlessReserved (noArg && (!readVfReserved imm || noVf)) (.read vf imm)
  | 0x10#8 => unlessReserved (imm.extractLsb' 6 10 == 0 && noArg) (.setWave vf (imm.extractLsb' 0 6))
  | 0x11#8 => unlessReserved noArg (.setFreq vf imm)
  | 0x12#8 => unlessReserved noArg (.setPw vf imm)
  | 0x13#8 => unlessReserved true (.arbWrite vf imm arg)
  | 0x14#8 => unlessReserved noImm (.arbRead vf arg)
  | 0x20#8 => unlessReserved noArg (.setAttack vf imm)
  | 0x21#8 => unlessReserved noArg (.setDecay vf imm)
  | 0x22#8 => unlessReserved noArg (.setSustain vf imm)
  | 0x23#8 => unlessReserved noArg (.setRelease vf imm)
  | 0x24#8 => unlessReserved (noImm && noArg) (.trigAttack vf)
  | 0x25#8 => unlessReserved (noImm && noArg) (.trigRelease vf)
  | 0x30#8 => unlessReserved (imm.extractLsb' 8 8 == 0 && noArg) (.setVol vf (imm.extractLsb' 0 8))
  | 0x31#8 => unlessReserved (noVf && noImm && noArg) .sample
  | 0x40#8 => unlessReserved true (.seqInit vf imm arg)
  | 0x41#8 => unlessReserved (noVf && imm.extractLsb' 1 15 == 0) (.seqStart (imm.getLsbD 0) arg)
  | 0x42#8 => unlessReserved (noVf && noImm && noArg) .seqStop
  | 0x43#8 => unlessReserved (noVf && noArg) (.seqTempo imm)
  | 0x44#8 => unlessReserved (noVf && imm.extractLsb' 1 15 == 0 && noArg) (.seqCb (imm.getLsbD 0))
  | 0x45#8 => unlessReserved noVf (.ntWrite imm arg)
  | 0x46#8 => unlessReserved (noVf && noImm) (.ntRead arg)
  | 0x47#8 => unlessReserved (noVf && noImm) (.tick arg)
  | _ => .error .illegalOp

/-- The OP, VF, IMM and ARG of a command (R70); reserved fields are zero (R72). -/
def encodeFields : Instr → Byte × Byte × Half × Word
  | .nop => (0x00, 0, 0, 0)
  | .init n sr => (0x01, 0, n, sr)
  | .setSr sr => (0x02, 0, 0, sr)
  | .setMvol pct => (0x03, 0, pct, 0)
  | .clrStatus => (0x04, 0, 0, 0)
  | .read v sel => (0x05, v, sel, 0)
  | .setWave v mask => (0x10, v, mask.setWidth 16, 0)
  | .setFreq v hz => (0x11, v, hz, 0)
  | .setPw v pw => (0x12, v, pw, 0)
  | .arbWrite v x i => (0x13, v, x, i)
  | .arbRead v i => (0x14, v, 0, i)
  | .setAttack v ms => (0x20, v, ms, 0)
  | .setDecay v ms => (0x21, v, ms, 0)
  | .setSustain v level => (0x22, v, level, 0)
  | .setRelease v ms => (0x23, v, ms, 0)
  | .trigAttack v => (0x24, v, 0, 0)
  | .trigRelease v => (0x25, v, 0, 0)
  | .setVol v vol => (0x30, v, vol.setWidth 16, 0)
  | .sample => (0x31, 0, 0, 0)
  | .seqInit n len base => (0x40, n, len, base)
  | .seqStart loop now => (0x41, 0, (BitVec.ofBool loop).setWidth 16, now)
  | .seqStop => (0x42, 0, 0, 0)
  | .seqTempo bpm => (0x43, 0, bpm, 0)
  | .seqCb en => (0x44, 0, (BitVec.ofBool en).setWidth 16, 0)
  | .ntWrite x a => (0x45, 0, x, a)
  | .ntRead a => (0x46, 0, 0, a)
  | .tick now => (0x47, 0, 0, now)

/-- The two words of a command (R67, R70). -/
def encode (i : Instr) : Transfer :=
  let f := encodeFields i
  (cmdWord f.1 f.2.1 f.2.2.1, f.2.2.2)

/-- The four bytes of a word, least significant first (R54). -/
def wordBytes (w : Word) : List Byte :=
  [w.extractLsb' 0 8, w.extractLsb' 8 8, w.extractLsb' 16 8, w.extractLsb' 24 8]

/-- The bytes of a transfer on a byte link: each word least significant byte first (R54), CMD before ARG
(DEDUCED, log 9: the table numbers ARG's bits after CMD's). -/
def transferBytes (t : Transfer) : List Byte := wordBytes t.1 ++ wordBytes t.2

/-- Take one transfer from a byte link: always eight bytes (R68); `none` while fewer have come. -/
def takeTransfer : List Byte → Option (Transfer × List Byte)
  | c0 :: c1 :: c2 :: c3 :: a0 :: a1 :: a2 :: a3 :: rest =>
    some (((c3 ++ c2 ++ c1 ++ c0 : Word), (a3 ++ a2 ++ a1 ++ a0 : Word)), rest)
  | _ => none

/-- Decode the first command of a byte link. -/
def decodeBytes (bytes : List Byte) : Option (Except ErrCode Instr × List Byte) :=
  (takeTransfer bytes).map fun t => (decode t.1.1 t.1.2, t.2)

/-- The transfer of an opcode-table word of `nbits` bits: bits 31..0 are CMD, bits 63..32 ARG, and every
bit from `nbits` up is 0. -/
def tableTransfer (nbits w : Nat) : Transfer :=
  let bits := w % 2 ^ nbits
  (BitVec.ofNat 32 bits, BitVec.ofNat 32 (bits / 2 ^ 32))

/-- The command the decoder reads from an opcode-table word, through the bytes of a link. -/
def decodeTableWord (nbits w : Nat) : Option Instr :=
  match decodeBytes (transferBytes (tableTransfer nbits w)) with
  | some (.ok i, _) => some i
  | _ => none

end Sys2Proof
end

