-- ==== Sys2Proof/Config.lean ====
section
/-! DEFINITION. What an implementation fixes: the instance parameters of spec/00_scope.md R6 and the
port placement of spec/20_memory.md R59, the constants of R7, and the values the spec leaves open
(opaque, without a body): the host's refill samples. -/

namespace Sys2Proof

/-- The parameters of one instance of the hardware, fixed for its lifetime (R6, R59). -/
structure Params where
  /-- `NV_MAX`, the number of voice slots built into the block. -/
  nvMax : Nat
  /-- `ARB_LEN`, the capacity in samples of each voice's buffer. -/
  arbLen : Nat
  /-- `NT_WORDS`, the capacity in entries of the note table. -/
  ntWords : Nat
  /-- `NOISE_SEED`, the reset value of the noise generator. -/
  noiseSeed : Word
  /-- `PORT_MAP`, where the port sits in a host's address map; no rule reads it (R59). -/
  portMap : Nat
  deriving DecidableEq, Repr

/-- The parameters lie in the legal ranges of R6. -/
abbrev Params.legal (p : Params) : Prop :=
  1 ≤ p.nvMax ∧ p.nvMax ≤ 64 ∧ 1 ≤ p.arbLen ∧ p.arbLen ≤ 256 ∧
    1 ≤ p.ntWords ∧ p.ntWords ≤ 65536 ∧ p.noiseSeed ≠ 0

/-- The instance of the spec's examples: the "default used in this spec's examples" column of R6.
DESIGN CHOICE (log 1): `State.reset` is the reset state of this instance. -/
def Params.specExample : Params :=
  { nvMax := 8, arbLen := 32, ntWords := 4096, noiseSeed := 0x92D68CA2, portMap := 0 }

/-- `ENV_ONE`, the envelope's full scale (R7). -/
def envOne : Nat := 2 ^ 30

namespace Config

/-- A refill sample the host has not yet been given as data: `refill voice k i` is element `i` of the
host's answer to the `k`-th refill request, made for voice `voice`. Any value (R9, R171, U4); no body,
so nothing can be proved of it (log 4, safe). -/
opaque refill : Nat → Nat → Nat → Half

end Config

end Sys2Proof
end

