-- ==== Sys2Proof/Machine/State.lean ====
section
/-! DEFINITION. The state of PSS-CORE (spec/10_state.md), the reasons a step can stop, and the state
after reset. State is plain data. -/

namespace Sys2Proof.Machine

/-- A memory of 16-bit elements: (index, element) pairs in canonical form, indices strictly rising and
no element equal to what an unlisted index reads as (`Memory.unlisted`; spec/20_memory.md R50, log 6). -/
abbrev Memory := List (Nat × Half)

/-- The envelope phases of V[v].ENV_STATE (R35). Codes 5..7 never occur (U14). -/
inductive EnvState where
  /-- Code 0. -/
  | off
  /-- Code 1. -/
  | attack
  /-- Code 2. -/
  | decay
  /-- Code 3. -/
  | sustain
  /-- Code 4. -/
  | release
  deriving DecidableEq, Repr

/-- An outbound event (spec/60_exceptions.md R167). -/
inductive Event where
  /-- EV_REFILL(v): voice v's buffer is exhausted and used (R169). -/
  | refill (v : Nat)
  /-- EV_DONE: a one-shot track has ended (R168). -/
  | done
  deriving DecidableEq, Repr

/-- What the host can present to the block (R5, R9, R181). -/
inductive HostInput where
  /-- A command transfer (R67). -/
  | command (cmd arg : Word)
  /-- The hardware reset, asserted between commands (R181, log 10). -/
  | reset
  deriving DecidableEq, Repr

/-- The global (master) registers G.* (R22 to R27). -/
structure Master where
  /-- G.NVA, the number of active voices (R22). -/
  nva : BitVec 7
  /-- G.SR, the sample rate in Hz (R23). -/
  sr : BitVec 20
  /-- G.MVOL, the master volume in percent (R24). -/
  mvol : BitVec 7
  /-- G.NOISE, the state of the noise generator (R25). -/
  noise : Word
  /-- G.DONE, sticky: a one-shot track has completed (R26). -/
  done : Bool
  /-- G.ERR, sticky: a command was rejected (R27). -/
  err : Bool
  /-- G.ERRCODE, the code of the first rejection since ERR was last clear (R27). -/
  errcode : ErrCode
  deriving DecidableEq, Repr

/-- The registers V[v].* and the buffer ARB[v] of one voice slot (R28 to R40, R50). -/
structure Voice where
  /-- WAVE: bit 0 NOISE, 1 SAW, 2 TRI, 3 SQUARE, 4 SINE, 5 ARB (R28). -/
  wave : BitVec 6
  /-- FREQ in Hz (R29). -/
  freq : Half
  /-- VOL, gain VOL/256 (R30). -/
  vol : BitVec 8
  /-- PW, the pulse width (R31). -/
  pw : Half
  /-- ATTACK in ms (R32). -/
  attack : Half
  /-- DECAY in ms (R32). -/
  decay : Half
  /-- RELEASE in ms (R32). -/
  release : Half
  /-- SUSTAIN, 0..256 as level/256 (R33). -/
  sustain : BitVec 9
  /-- PHASE, the phase accumulator (R34). -/
  phase : Word
  /-- ENV_STATE (R35). -/
  envState : EnvState
  /-- ENV_VALUE, 0..ENV_ONE (R36). -/
  envValue : BitVec 31
  /-- ENV_STEP, two's complement (R37). -/
  envStep : Word
  /-- ENV_ELAPSED (R38). -/
  envElapsed : Word
  /-- ENV_TARGET (R38). -/
  envTarget : Word
  /-- NOISE_SAMPLE, two's complement (R39). -/
  noiseSample : Half
  /-- ARB_RD, 0..ARB_LEN (R40). -/
  arbRd : BitVec 9
  /-- The buffer ARB[v] (R50). -/
  arb : Memory
  /-- The MODEL's own field: SUSTAIN as it was read when DECAY was last entered, the level DECAY lands on
  (R117, R187, R130). No named register holds it and READ does not show it (log 5). -/
  decayLevel : BitVec 9
  deriving DecidableEq, Repr

/-- The sequencer registers S.* (R41). -/
structure Sequencer where
  /-- S.PLAYING. -/
  playing : Bool
  /-- S.LOOP: 1 loop, 0 one-shot. -/
  loop : Bool
  /-- S.CB_EN, completion event enable. -/
  cbEn : Bool
  /-- S.LEN, track length in beats; 0 not configured. -/
  len : Half
  /-- S.VOICES, rows of the table. -/
  voices : BitVec 7
  /-- S.BASE, note-table index of entry [0][0]. -/
  base : Half
  /-- S.BEAT_MS, 1..15000 (R42). -/
  beatMs : BitVec 14
  /-- S.START, start timestamp in ms. -/
  start : Word
  /-- S.LAST, absolute index of the last dispatched beat. -/
  last : Word
  /-- S.BEAT_VALID: a beat has been dispatched since the last start. -/
  beatValid : Bool
  deriving DecidableEq, Repr

/-- The command port and the host's side of it: the MODEL's own fields for the inputs and the response
of R8 (logs 2, 3, 4). -/
structure Port where
  /-- What the host has presented and the block has not yet taken, in arrival order (R61). -/
  pending : List HostInput
  /-- The answers the host has ready, the first for the next refill request (R9, R171). -/
  refills : List (List Half)
  /-- How many refill requests have been made: the index of the next answer (R171). -/
  refillCount : Nat
  /-- RDATA of the last command (R8). -/
  rdata : Word
  /-- EVENTS of the last command, in the order raised (R8, R167). -/
  events : List Event
  deriving DecidableEq, Repr

end Sys2Proof.Machine

namespace Sys2Proof.Machine

/-- The state of one instance of PSS-CORE. -/
structure State where
  /-- The instance's parameters (R6), never written. -/
  params : Params
  /-- G.* -/
  g : Master
  /-- V[0], V[1], ..., V[NV_MAX - 1] -/
  voices : List Voice
  /-- S.* -/
  seq : Sequencer
  /-- NT, the note table (R51). -/
  nt : Memory
  /-- The command port (R8). -/
  port : Port
  deriving DecidableEq, Repr

/-- Why the machine stops with a fault. The spec has no fault: its rejections are next states (R163,
R166). Each of these can be raised only in a state that breaks an invariant of R46, which no run from
reset reaches; the spec's own arithmetic has no value there (log 7). All are safe. -/
inductive Fault where
  /-- SAMPLE with an active voice while G.SR = 0: phase_inc (R94) would divide by 0. R23 excludes it. Safe. -/
  | zeroSampleRate
  /-- TICK while playing with S.BEAT_MS = 0: cur_beat (R145) would divide by 0. R46 (6) excludes it. Safe. -/
  | zeroBeat
  /-- TICK in loop mode with S.LEN = 0: the column (R156) would be taken modulo 0. R46 (8) excludes it. Safe. -/
  | zeroTrack
  /-- TICK's dispatch (R155) would read an entry outside the note table. R46 (8) excludes it. Safe. -/
  | noteOutOfTable
  /-- SAMPLE would read a buffer element beyond ARB_LEN. R46 (5) excludes it. Safe. -/
  | arbOutOfBuffer
  deriving DecidableEq, Repr

/-- Why an instruction has no meaning. -/
inductive Refusal where
  /-- `exec` on an instruction whose meaning is not written; its table mnemonic. No arm raises it. Safe. -/
  | notModelled (mnemonic : String)
  /-- `step` on a state that is no instance of the hardware: its parameters lie outside the ranges of R6
  ("A model must refuse an instance whose parameters lie outside these ranges"), or its voice slots are
  not NV_MAX in number. Safe. -/
  | illegalInstance
  deriving DecidableEq, Repr

/-- The three outcomes of a meaning or a step. -/
abbrev Result := Host.Outcome State Fault Refusal

/-- A voice slot after `voice_defaults` (R47). `decayLevel` is the model's (log 5). -/
def Voice.defaults (arbLen : Nat) : Voice :=
  { wave := 0, freq := 0, vol := 0, pw := 0x8000
    attack := 0, decay := 0, release := 0, sustain := 256
    phase := 0
    envState := .off, envValue := 0, envStep := 0, envElapsed := 0, envTarget := 0
    noiseSample := 0
    arbRd := BitVec.ofNat 9 arbLen
    arb := []
    decayLevel := 256 }

/-- The master registers after reset (R48). -/
def Master.reset (noiseSeed : Word) : Master :=
  { nva := 0, sr := 44100, mvol := 100, noise := noiseSeed, done := false, err := false, errcode := .none }

/-- The sequencer registers after reset (R41, R48). -/
def Sequencer.reset : Sequencer :=
  { playing := false, loop := false, cbEn := false, len := 0, voices := 0, base := 0
    beatMs := 125, start := 0, last := 0, beatValid := false }

/-- A port with nothing presented and no response given (logs 2, 3, 4). -/
def Port.idle : Port :=
  { pending := [], refills := [], refillCount := 0, rdata := 0, events := [] }

/-- The instance with parameters `p` right after reset (R48, R181). -/
def State.resetOf (p : Params) : State :=
  { params := p
    g := Master.reset p.noiseSeed
    voices := List.replicate p.nvMax (Voice.defaults p.arbLen)
    seq := Sequencer.reset
    nt := []
    port := Port.idle }

/-- The machine right after reset: the instance of the spec's examples (R6, R48, R181, log 1). -/
def State.reset : State := State.resetOf Params.specExample

end Sys2Proof.Machine
end

