-- ==== Sys2Proof/Machine/Operands.lean ====
section
/-! DEFINITION. The operand forms of R69 and the number operators of R11 and R12 that the command rules
are written in. -/

namespace Sys2Proof.Machine

/-- `a quot b`: truncation toward zero (R12). -/
def quot (a b : Int) : Int := a.tdiv b

/-- `a asr k`: floor of a / 2^k (R12). -/
def asr (a : Int) (k : Nat) : Int := a / 2 ^ k

/-- `clamp(x, lo, hi)` (R12). -/
def clamp (x lo hi : Int) : Int := if x < lo then lo else if hi < x then hi else x

/-- `tc16(v)`: a 16-bit pattern read as s16 (R11). -/
def tc16 (v : Half) : Int := v.toInt

/-- `sext_32(v)` of an s16 element (R11, R87). -/
def sext32 (v : Half) : Word := v.signExtend 32

/-- `zext_32(v)` (R11). -/
def zext32 {n : Nat} (v : BitVec n) : Word := v.setWidth 32

/-- The 32-bit two's-complement pattern of a signed result (R87). -/
def pattern32 (x : Int) : Word := BitVec.ofInt 32 x

/-- The voice index is in range: `v < G.NVA` (R69, R164). -/
def voiceOk (s : State) (v : Byte) : Bool := decide (v.toNat < s.g.nva.toNat)

/-- A sample rate operand is legal: 1..0xFFFFF (R23, R75). -/
def sampleRateOk (sr : Word) : Bool := decide (1 ≤ sr.toNat ∧ sr.toNat ≤ 0xFFFFF)

end Sys2Proof.Machine
end

