-- ==== Sys2Proof/Machine/Ops.lean ====
section
/-! DEFINITION. The named operations over memories, voice slots and the port that the meanings share,
and the rejection of a command, which is this block's one counterpart of taking an exception
(spec/60_exceptions.md R163; R166: there are no traps, so there is no return from one). -/

namespace Sys2Proof.Machine

/-! ## Memories (R50, R56) -/

/-- What an index that a memory does not list reads as: 0, the reset value of NT and ARB (R48). -/
def Memory.unlisted : Half := 0

/-- `MemRead` (R14). -/
def Memory.read : Memory → Nat → Half
  | [], _ => Memory.unlisted
  | (k, x) :: rest, a => if k = a then x else Memory.read rest a

/-- Put an element before a list of later indices, unless it is what an unlisted index reads as. -/
def Memory.consCell (a : Nat) (x : Half) (rest : Memory) : Memory :=
  if x = Memory.unlisted then rest else (a, x) :: rest

/-- `MemWrite` (R14), keeping the canonical form. -/
def Memory.write : Memory → Nat → Half → Memory
  | [], a, x => Memory.consCell a x []
  | (k, y) :: rest, a, x =>
    if a < k then Memory.consCell a x ((k, y) :: rest)
    else if a = k then Memory.consCell a x rest
    else (k, y) :: Memory.write rest a x

/-- Write `f i` at every index `i < n`, in ascending order (the loops of R47 and R102). -/
def Memory.fill (m : Memory) (f : Nat → Half) : Nat → Memory
  | 0 => m
  | n + 1 => Memory.write (Memory.fill m f n) n (f n)

/-- The canonical form: indices strictly rising, no element equal to the unlisted value. -/
abbrev Memory.wf (m : Memory) : Prop :=
  m.Pairwise (fun c d => c.1 < d.1) ∧ ∀ c ∈ m, c.2 ≠ Memory.unlisted

/-- Every listed index lies inside a memory of `capacity` elements (R50). -/
abbrev Memory.within (m : Memory) (capacity : Nat) : Prop := ∀ c ∈ m, c.1 < capacity

/-! ## Setting one group of state

Every update below goes through one of these, so that what an update leaves alone is said once, in
Laws/State.lean. -/

/-- `s` with the master registers `g`. -/
def State.withG (s : State) (g : Master) : State := { s with g := g }

/-- `s` with the voice slots `xs`. -/
def State.withVoices (s : State) (xs : List Voice) : State := { s with voices := xs }

/-- `s` with the sequencer registers `q`. -/
def State.withSeq (s : State) (q : Sequencer) : State := { s with seq := q }

/-- `s` with the note table `m`. -/
def State.withNt (s : State) (m : Memory) : State := { s with nt := m }

/-- `s` with the port `p`. -/
def State.withPort (s : State) (p : Port) : State := { s with port := p }

/-- `g` with G.NVA and G.SR as INIT writes them. -/
def Master.withEngine (g : Master) (nva : BitVec 7) (sr : BitVec 20) : Master :=
  { g with nva := nva, sr := sr }

/-- `g` with G.SR. -/
def Master.withSr (g : Master) (sr : BitVec 20) : Master := { g with sr := sr }

/-- `g` with G.MVOL. -/
def Master.withMvol (g : Master) (mvol : BitVec 7) : Master := { g with mvol := mvol }

/-- `g` with G.NOISE. -/
def Master.withNoise (g : Master) (noise : Word) : Master := { g with noise := noise }

/-- `g` with G.DONE. -/
def Master.withDone (g : Master) (done : Bool) : Master := { g with done := done }

/-- `g` with G.ERR and G.ERRCODE. -/
def Master.withErr (g : Master) (err : Bool) (code : ErrCode) : Master :=
  { g with err := err, errcode := code }

/-- `x` with WAVE. -/
def Voice.withWave (x : Voice) (wave : BitVec 6) : Voice := { x with wave := wave }

/-- `x` with FREQ. -/
def Voice.withFreq (x : Voice) (freq : Half) : Voice := { x with freq := freq }

/-- `x` with VOL. -/
def Voice.withVol (x : Voice) (vol : BitVec 8) : Voice := { x with vol := vol }

/-- `x` with PW. -/
def Voice.withPw (x : Voice) (pw : Half) : Voice := { x with pw := pw }

/-- `x` with ATTACK. -/
def Voice.withAttack (x : Voice) (attack : Half) : Voice := { x with attack := attack }

/-- `x` with DECAY. -/
def Voice.withDecay (x : Voice) (decay : Half) : Voice := { x with decay := decay }

/-- `x` with RELEASE. -/
def Voice.withRelease (x : Voice) (release : Half) : Voice := { x with release := release }

/-- `x` with PHASE. -/
def Voice.withPhase (x : Voice) (phase : Word) : Voice := { x with phase := phase }

/-- `x` with SUSTAIN. -/
def Voice.withSustain (x : Voice) (sustain : BitVec 9) : Voice := { x with sustain := sustain }

/-- `x` with NOISE_SAMPLE. -/
def Voice.withNoiseSample (x : Voice) (h : Half) : Voice := { x with noiseSample := h }

/-- `x` with its buffer and ARB_RD. -/
def Voice.withArb (x : Voice) (arb : Memory) (rd : BitVec 9) : Voice := { x with arb := arb, arbRd := rd }

/-- `x` with ENV_VALUE. -/
def Voice.withValue (x : Voice) (value : BitVec 31) : Voice := { x with envValue := value }

/-- `x` with ENV_ELAPSED. -/
def Voice.withElapsed (x : Voice) (elapsed : Word) : Voice := { x with envElapsed := elapsed }

/-- `x` in envelope phase `st` with ENV_STEP and ENV_TARGET, ENV_ELAPSED 0. -/
def Voice.withPhaseEntry (x : Voice) (st : EnvState) (step target : Word) : Voice :=
  { x with envState := st, envStep := step, envTarget := target, envElapsed := 0 }

/-- `x` with the sustain level read at DECAY's entry (log 5). -/
def Voice.withDecayLevel (x : Voice) (lvl : BitVec 9) : Voice := { x with decayLevel := lvl }

/-- `q` with S.START and S.BEAT_MS. -/
def Sequencer.withTiming (q : Sequencer) (start : Word) (beatMs : BitVec 14) : Sequencer :=
  { q with start := start, beatMs := beatMs }

/-- `q` with S.PLAYING and S.BEAT_VALID. -/
def Sequencer.withRun (q : Sequencer) (playing beatValid : Bool) : Sequencer :=
  { q with playing := playing, beatValid := beatValid }

/-- `q` with S.LAST, and S.BEAT_VALID set. -/
def Sequencer.withBeat (q : Sequencer) (last : Word) : Sequencer :=
  { q with last := last, beatValid := true }

/-- `q` with the table SEQ_INIT binds. -/
def Sequencer.withTable (q : Sequencer) (voices : BitVec 7) (len base : Half) : Sequencer :=
  { q with voices := voices, len := len, base := base, beatValid := false }

/-- `q` started by SEQ_START. -/
def Sequencer.withStart (q : Sequencer) (loop : Bool) (now : Word) : Sequencer :=
  { q with playing := true, loop := loop, start := now, beatValid := false }

/-- `q` with S.CB_EN. -/
def Sequencer.withCbEn (q : Sequencer) (en : Bool) : Sequencer := { q with cbEn := en }

/-- `p` with what the host still has to be taken. -/
def Port.withPending (p : Port) (inputs : List HostInput) : Port := { p with pending := inputs }

/-- `p` with a response. -/
def Port.withResponse (p : Port) (rdata : Word) (events : List Event) : Port :=
  { p with rdata := rdata, events := events }

/-- `p` with the host's refill answers. -/
def Port.withRefills (p : Port) (refills : List (List Half)) (count : Nat) : Port :=
  { p with refills := refills, refillCount := count }

/-! ## Voice slots -/

/-- `voice_defaults(v)` (R47), the value it gives a slot. -/
def voiceDefaults (p : Params) : Voice := Voice.defaults p.arbLen

/-- V[v]. A state of an instance has a slot for every v < NV_MAX. -/
def State.voice (s : State) (v : Nat) : Voice := s.voices.getD v (voiceDefaults s.params)

/-- Change V[v] alone. -/
def State.setVoice (s : State) (v : Nat) (f : Voice → Voice) : State :=
  s.withVoices (s.voices.modify v f)

/-- Change the `n` slots from index `v` on in ascending order, slot `i` by `f i`; the loops
"for v in 0, 1, ..., n-1" whose bodies touch only their own slot (R144, R155). -/
def mapSlots (f : Nat → Voice → Voice) : Nat → Nat → List Voice → List Voice
  | _, 0, xs => xs
  | _, _ + 1, [] => []
  | v, n + 1, x :: xs => f v x :: mapSlots f (v + 1) n xs

/-! ## The response (R8, R14) -/

/-- Begin a command that passed its checks: RDATA 0 and no events, unless it responds or emits (R14). -/
def State.begin (s : State) : State :=
  s.withPort (s.port.withResponse 0 [])

/-- `respond x` (R14). -/
def State.respond (s : State) (x : Word) : State :=
  s.withPort (s.port.withResponse x s.port.events)

/-- `emit e` (R14). -/
def State.emit (s : State) (e : Event) : State :=
  s.withPort (s.port.withResponse s.port.rdata (s.port.events ++ [e]))

/-! ## Rejection (R163) -/

/-- The effect of a rejected command, and its whole effect: ERR is set, ERRCODE takes the code unless an
earlier one is held, RDATA is 0 and there are no events (R163). -/
def State.reject (c : ErrCode) (s : State) : State :=
  s.begin.withG (s.g.withErr true (if s.g.err then s.g.errcode else c))

/-- One check of R165: when it fails the command is rejected with `c`, else `k` goes on. -/
def rejectIf (bad : Bool) (c : ErrCode) (s : State) (k : Result) : Result :=
  if bad then .next (s.reject c) else k

/-- A command that changes one voice by `f` and does no more, rejected with BAD_VOICE when its voice is
not active (R69, R164). -/
def voiceCommand (v : Byte) (f : Voice → Voice) (s : State) : Result :=
  rejectIf (!voiceOk s v) .badVoice s (.next (s.begin.setVoice v.toNat f))

/-! ## Hardware reset (R181) -/

/-- The hardware reset: every piece of the block's state takes its reset value, for the same instance.
What the host has presented and its answers are the host's and stay (log 10). -/
def State.hardReset (s : State) : State :=
  (State.resetOf s.params).withPort (s.port.withResponse 0 [])

end Sys2Proof.Machine
end

