-- ==== Sys2Proof/Machine/Envelope.lean ====
section
/-! DEFINITION. The envelope engine (spec/42_envelope.md): frames, level, enter, trigger_attack,
trigger_release, env_tick, and the commands SET_ATTACK, SET_DECAY, SET_SUSTAIN, SET_RELEASE,
TRIG_ATTACK, TRIG_RELEASE. Each sub-procedure is a function of one voice and G.SR. -/

namespace Sys2Proof.Machine

/-- The timed phases, the `st` that `enter` takes (R122). -/
inductive Timed where
  /-- ATTACK. -/
  | attack
  /-- DECAY. -/
  | decay
  /-- RELEASE. -/
  | release
  deriving DecidableEq, Repr

/-- The envelope state of a timed phase. -/
def timedState : Timed → EnvState
  | .attack => .attack
  | .decay => .decay
  | .release => .release

/-- `frames(ms)` (R116). -/
def frames (sr : BitVec 20) (ms : Half) : Nat := max 1 (ms.toNat * sr.toNat / 1000)

/-- The envelope level of a sustain setting: SUSTAIN * 2^22 (R117). -/
def sustainLevel (sustain : BitVec 9) : Nat := sustain.toNat * 2 ^ 22

/-- `level(st)` when the phase is entered (R117). -/
def level (x : Voice) : Timed → Nat
  | .attack => envOne
  | .decay => sustainLevel x.sustain
  | .release => 0

/-- The per-frame step of a phase from value `e` to `target` in `n` frames (R122). -/
def stepOf (target e n : Nat) : Int := quot ((target : Int) - (e : Int)) n

/-- `enter(v, st, ms)` (R122). DECAY's entry is where SUSTAIN is read (R117): what it
reads is held for the landing (log 5). -/
def enter (sr : BitVec 20) (st : Timed) (ms : Half) (x : Voice) : Voice :=
  (x.withPhaseEntry (timedState st)
    (BitVec.ofInt 32 (stepOf (level x st) x.envValue.toNat (frames sr ms)))
    (BitVec.ofNat 32 (frames sr ms))).withDecayLevel
    (if st = .decay then x.sustain else x.decayLevel)

/-- `trigger_attack(v)` (R122). -/
def triggerAttack (sr : BitVec 20) (x : Voice) : Voice := enter sr .attack x.attack x

/-- `trigger_release(v)` (R124). -/
def triggerRelease (sr : BitVec 20) (x : Voice) : Voice := enter sr .release x.release x

/-- The sustain setting DECAY lands on: SUSTAIN as it was when DECAY was entered. "The sustain level is read
when DECAY is entered. A SET_SUSTAIN during DECAY or SUSTAIN changes nothing until the next DECAY entry"
(R117; R187; the target T of R130). DEDUCED: the model holds that reading in a field of its own (log 5). -/
def decayLanding (x : Voice) : BitVec 9 := x.decayLevel

/-- The first part of env_tick: the step is added and the frame counted (R127). -/
def envAdvance (x : Voice) : Voice :=
  (x.withValue (BitVec.ofInt 31 ((x.envValue.toNat : Int) + x.envStep.toInt))).withElapsed
    (x.envElapsed + 1)

/-- A phase without a target frame count begins: SUSTAIN or OFF (R127). -/
def settle (st : EnvState) (x : Voice) : Voice :=
  x.withPhaseEntry st 0 0

/-- What happens at the completion frame of a timed phase (R127). -/
def complete (sr : BitVec 20) (st : Timed) (x : Voice) : Voice :=
  match st with
  | .attack =>
    enter sr .decay x.decay (x.withValue (BitVec.ofNat 31 envOne))
  | .decay => settle .sustain (x.withValue (BitVec.ofNat 31 (sustainLevel (decayLanding x))))
  | .release => settle .off (x.withValue 0)

/-- The target-frame completion check of a timed phase (R127). -/
def checkTarget (sr : BitVec 20) (st : Timed) (x : Voice) : Voice :=
  if x.envElapsed = x.envTarget then complete sr st x else x

/-- `env_tick(v)` (R127). A voice in OFF is never ticked (R126). -/
def envTick (sr : BitVec 20) (x : Voice) : Voice :=
  match x.envState with
  | .attack => checkTarget sr .attack (envAdvance x)
  | .decay => checkTarget sr .decay (envAdvance x)
  | .release => checkTarget sr .release (envAdvance x)
  | .sustain => envAdvance x
  | .off => x

/-- What `silence_all` does to one voice (R144). -/
def silence (x : Voice) : Voice := (x.withValue 0).withPhaseEntry .off 0 0

/-! ## Commands -/

/-- SET_ATTACK (R118). -/
def execSetAttack (v : Byte) (ms : Half) (s : State) : Result :=
  voiceCommand v (fun x => x.withAttack ms) s

/-- SET_DECAY (R119). -/
def execSetDecay (v : Byte) (ms : Half) (s : State) : Result :=
  voiceCommand v (fun x => x.withDecay ms) s

/-- SET_SUSTAIN (R120): values above 256 are clamped. -/
def execSetSustain (v : Byte) (lvl : Half) (s : State) : Result :=
  voiceCommand v (fun x => x.withSustain (BitVec.ofNat 9 (min lvl.toNat 256))) s

/-- SET_RELEASE (R121). -/
def execSetRelease (v : Byte) (ms : Half) (s : State) : Result :=
  voiceCommand v (fun x => x.withRelease ms) s

/-- TRIG_ATTACK (R123). -/
def execTrigAttack (v : Byte) (s : State) : Result :=
  voiceCommand v (triggerAttack s.g.sr) s

/-- TRIG_RELEASE (R125). -/
def execTrigRelease (v : Byte) (s : State) : Result :=
  voiceCommand v (triggerRelease s.g.sr) s

end Sys2Proof.Machine
end

