-- ==== Sys2Proof/Machine/Oscillator.lean ====
section
/-! DEFINITION. The noise generator and the oscillator (spec/41_oscillator.md): noise_next, noise_normal,
the phase accumulator, the six waveform kinds, voice_raw, and the commands SET_WAVE, SET_FREQ, SET_PW,
ARB_WRITE, ARB_READ. -/

namespace Sys2Proof.Machine

/-! ## Noise generator (R90 to R93) -/

/-- `noise_next()` as a function of the generator's state: the new state, which is also the draw (R91). -/
def noiseNext (x0 : Word) : Word :=
  let x1 := x0 ^^^ (x0 <<< 13)
  let x2 := x1 ^^^ (x1 >>> 17)
  x2 ^^^ (x2 <<< 5)

/-- `noise_normal()` (R92): the new state and the value. No command or waveform calls it (R18, log 11). -/
def noiseNormal (x : Word) : Word × Int :=
  let a := noiseNext x
  let b := noiseNext a
  (b, asr (((a.extractLsb' 16 16).toNat : Int) + ((b.extractLsb' 0 16).toNat : Int) - 65535) 1)

/-! ## Phase accumulator (R94, R95) -/

/-- `phase_inc` of a voice with frequency `freq` at sample rate `sr` (R94). Where it is used, `sr` is not 0. -/
def phaseInc (freq : Half) (sr : BitVec 20) : Word :=
  BitVec.ofNat 32 ((freq.toNat * 2 ^ 32) / sr.toNat)

/-- `t`, the accumulator after the advance, before it is taken modulo 2^32 (R95). -/
def phaseSum (sr : BitVec 20) (x : Voice) : Nat := x.phase.toNat + (phaseInc x.freq sr).toNat

/-- `wrap`: this advance completes a full cycle (R95). -/
def phaseWraps (sr : BitVec 20) (x : Voice) : Bool := decide (2 ^ 32 ≤ phaseSum sr x)

/-- The phase advance, whatever the envelope state (R95). -/
def advancePhase (sr : BitVec 20) (x : Voice) : Voice :=
  x.withPhase (BitVec.ofNat 32 (phaseSum sr x))

/-! ## Waveform kinds (R97 to R103) -/

/-- Sawtooth (R97). -/
def saw (p : Word) : Int := (p.extractLsb' 16 16).toNat - 32768

/-- Triangle (R98). -/
def tri (p : Word) : Int :=
  let q : Int := (p.extractLsb' 15 16).toNat
  if p.getLsbD 31 then 32767 - q else q - 32768

/-- Square with pulse width `pw` (R99). -/
def square (p : Word) (pw : Half) : Int :=
  if (p.extractLsb' 16 16).toNat < pw.toNat then 32767 else -32768

/-- The sine table SINE[0..255] (R103). -/
def sineTable : List Int :=
  [0, 804, 1608, 2410, 3212, 4011, 4808, 5602, 6393, 7179, 7962, 8739, 9512, 10278, 11039, 11793]
  ++ [12539, 13279, 14010, 14732, 15446, 16151, 16846, 17530, 18204, 18868, 19519, 20159, 20787, 21403, 22005, 22594]
  ++ [23170, 23731, 24279, 24811, 25329, 25832, 26319, 26790, 27245, 27683, 28105, 28510, 28898, 29268, 29621, 29956]
  ++ [30273, 30571, 30852, 31113, 31356, 31580, 31785, 31971, 32137, 32285, 32412, 32521, 32609, 32678, 32728, 32757]
  ++ [32767, 32757, 32728, 32678, 32609, 32521, 32412, 32285, 32137, 31971, 31785, 31580, 31356, 31113, 30852, 30571]
  ++ [30273, 29956, 29621, 29268, 28898, 28510, 28105, 27683, 27245, 26790, 26319, 25832, 25329, 24811, 24279, 23731]
  ++ [23170, 22594, 22005, 21403, 20787, 20159, 19519, 18868, 18204, 17530, 16846, 16151, 15446, 14732, 14010, 13279]
  ++ [12539, 11793, 11039, 10278, 9512, 8739, 7962, 7179, 6393, 5602, 4808, 4011, 3212, 2410, 1608, 804]
  ++ [0, -804, -1608, -2410, -3212, -4011, -4808, -5602, -6393, -7179, -7962, -8739, -9512, -10278, -11039, -11793]
  ++ [-12539, -13279, -14010, -14732, -15446, -16151, -16846, -17530, -18204, -18868, -19519, -20159, -20787, -21403, -22005, -22594]
  ++ [-23170, -23731, -24279, -24811, -25329, -25832, -26319, -26790, -27245, -27683, -28105, -28510, -28898, -29268, -29621, -29956]
  ++ [-30273, -30571, -30852, -31113, -31356, -31580, -31785, -31971, -32137, -32285, -32412, -32521, -32609, -32678, -32728, -32757]
  ++ [-32767, -32757, -32728, -32678, -32609, -32521, -32412, -32285, -32137, -31971, -31785, -31580, -31356, -31113, -30852, -30571]
  ++ [-30273, -29956, -29621, -29268, -28898, -28510, -28105, -27683, -27245, -26790, -26319, -25832, -25329, -24811, -24279, -23731]
  ++ [-23170, -22594, -22005, -21403, -20787, -20159, -19519, -18868, -18204, -17530, -16846, -16151, -15446, -14732, -14010, -13279]
  ++ [-12539, -11793, -11039, -10278, -9512, -8739, -7962, -7179, -6393, -5602, -4808, -4011, -3212, -2410, -1608, -804]

/-- Sine (R101). -/
def sine (p : Word) : Int := sineTable.getD (p.extractLsb' 24 8).toNat 0

/-- What one SAMPLE threads through the voices in ascending order (R134): the shared generator, the
host's refill answers, the events raised, and the accumulator `acc`. -/
structure Mix where
  /-- G.NOISE as the voices so far have left it. -/
  noise : Word
  /-- The answers the host still has ready. -/
  refills : List (List Half)
  /-- Refill requests made so far. -/
  refillCount : Nat
  /-- Events raised so far in this SAMPLE. -/
  events : List Event
  /-- The running sum; exact, which a 32-bit signed accumulator is too (R138, log 14). -/
  acc : Int
  deriving DecidableEq, Repr

/-- Element `i` of the host's answer to this request for voice `v`: what the host has ready, and a free
value where it has given nothing (R9, R171, U4; log 4). -/
def refillAnswer (v : Nat) (m : Mix) (i : Nat) : Half :=
  match m.refills.head? with
  | some answer => answer.getD i (Config.refill v m.refillCount i)
  | none => Config.refill v m.refillCount i

/-- The refill of an exhausted buffer: EV_REFILL(v), the whole buffer replaced, ARB_RD 0 (R102). -/
def refillBuffer (p : Params) (v : Nat) (x : Voice) (m : Mix) : Voice × Mix :=
  (x.withArb (Memory.fill x.arb (refillAnswer v m) p.arbLen) 0,
   { m with
     refills := m.refills.tail
     refillCount := m.refillCount + 1
     events := m.events ++ [.refill v] })

/-- The buffer is exhausted: ARB_RD = ARB_LEN (R40). -/
def arbExhausted (p : Params) (x : Voice) : Bool := decide (x.arbRd.toNat = p.arbLen)

/-- The voice and the host's side after the refill check of `arb_next(v)` (R102). -/
def arbReady (p : Params) (v : Nat) (x : Voice) (m : Mix) : Voice × Mix :=
  if arbExhausted p x then refillBuffer p v x m else (x, m)

/-- `arb_next(v)` when the ARB bit is set (R101, R102): one sample is consumed. -/
def arbKind (p : Params) (v : Nat) (x : Voice) (m : Mix) : Voice × Mix × Int :=
  if x.wave.getLsbD 5 then
    let r := arbReady p v x m
    (r.1.withArb r.1.arb (r.1.arbRd + 1), r.2, tc16 (Memory.read r.1.arb r.1.arbRd.toNat))
  else (x, m, 0)

/-- The noise kind when the NOISE bit is set (R100, R101): a fresh draw if this sample's advance wrapped,
then the held value. -/
def noiseKind (wrap : Bool) (x : Voice) (m : Mix) : Voice × Mix × Int :=
  if x.wave.getLsbD 0 then
    if wrap then
      let n := noiseNext m.noise
      let h := n.extractLsb' 16 16
      (x.withNoiseSample h, { m with noise := n }, tc16 h)
    else (x, m, tc16 x.noiseSample)
  else (x, m, 0)

/-- The sum of the kinds that have no side effect: SAW, TRI, SQUARE, SINE (R97 to R99, R101). -/
def pureKindsSum (x : Voice) : Int :=
  (if x.wave.getLsbD 1 then saw x.phase else 0) + (if x.wave.getLsbD 2 then tri x.phase else 0) +
    (if x.wave.getLsbD 3 then square x.phase x.pw else 0) +
    (if x.wave.getLsbD 4 then sine x.phase else 0)

/-- `k`: how many kinds are set (R101). -/
def kindCount (wave : BitVec 6) : Nat :=
  (wave.getLsbD 0).toNat + (wave.getLsbD 1).toNat + (wave.getLsbD 2).toNat +
    (wave.getLsbD 3).toNat + (wave.getLsbD 4).toNat + (wave.getLsbD 5).toNat

/-- The mean of `k` kinds, truncated toward zero; 0 when none is set (R101). -/
def meanOf (sum : Int) (k : Nat) : Int := if k = 0 then 0 else quot sum k

/-- `voice_raw(v, wrap)` (R101): the voice after the kinds' side effects, what they leave of the shared
state, and the raw sample. NOISE comes first and ARB last; they touch disjoint state (R110). -/
def voiceRaw (p : Params) (v : Nat) (wrap : Bool) (x : Voice) (m : Mix) : Voice × Mix × Int :=
  let n := noiseKind wrap x m
  let a := arbKind p v n.1 n.2.1
  (a.1, a.2.1, meanOf (n.2.2 + pureKindsSum x + a.2.2) (kindCount x.wave))

/-! ## Oscillator commands -/

/-- SET_WAVE (R104). -/
def execSetWave (v : Byte) (mask : BitVec 6) (s : State) : Result :=
  voiceCommand v (fun x => x.withWave mask) s

/-- SET_FREQ (R105). -/
def execSetFreq (v : Byte) (hz : Half) (s : State) : Result :=
  voiceCommand v (fun x => x.withFreq hz) s

/-- SET_PW (R106). -/
def execSetPw (v : Byte) (pw : Half) (s : State) : Result :=
  voiceCommand v (fun x => x.withPw pw) s

/-- An index lies outside a voice buffer: ARG >= ARB_LEN (R55, R75). -/
def arbIndexBad (i : Word) (s : State) : Bool := decide (s.params.arbLen ≤ i.toNat)

/-- ARB_WRITE (R107). -/
def execArbWrite (v : Byte) (x : Half) (i : Word) (s : State) : Result :=
  rejectIf (!voiceOk s v) .badVoice s <|
    rejectIf (arbIndexBad i s) .badValue s <|
      .next (s.begin.setVoice v.toNat fun y => y.withArb (Memory.write y.arb i.toNat x) y.arbRd)

/-- ARB_READ (R108). -/
def execArbRead (v : Byte) (i : Word) (s : State) : Result :=
  rejectIf (!voiceOk s v) .badVoice s <|
    rejectIf (arbIndexBad i s) .badValue s <|
      .next (s.begin.respond (sext32 (Memory.read (s.voice v.toNat).arb i.toNat)))

end Sys2Proof.Machine
end

