-- ==== Sys2Proof/Machine/Mixer.lean ====
section
/-! DEFINITION. The mixer and the per-sample pull (spec/43_mixer.md): SET_VOL and SAMPLE. -/

namespace Sys2Proof.Machine

/-- SET_VOL (R133). -/
def execSetVol (v : Byte) (vol : Byte) (s : State) : Result :=
  voiceCommand v (fun x => x.withVol vol) s

/-- Envelope scaling: `a = (w * E) asr 30` (R135). -/
def envScale (w : Int) (e : BitVec 31) : Int := asr (w * e.toNat) 30

/-- Voice gain: `g = (a * VOL) asr 8` (R136). -/
def volScale (a : Int) (vol : BitVec 8) : Int := asr (a * vol.toNat) 8

/-- Master volume and clipping (R137). -/
def mixOut (acc : Int) (mvol : BitVec 7) : Int :=
  clamp (quot (acc * mvol.toNat) 100) (-32768) 32767

/-- One pass of SAMPLE's loop body for a voice not in OFF, after its phase advance (R134): the raw sample
is scaled by the envelope value before the tick (R126), by the voice's volume, and added. -/
def sampleSounding (p : Params) (sr : BitVec 20) (v : Nat) (wrap : Bool) (x : Voice) (m : Mix) :
    Voice × Mix :=
  let r := voiceRaw p v wrap x m
  let gain := volScale (envScale r.2.2 r.1.envValue) r.1.vol
  (envTick sr r.1, { r.2.1 with acc := r.2.1.acc + gain })

/-- One pass of SAMPLE's loop body (R134): the phase always advances; a voice in OFF goes no further. -/
def sampleVoice (p : Params) (sr : BitVec 20) (v : Nat) (x : Voice) (m : Mix) : Voice × Mix :=
  let y := advancePhase sr x
  if x.envState = .off then (y, m) else sampleSounding p sr v (phaseWraps sr x) y m

/-- SAMPLE's loop over the `n` slots from index `v` on, in ascending order (R134). -/
def sampleSlots (p : Params) (sr : BitVec 20) : Nat → Nat → List Voice → Mix → List Voice × Mix
  | _, 0, xs, m => (xs, m)
  | _, _ + 1, [], m => ([], m)
  | v, n + 1, x :: xs, m =>
    let r := sampleVoice p sr v x m
    let rest := sampleSlots p sr (v + 1) n xs r.2
    (r.1 :: rest.1, rest.2)

/-- The shared state a SAMPLE starts from: the accumulator is 0 and no event is raised yet (R134). -/
def mixStart (s : State) : Mix :=
  { noise := s.g.noise, refills := s.port.refills, refillCount := s.port.refillCount
    events := [], acc := 0 }

/-- The voices and the shared state after SAMPLE's loop (R134). -/
def sampleLoop (s : State) : List Voice × Mix :=
  sampleSlots s.params s.g.sr 0 s.g.nva.toNat s.voices (mixStart s)

/-- The state after a SAMPLE; RDATA is the mixed, clipped sample as a 32-bit pattern (R134). -/
def sampleResult (s : State) : State :=
  let r := sampleLoop s
  ((s.withVoices r.1).withG (s.g.withNoise r.2.noise)).withPort
    ((s.port.withRefills r.2.refills r.2.refillCount).withResponse
      (pattern32 (mixOut r.2.acc s.g.mvol)) r.2.events)

/-- A voice's ARB kind would read beyond its buffer; R46 (5) excludes it (log 7). -/
def arbBroken (p : Params) (x : Voice) : Bool :=
  decide (x.envState ≠ .off) && x.wave.getLsbD 5 && decide (p.arbLen < x.arbRd.toNat)

/-- SAMPLE (R134). The two faults lie outside every state a run reaches (log 7). -/
def execSample (s : State) : Result :=
  if s.g.nva ≠ 0 ∧ s.g.sr = 0 then .fault .zeroSampleRate
  else if (s.voices.take s.g.nva.toNat).any (arbBroken s.params) then .fault .arbOutOfBuffer
  else .next (sampleResult s)

end Sys2Proof.Machine
end

