-- ==== Sys2Proof/Machine/Sequencer.lean ====
section
/-! DEFINITION. The sequencer (spec/44_sequencer.md): bpm_to_ms, silence_all, cur_beat, retime, dispatch,
and the commands SEQ_INIT, SEQ_START, SEQ_STOP, SEQ_TEMPO, SEQ_CB, NT_WRITE, NT_READ, TICK. -/

namespace Sys2Proof.Machine

/-- `bpm_to_ms(bpm)` (R143), for bpm >= 1. -/
def bpmToMs (bpm : Half) : Nat := max 1 (60000 / bpm.toNat / 4)

/-- `silence_all()` (R144): every active voice, at once. -/
def silenceAll (s : State) : State :=
  s.withVoices (mapSlots (fun _ x => silence x) 0 s.g.nva.toNat s.voices)

/-- `cur_beat(now)` (R145), for S.BEAT_MS >= 1. -/
def curBeat (q : Sequencer) (now : Word) : Word :=
  BitVec.ofNat 32 ((now - q.start).toNat / q.beatMs.toNat)

/-! ## Configuration -/

/-- SEQ_INIT's operands are out of range (R75, R146). -/
def seqInitBad (n : Byte) (len : Half) (base : Word) (s : State) : Bool :=
  decide (n.toNat = 0 ∨ s.g.nva.toNat < n.toNat ∨ len.toNat = 0 ∨
    s.params.ntWords < base.toNat + n.toNat * len.toNat)

/-- SEQ_INIT (R146). -/
def execSeqInit (n : Byte) (len : Half) (base : Word) (s : State) : Result :=
  rejectIf (seqInitBad n len base s) .badValue s <|
    rejectIf s.seq.playing .badState s <|
      .next (s.begin.withSeq (s.seq.withTable (n.setWidth 7) len (base.setWidth 16)))

/-- SEQ_START is not allowed: the sequencer is not configured, or has more voices than are active (R75, R147). -/
def seqStartBad (s : State) : Bool :=
  decide (s.seq.len = 0 ∨ s.seq.voices = 0 ∨ s.g.nva.toNat < s.seq.voices.toNat)

/-- SEQ_START (R147). -/
def execSeqStart (loop : Bool) (now : Word) (s : State) : Result :=
  rejectIf (seqStartBad s) .badState s <|
    .next (s.begin.withSeq (s.seq.withStart loop now))

/-- SEQ_STOP (R148). -/
def execSeqStop (s : State) : Result :=
  .next (silenceAll (s.begin.withSeq (s.seq.withRun false false)))

/-- `retime(new_ms)` (R150): while a beat of this playback has been dispatched, the start is rebased so
that the last dispatched beat keeps its start time. -/
def retime (ms : Nat) (q : Sequencer) : Sequencer :=
  q.withTiming
    (if q.playing && q.beatValid then
      BitVec.ofInt 32 ((q.start.toNat : Int) + (q.last.toNat : Int) * q.beatMs.toNat -
        (q.last.toNat : Int) * ms)
     else q.start)
    (BitVec.ofNat 14 ms)

/-- SEQ_TEMPO (R151). -/
def execSeqTempo (bpm : Half) (s : State) : Result :=
  rejectIf (decide (bpm = 0)) .badValue s <|
    .next (s.begin.withSeq (retime (bpmToMs bpm) s.seq))

/-- SEQ_CB (R152). -/
def execSeqCb (en : Bool) (s : State) : Result :=
  .next (s.begin.withSeq (s.seq.withCbEn en))

/-- An index lies outside the note table: ARG >= NT_WORDS (R55, R75). -/
def ntIndexBad (a : Word) (s : State) : Bool := decide (s.params.ntWords ≤ a.toNat)

/-- NT_WRITE (R153). -/
def execNtWrite (x : Half) (a : Word) (s : State) : Result :=
  rejectIf (ntIndexBad a s) .badValue s <|
    .next (s.begin.withNt (Memory.write s.nt a.toNat x))

/-- NT_READ (R154). -/
def execNtRead (a : Word) (s : State) : Result :=
  rejectIf (ntIndexBad a s) .badValue s <|
    .next (s.begin.respond (sext32 (Memory.read s.nt a.toNat)))

/-! ## The per-tick pump -/

/-- `nt_index(v, b)` (R52). -/
def ntIndex (q : Sequencer) (v b : Nat) : Nat := q.base.toNat + v * q.len.toNat + b

/-- What dispatching the note `n` does to the voice of its row (R53, R155, R159). -/
def dispatchNote (sr : BitVec 20) (n : Half) (x : Voice) : Voice :=
  if 0 < tc16 n then triggerAttack sr (x.withFreq n)
  else if tc16 n = -1 then triggerRelease sr x
  else x

/-- `dispatch(col)` (R155): row v drives voice slot v, rows in ascending order. -/
def dispatch (col : Nat) (s : State) : State :=
  s.withVoices
    (mapSlots (fun v x => dispatchNote s.g.sr (Memory.read s.nt (ntIndex s.seq v col)) x)
      0 s.seq.voices.toNat s.voices)

/-- Every entry of the column lies in the note table; R46 (8) says so while playing (log 7). -/
def columnInTable (col : Nat) (s : State) : Bool :=
  (List.range s.seq.voices.toNat).all fun v => decide (ntIndex s.seq v col < s.params.ntWords)

/-- The end of a one-shot track (R156, R158): stop, silence, DONE, and EV_DONE if enabled. -/
def endTrack (s : State) : State :=
  let t := (silenceAll (s.withSeq (s.seq.withRun false s.seq.beatValid))).withG (s.g.withDone true)
  if s.seq.cbEn then t.emit .done else t

/-- A beat that differs from the last dispatched one (R156). -/
def newBeat (cur : Word) (s : State) : Result :=
  let t := s.withSeq (s.seq.withBeat cur)
  if s.seq.len.toNat ≤ cur.toNat ∧ s.seq.loop = false then .next (endTrack t)
  else if s.seq.len = 0 then .fault .zeroTrack
  else if columnInTable (cur.toNat % s.seq.len.toNat) s then
    .next (dispatch (cur.toNat % s.seq.len.toNat) t)
  else .fault .noteOutOfTable

/-- TICK (R156). The faults lie outside every state a run reaches (log 7). -/
def execTick (now : Word) (s : State) : Result :=
  let t := s.begin
  if s.seq.playing = false then .next t
  else if s.seq.beatMs = 0 then .fault .zeroBeat
  else if s.seq.beatValid ∧ curBeat s.seq now = s.seq.last then .next t
  else newBeat (curBeat s.seq now) t

end Sys2Proof.Machine
end

