-- ==== Sys2Proof/Machine/Flags.lean ====
section
/-! DEFINITION. The STATUS word (spec/10_state.md R43, R44) and the codes it and READ show. STATUS bits
are the block's only flags; nothing computes a condition code. -/

namespace Sys2Proof.Machine

/-- The ERRCODE values (R164). -/
def errCodeBits : ErrCode → BitVec 4
  | .none => 0
  | .illegalOp => 1
  | .rsvd => 2
  | .badVoice => 3
  | .badValue => 4
  | .badState => 5

/-- The ENV_STATE codes (R35). -/
def envStateBits : EnvState → BitVec 3
  | .off => 0
  | .attack => 1
  | .decay => 2
  | .sustain => 3
  | .release => 4

/-- STATUS (R43): bit 0 PLAYING, 1 LOOP, 2 DONE, 3 ERR, 4 CB_EN, 5 BEAT_VALID, 7:6 zero, 11:8 ERRCODE,
31:12 zero. -/
def statusWord (s : State) : Word :=
  (0 : BitVec 20) ++ errCodeBits s.g.errcode ++ (0 : BitVec 2) ++ BitVec.ofBool s.seq.beatValid ++
    BitVec.ofBool s.seq.cbEn ++ BitVec.ofBool s.g.err ++ BitVec.ofBool s.g.done ++
    BitVec.ofBool s.seq.loop ++ BitVec.ofBool s.seq.playing

end Sys2Proof.Machine
end

