-- ==== Sys2Proof/Machine/System.lean ====
section
/-! DEFINITION. The system and master commands (spec/40_system.md): NOP, INIT, SET_SR, SET_MVOL,
CLR_STATUS, READ. -/

namespace Sys2Proof.Machine

/-- NOP (R80). -/
def execNop (s : State) : Result := .next s.begin

/-- INIT's operands are out of range: n = 0, n > NV_MAX, or an illegal sample rate (R75, R81). -/
def initBad (n : Half) (sr : Word) (s : State) : Bool :=
  decide (n.toNat = 0 ∨ s.params.nvMax < n.toNat) || !sampleRateOk sr

/-- What an accepted INIT does (R81): the sequencer stops, EVERY slot is defaulted, NVA and SR are set. -/
def initEngine (n : Half) (sr : Word) (s : State) : State :=
  ((s.withSeq (s.seq.withRun false false)).withVoices
    (List.replicate s.params.nvMax (voiceDefaults s.params))).withG
    (s.g.withEngine (n.setWidth 7) (sr.setWidth 20))

/-- INIT (R81). -/
def execInit (n : Half) (sr : Word) (s : State) : Result :=
  rejectIf (initBad n sr s) .badValue s (.next (initEngine n sr s.begin))

/-- SET_SR (R82). -/
def execSetSr (sr : Word) (s : State) : Result :=
  rejectIf (!sampleRateOk sr) .badValue s
    (.next (s.begin.withG (s.g.withSr (sr.setWidth 20))))

/-- SET_MVOL (R83): values above 100 are clamped. -/
def execSetMvol (pct : Half) (s : State) : Result :=
  .next (s.begin.withG (s.g.withMvol (BitVec.ofNat 7 (min pct.toNat 100))))

/-- CLR_STATUS (R84). -/
def execClrStatus (s : State) : Result :=
  .next (s.begin.withG ((s.g.withDone false).withErr false .none))

/-- The READ selector takes a voice: 0x10 <= IMM <= 0x1F (R71, R165). -/
def isVoiceSel (sel : Half) : Bool := decide (0x10 ≤ sel.toNat ∧ sel.toNat ≤ 0x1F)

/-- The value of a global selector (R71, R86); `none` if undefined. -/
def readGlobal (s : State) (sel : Half) : Option Word :=
  match sel with
  | 0x00#16 => some (statusWord s)
  | 0x01#16 => some (zext32 s.g.sr)
  | 0x02#16 => some (zext32 s.g.mvol)
  | 0x03#16 => some (zext32 s.g.nva)
  | 0x04#16 => some (zext32 s.seq.len)
  | 0x05#16 => some (zext32 s.seq.voices)
  | 0x06#16 => some (zext32 s.seq.base)
  | 0x07#16 => some (zext32 s.seq.beatMs)
  | 0x08#16 => some s.seq.start
  | 0x09#16 => some s.seq.last
  | 0x0A#16 => some s.g.noise
  | _ => none

/-- The value of a voice selector (R71, R86); `none` if undefined. -/
def readVoice (x : Voice) (sel : Half) : Option Word :=
  match sel with
  | 0x10#16 => some (zext32 x.wave)
  | 0x11#16 => some (zext32 x.freq)
  | 0x12#16 => some (zext32 x.vol)
  | 0x13#16 => some (zext32 x.pw)
  | 0x14#16 => some (zext32 x.attack)
  | 0x15#16 => some (zext32 x.decay)
  | 0x16#16 => some (zext32 x.sustain)
  | 0x17#16 => some (zext32 x.release)
  | 0x18#16 => some x.phase
  | 0x19#16 => some (zext32 x.envValue)
  | 0x1A#16 => some x.envStep
  | 0x1B#16 => some x.envElapsed
  | 0x1C#16 => some x.envTarget
  | 0x1D#16 => some (zext32 (envStateBits x.envState))
  | 0x1E#16 => some (sext32 x.noiseSample)
  | 0x1F#16 => some (zext32 x.arbRd)
  | _ => none

/-- The value a READ returns, for a voice in range; `none` for an undefined selector (R71, R86). -/
def readValue (s : State) (v : Byte) (sel : Half) : Option Word :=
  if isVoiceSel sel then readVoice (s.voice v.toNat) sel else readGlobal s sel

/-- READ (R86): BAD_VOICE for a voice selector out of range, BAD_VALUE for an undefined selector. -/
def execRead (v : Byte) (sel : Half) (s : State) : Result :=
  rejectIf (isVoiceSel sel && !voiceOk s v) .badVoice s
    (match readValue s v sel with
     | some x => .next (s.begin.respond x)
     | none => .next (s.reject .badValue))

end Sys2Proof.Machine
end

