-- ==== Sys2Proof/Machine/Dispatch.lean ====
section
/-! DEFINITION. One arm per command: the meaning it calls. -/

namespace Sys2Proof.Machine

/-- The meaning of a decoded command (spec/30_encoding.md R70). -/
def exec (i : Instr) (s : State) : Host.Outcome State Fault Refusal :=
  match i with
  | .nop => Sys2Proof.Machine.execNop s
  | .init n sr => Sys2Proof.Machine.execInit n sr s
  | .setSr sr => Sys2Proof.Machine.execSetSr sr s
  | .setMvol pct => Sys2Proof.Machine.execSetMvol pct s
  | .clrStatus => Sys2Proof.Machine.execClrStatus s
  | .read v sel => Sys2Proof.Machine.execRead v sel s
  | .setWave v mask => Sys2Proof.Machine.execSetWave v mask s
  | .setFreq v hz => Sys2Proof.Machine.execSetFreq v hz s
  | .setPw v pw => Sys2Proof.Machine.execSetPw v pw s
  | .arbWrite v x a => Sys2Proof.Machine.execArbWrite v x a s
  | .arbRead v a => Sys2Proof.Machine.execArbRead v a s
  | .setAttack v ms => Sys2Proof.Machine.execSetAttack v ms s
  | .setDecay v ms => Sys2Proof.Machine.execSetDecay v ms s
  | .setSustain v lvl => Sys2Proof.Machine.execSetSustain v lvl s
  | .setRelease v ms => Sys2Proof.Machine.execSetRelease v ms s
  | .trigAttack v => Sys2Proof.Machine.execTrigAttack v s
  | .trigRelease v => Sys2Proof.Machine.execTrigRelease v s
  | .setVol v vol => Sys2Proof.Machine.execSetVol v vol s
  | .sample => Sys2Proof.Machine.execSample s
  | .seqInit n len base => Sys2Proof.Machine.execSeqInit n len base s
  | .seqStart loop now => Sys2Proof.Machine.execSeqStart loop now s
  | .seqStop => Sys2Proof.Machine.execSeqStop s
  | .seqTempo bpm => Sys2Proof.Machine.execSeqTempo bpm s
  | .seqCb en => Sys2Proof.Machine.execSeqCb en s
  | .ntWrite x a => Sys2Proof.Machine.execNtWrite x a s
  | .ntRead a => Sys2Proof.Machine.execNtRead a s
  | .tick now => Sys2Proof.Machine.execTick now s

end Sys2Proof.Machine
end

