-- ==== Sys2Proof/Machine/Port.lean ====
section
/-! DEFINITION. The command port (spec/00_scope.md R8): taking the next thing the host has presented,
which is this machine's fetch, and presenting one. -/

namespace Sys2Proof.Machine

/-- The state is one of an instance of the hardware: its parameters are legal (R6) and it has NV_MAX
voice slots. -/
def State.isInstance (s : State) : Bool :=
  decide s.params.legal && decide (s.voices.length = s.params.nvMax)

/-- The state with `inputs` left for the block to take. -/
def State.withPending (s : State) (inputs : List HostInput) : State :=
  s.withPort (s.port.withPending inputs)

/-- The host presents one more transfer, to be taken next. -/
def State.presentFirst (s : State) (t : Transfer) : State :=
  s.withPending (.command t.1 t.2 :: s.port.pending)

/-- The host presents one more input after those it has presented already (R61). -/
def State.present (s : State) (input : HostInput) : State :=
  s.withPending (s.port.pending ++ [input])

end Sys2Proof.Machine
end

