-- ==== Sys2Proof/Machine/Step.lean ====
section
/-! DEFINITION. One step of PSS-CORE (spec/00_scope.md R8): take the next thing the host has presented,
decode it, and either reject it (spec/60_exceptions.md R163) or run it. -/

namespace Sys2Proof.Machine

/-- One transfer: rejected by the decoder's code, or executed (R79, R163, R165). -/
def runTransfer (cmd arg : Word) (s : State) : Result :=
  match decode cmd arg with
  | .ok i => exec i s
  | .error c => .next (s.reject c)

/-- One step. A state of no legal instance is refused (R6). With nothing presented the block waits and
nothing changes (R177, R181, log 2). -/
def step (s : State) : Host.Outcome State Fault Refusal :=
  if s.isInstance then
    match s.port.pending with
    | [] => .next s
    | .reset :: rest => .next (s.withPending rest).hardReset
    | .command cmd arg :: rest => runTransfer cmd arg (s.withPending rest)
  else .refused .illegalInstance

/-- `s` with the transfer of an opcode-table word presented, to be taken by the next step. -/
def State.withFetchWord (s : State) (nbits w : Nat) : State :=
  s.presentFirst (tableTransfer nbits w)

end Sys2Proof.Machine
end

