-- ==== Sys2Proof/Machine/Assembler.lean ====
section
/-! DEFINITION. The assembly syntax (spec/30_encoding.md R76) and the pseudo-commands (R77): text to
operands to commands. Nothing in the block runs it; it says what a line of assembly stands for. -/

namespace Sys2Proof.Machine

/-! ## Mnemonics -/

/-- The mnemonics of R70, in its order. -/
inductive Mnemonic where
  | nop | init | setSr | setMvol | clrStatus | read
  | setWave | setFreq | setPw | arbWrite | arbRead
  | setAttack | setDecay | setSustain | setRelease | trigAttack | trigRelease
  | setVol | sample
  | seqInit | seqStart | seqStop | seqTempo | seqCb | ntWrite | ntRead | tick
  deriving DecidableEq, Repr

/-- The pseudo-commands of R77. -/
inductive Pseudo where
  | noteOn | noteOff | setAdsr | setBpm
  deriving DecidableEq, Repr

/-- The mnemonics with their spelling (R70). -/
def mnemonicTable : List (String × Mnemonic) :=
  [("NOP", .nop), ("INIT", .init), ("SET_SR", .setSr), ("SET_MVOL", .setMvol),
    ("CLR_STATUS", .clrStatus), ("READ", .read), ("SET_WAVE", .setWave), ("SET_FREQ", .setFreq),
    ("SET_PW", .setPw), ("ARB_WRITE", .arbWrite), ("ARB_READ", .arbRead),
    ("SET_ATTACK", .setAttack), ("SET_DECAY", .setDecay), ("SET_SUSTAIN", .setSustain),
    ("SET_RELEASE", .setRelease), ("TRIG_ATTACK", .trigAttack), ("TRIG_RELEASE", .trigRelease),
    ("SET_VOL", .setVol), ("SAMPLE", .sample), ("SEQ_INIT", .seqInit), ("SEQ_START", .seqStart),
    ("SEQ_STOP", .seqStop), ("SEQ_TEMPO", .seqTempo), ("SEQ_CB", .seqCb), ("NT_WRITE", .ntWrite),
    ("NT_READ", .ntRead), ("TICK", .tick)]

/-- The pseudo-commands with their spelling (R77). -/
def pseudoTable : List (String × Pseudo) :=
  [("NOTE_ON", .noteOn), ("NOTE_OFF", .noteOff), ("SET_ADSR", .setAdsr), ("SET_BPM", .setBpm)]

/-- The waveform names of a mask with their bits (R28, R76). -/
def kindTable : List (String × BitVec 6) :=
  [("NOISE", 1), ("SAW", 2), ("TRI", 4), ("SQUARE", 8), ("SINE", 16), ("ARB", 32)]

/-- Look a spelling up. -/
def lookupText {α : Type} (table : List (String × α)) (text : List Char) : Option α :=
  (table.find? fun e => e.1.toList == text).map fun e => e.2

/-! ## Operands -/

/-- An operand as written (R76). -/
inductive Operand where
  /-- `vN`, a voice index. -/
  | voice (n : Nat)
  /-- A decimal number, which may be negative. -/
  | dec (x : Int)
  /-- A hexadecimal number, written with `0x`. -/
  | hex (n : Nat)
  /-- Waveform names joined by `|`. -/
  | kinds (mask : BitVec 6)
  deriving DecidableEq, Repr

/-- The value of a digit in base `b`; hexadecimal digits in either case (DESIGN CHOICE, log 13). -/
def digitValue (b : Nat) (c : Char) : Option Nat :=
  let n := c.toNat
  let d :=
    if 48 ≤ n ∧ n ≤ 57 then n - 48
    else if 65 ≤ n ∧ n ≤ 70 then n - 55
    else if 97 ≤ n ∧ n ≤ 102 then n - 87
    else b
  if d < b then some d else none

/-- Read digits in base `b`, most significant first, onto `acc`. -/
def readDigits (b : Nat) : List Char → Nat → Option Nat
  | [], acc => some acc
  | c :: cs, acc =>
    match digitValue b c with
    | some d => readDigits b cs (acc * b + d)
    | none => none

/-- A nonempty run of digits in base `b`; leading zeros are accepted (DESIGN CHOICE, log 13). -/
def readNat (b : Nat) (cs : List Char) : Option Nat := if cs = [] then none else readDigits b cs 0

/-- Split at every `sep`; the parts keep their order. -/
def splitAtChar (sep : Char) : List Char → List (List Char)
  | [] => [[]]
  | c :: cs =>
    match splitAtChar sep cs with
    | [] => [[c]]
    | part :: parts => if c = sep then [] :: part :: parts else (c :: part) :: parts

/-- Drop the spaces at the front. -/
def dropSpaces : List Char → List Char
  | [] => []
  | c :: cs => if c = ' ' then dropSpaces cs else c :: cs

/-- Drop the spaces at both ends. That spaces around an operand mean nothing, and that no other character
is blank, is a DESIGN CHOICE (log 13). -/
def trimSpaces (cs : List Char) : List Char := (dropSpaces (dropSpaces cs).reverse).reverse

/-- The OR of the waveform names in a `|`-joined list; `none` if a name is unknown (R76).
Any order and a repeated name are accepted, and spaces around `|` (DESIGN CHOICE, log 13). -/
def readKinds : List (List Char) → Option (BitVec 6)
  | [] => some 0
  | part :: parts =>
    match lookupText kindTable (trimSpaces part), readKinds parts with
    | some bit, some rest => some (bit ||| rest)
    | _, _ => none

/-- Read one operand (R76). A minus sign before a decimal is read here for every operand; which operands it
may stand in is `asUnsigned` and `asSigned16`. `-0` is read as the decimal 0 (DESIGN CHOICE, log 13). -/
def readOperand (text : List Char) : Option Operand :=
  match text with
  | 'v' :: digits => (readNat 10 digits).map .voice
  | '0' :: 'x' :: digits => (readNat 16 digits).map .hex
  | '-' :: digits => (readNat 10 digits).map fun n => .dec (-(n : Int))
  | _ =>
    match readNat 10 text with
    | some n => some (.dec n)
    | none => (readKinds (splitAtChar '|' text)).map .kinds

/-- A voice operand, if it fits VF (R76). -/
def asVoice : Operand → Option Byte
  | .voice n => if n < 256 then some (BitVec.ofNat 8 n) else none
  | .dec _ | .hex _ | .kinds _ => none

/-- An unsigned number, if it fits a field of `w` bits (R76). A negative number never fits. `-0`, a case R76
does not name, is the number 0 and fits every field (DESIGN CHOICE, log 13). -/
def asUnsigned (w : Nat) : Operand → Option (BitVec w)
  | .dec x => if 0 ≤ x ∧ x.toNat < 2 ^ w then some (BitVec.ofNat w x.toNat) else none
  | .hex n => if n < 2 ^ w then some (BitVec.ofNat w n) else none
  | .voice _ | .kinds _ => none

/-- A `value`: a signed decimal -32768..32767 (R76), so no hexadecimal number. -/
def asSigned16 : Operand → Option Half
  | .dec x => if -32768 ≤ x ∧ x ≤ 32767 then some (BitVec.ofInt 16 x) else none
  | .hex _ | .voice _ | .kinds _ => none

/-- A `loop` or `en`: 0 or 1 (R76), in any spelling of the number (DESIGN CHOICE, log 13). -/
def asFlag (o : Operand) : Option Bool := (asUnsigned 1 o).map fun b => b == 1

/-- A `mask`: a number or names (R76). -/
def asMask : Operand → Option (BitVec 6)
  | .kinds m => some m
  | .dec x => asUnsigned 6 (.dec x)
  | .hex n => asUnsigned 6 (.hex n)
  | .voice _ => none

/-- The selectors 0x10..0x1F, which READ writes with a voice (R76). -/
def selTakesVoice (sel : Half) : Bool := decide (0x10 ≤ sel.toNat ∧ sel.toNat ≤ 0x1F)

/-- Keep a value if a condition holds. -/
def onlyIf {α : Type} (c : Bool) (a : α) : Option α := if c then some a else none

/-! ## Assembling -/

/-- A form with no operand. -/
def form0 {α : Type} (a : α) : List Operand → Option α
  | [] => some a
  | _ :: _ => none

/-- A form with one operand. -/
def form1 {α : Type} (f : Operand → Option α) : List Operand → Option α
  | [a] => f a
  | _ => none

/-- A form with two operands. -/
def form2 {α : Type} (f : Operand → Operand → Option α) : List Operand → Option α
  | [a, b] => f a b
  | _ => none

/-- A form with three operands. -/
def form3 {α : Type} (f : Operand → Operand → Operand → Option α) : List Operand → Option α
  | [a, b, c] => f a b c
  | _ => none

/-- A form with a voice and a number of `w` bits. -/
def voiceNumber (w : Nat) (f : Byte → BitVec w → Instr) : List Operand → Option Instr :=
  form2 fun v x => do some (f (← asVoice v) (← asUnsigned w x))

/-- READ's two forms: a selector alone, or a voice and one of the selectors 0x10..0x1F (R76). An undefined
selector is written alone (DESIGN CHOICE, log 13). -/
def assembleRead : List Operand → Option Instr
  | [sel] => do
    let x ← asUnsigned 16 sel
    onlyIf (!selTakesVoice x) (.read 0 x)
  | [v, sel] => do
    let y ← asVoice v
    let x ← asUnsigned 16 sel
    onlyIf (selTakesVoice x) (.read y x)
  | _ => none

/-- A mnemonic with its operands, in the order VF, IMM, ARG; any other shape or a literal that does not
fit its field is refused (R76). -/
def assemble (m : Mnemonic) : List Operand → Option Instr :=
  match m with
  | .nop => form0 .nop
  | .init => form2 fun n sr => do some (.init (← asUnsigned 16 n) (← asUnsigned 32 sr))
  | .setSr => form1 fun sr => do some (.setSr (← asUnsigned 32 sr))
  | .setMvol => form1 fun pct => do some (.setMvol (← asUnsigned 16 pct))
  | .clrStatus => form0 .clrStatus
  | .read => assembleRead
  | .setWave => form2 fun v k => do some (.setWave (← asVoice v) (← asMask k))
  | .setFreq => voiceNumber 16 .setFreq
  | .setPw => voiceNumber 16 .setPw
  | .arbWrite => form3 fun v x i => do
    some (.arbWrite (← asVoice v) (← asSigned16 x) (← asUnsigned 32 i))
  | .arbRead => voiceNumber 32 .arbRead
  | .setAttack => voiceNumber 16 .setAttack
  | .setDecay => voiceNumber 16 .setDecay
  | .setSustain => voiceNumber 16 .setSustain
  | .setRelease => voiceNumber 16 .setRelease
  | .trigAttack => form1 fun v => do some (.trigAttack (← asVoice v))
  | .trigRelease => form1 fun v => do some (.trigRelease (← asVoice v))
  | .setVol => voiceNumber 8 .setVol
  | .sample => form0 .sample
  | .seqInit => form3 fun n len base => do
    some (.seqInit (← asUnsigned 8 n) (← asUnsigned 16 len) (← asUnsigned 32 base))
  | .seqStart => form2 fun loop now => do some (.seqStart (← asFlag loop) (← asUnsigned 32 now))
  | .seqStop => form0 .seqStop
  | .seqTempo => form1 fun bpm => do some (.seqTempo (← asUnsigned 16 bpm))
  | .seqCb => form1 fun en => do some (.seqCb (← asFlag en))
  | .ntWrite => form2 fun x a => do some (.ntWrite (← asSigned16 x) (← asUnsigned 32 a))
  | .ntRead => form1 fun a => do some (.ntRead (← asUnsigned 32 a))
  | .tick => form1 fun now => do some (.tick (← asUnsigned 32 now))

/-- SET_ADSR's five operands (R77). -/
def expandAdsr : List Operand → Option (List Instr)
  | [v, a, d, s, r] => do
    some [← assemble .setAttack [v, a], ← assemble .setDecay [v, d],
      ← assemble .setSustain [v, s], ← assemble .setRelease [v, r]]
  | _ => none

/-- The commands a pseudo-command stands for, issued in order and not atomic as a group (R77). -/
def expandPseudo (m : Pseudo) : List Operand → Option (List Instr) :=
  match m with
  | .noteOn => form2 fun v hz => do
    some [← assemble .setFreq [v, hz], ← assemble .trigAttack [v]]
  | .noteOff => form1 fun v => do some [← assemble .trigRelease [v]]
  | .setAdsr => expandAdsr
  | .setBpm => form1 fun bpm => do some [← assemble .seqTempo [bpm]]

/-- Read every operand of a list. -/
def readOperands : List (List Char) → Option (List Operand)
  | [] => some []
  | t :: ts =>
    match readOperand (trimSpaces t), readOperands ts with
    | some o, some os => some (o :: os)
    | _, _ => none

/-- Cut a line at its first space: the mnemonic and the operand text (DESIGN CHOICE, log 13). -/
def cutWord : List Char → List Char × List Char
  | [] => ([], [])
  | c :: cs => if c = ' ' then ([], cs) else (c :: (cutWord cs).1, (cutWord cs).2)

/-- The operand texts of a line: none, or parts separated by commas (R76). -/
def operandTexts (text : List Char) : List (List Char) :=
  if trimSpaces text = [] then [] else splitAtChar ',' text

/-- One line of assembly: the commands it stands for, or `none` where an assembler refuses it (R76, R77). -/
def assembleLine (line : String) : Option (List Instr) :=
  let parts := cutWord (trimSpaces line.toList)
  match readOperands (operandTexts parts.2) with
  | none => none
  | some ops =>
    match lookupText mnemonicTable parts.1 with
    | some m => (assemble m ops).map fun i => [i]
    | none =>
      match lookupText pseudoTable parts.1 with
      | some p => expandPseudo p ops
      | none => none

/-- The words a line of assembly stands for (R67, R76). -/
def assembleWords (line : String) : Option (List Transfer) :=
  (assembleLine line).map fun is => is.map encode

/-! ## Writing a command out -/

/-- A command's mnemonic (R70). -/
def mnemonicOf : Instr → Mnemonic
  | .nop => .nop
  | .init _ _ => .init
  | .setSr _ => .setSr
  | .setMvol _ => .setMvol
  | .clrStatus => .clrStatus
  | .read _ _ => .read
  | .setWave _ _ => .setWave
  | .setFreq _ _ => .setFreq
  | .setPw _ _ => .setPw
  | .arbWrite _ _ _ => .arbWrite
  | .arbRead _ _ => .arbRead
  | .setAttack _ _ => .setAttack
  | .setDecay _ _ => .setDecay
  | .setSustain _ _ => .setSustain
  | .setRelease _ _ => .setRelease
  | .trigAttack _ => .trigAttack
  | .trigRelease _ => .trigRelease
  | .setVol _ _ => .setVol
  | .sample => .sample
  | .seqInit _ _ _ => .seqInit
  | .seqStart _ _ => .seqStart
  | .seqStop => .seqStop
  | .seqTempo _ => .seqTempo
  | .seqCb _ => .seqCb
  | .ntWrite _ _ => .ntWrite
  | .ntRead _ => .ntRead
  | .tick _ => .tick

/-- A command's operands as the assembly form writes them (R76). -/
def operandsOf : Instr → List Operand
  | .nop | .clrStatus | .sample | .seqStop => []
  | .init n sr => [.dec n.toNat, .dec sr.toNat]
  | .setSr sr => [.dec sr.toNat]
  | .setMvol pct => [.dec pct.toNat]
  | .read v sel => if selTakesVoice sel then [.voice v.toNat, .hex sel.toNat] else [.hex sel.toNat]
  | .setWave v mask => [.voice v.toNat, .kinds mask]
  | .setFreq v hz => [.voice v.toNat, .dec hz.toNat]
  | .setPw v pw => [.voice v.toNat, .dec pw.toNat]
  | .arbWrite v x i => [.voice v.toNat, .dec x.toInt, .dec i.toNat]
  | .arbRead v i => [.voice v.toNat, .dec i.toNat]
  | .setAttack v ms => [.voice v.toNat, .dec ms.toNat]
  | .setDecay v ms => [.voice v.toNat, .dec ms.toNat]
  | .setSustain v lvl => [.voice v.toNat, .dec lvl.toNat]
  | .setRelease v ms => [.voice v.toNat, .dec ms.toNat]
  | .trigAttack v => [.voice v.toNat]
  | .trigRelease v => [.voice v.toNat]
  | .setVol v vol => [.voice v.toNat, .dec vol.toNat]
  | .seqInit n len base => [.dec n.toNat, .dec len.toNat, .dec base.toNat]
  | .seqStart loop now => [.dec (loop.toNat : Nat), .dec now.toNat]
  | .seqTempo bpm => [.dec bpm.toNat]
  | .seqCb en => [.dec (en.toNat : Nat)]
  | .ntWrite x a => [.dec x.toInt, .dec a.toNat]
  | .ntRead a => [.dec a.toNat]
  | .tick now => [.dec now.toNat]

end Sys2Proof.Machine
end

