-- ==== Sys2Proof/Safety.lean ====
section
/-! DEFINITION. What counts as a safe run: the invariants of spec/10_state.md R46, which every state of a
run from reset meets, in a form that one step preserves. -/

namespace Sys2Proof.Machine

/-- A timed phase is in progress: the counts of R46 (3), and R130's bound in a form that one tick keeps:
the value the remaining frames would lead to, at the present step, stays in range. -/
abbrev timedOk (x : Voice) : Prop :=
  1 ≤ x.envTarget.toNat ∧ x.envElapsed.toNat < x.envTarget.toNat ∧
    0 ≤ (x.envValue.toNat : Int) + x.envStep.toInt * ((x.envTarget.toNat : Int) - x.envElapsed.toNat) ∧
    (x.envValue.toNat : Int) + x.envStep.toInt * ((x.envTarget.toNat : Int) - x.envElapsed.toNat) ≤ envOne

/-- The envelope's part of the invariant, R46 (1) to (4), and the bound of R37 on the step. -/
abbrev envInv (x : Voice) : Prop :=
  x.envValue.toNat ≤ envOne ∧
    x.envStep.toInt.natAbs ≤ envOne ∧
    (x.envState = .off → x.envValue = 0 ∧ x.envStep = 0 ∧ x.envTarget = 0) ∧
    (x.envState = .sustain → x.envStep = 0 ∧ x.envTarget = 0) ∧
    (x.envState = .attack ∨ x.envState = .decay ∨ x.envState = .release → timedOk x)

/-- One voice's part of the invariant: R46 (1) to (6), and its buffer in canonical form. -/
abbrev voiceInv (p : Params) (x : Voice) : Prop :=
  envInv x ∧ x.sustain.toNat ≤ 256 ∧ x.decayLevel.toNat ≤ 256 ∧ x.arbRd.toNat ≤ p.arbLen ∧
    Memory.wf x.arb ∧ Memory.within x.arb p.arbLen

/-- The master registers' part: R22, R23, R46 (6) and (7), and ERRCODE is NONE exactly while ERR is clear
(R27, R164). -/
abbrev masterInv (p : Params) (g : Master) : Prop :=
  g.nva.toNat ≤ p.nvMax ∧ g.sr ≠ 0 ∧ g.mvol.toNat ≤ 100 ∧ g.noise ≠ 0 ∧
    (g.err = false ↔ g.errcode = .none)

/-- The sequencer's part: R42, and R46 (8), whose last clause holds while stopped too. -/
abbrev seqInv (p : Params) (nva : BitVec 7) (q : Sequencer) : Prop :=
  1 ≤ q.beatMs.toNat ∧ q.beatMs.toNat ≤ 15000 ∧
    q.base.toNat + q.voices.toNat * q.len.toNat ≤ p.ntWords ∧
    (q.playing = true → 1 ≤ q.len.toNat ∧ 1 ≤ q.voices.toNat ∧ q.voices.toNat ≤ nva.toNat)

/-- The invariant of a run (R46), with the parameters legal (R6) and the memories canonical (R50). -/
abbrev Inv (s : State) : Prop :=
  s.params.legal ∧ s.voices.length = s.params.nvMax ∧ masterInv s.params s.g ∧
    (∀ x ∈ s.voices, voiceInv s.params x) ∧ seqInv s.params s.g.nva s.seq ∧
    Memory.wf s.nt ∧ Memory.within s.nt s.params.ntWords

/-- The outcome is a next state in which the invariant holds: no fault and no refusal. -/
def Safe (r : Result) : Prop := ∃ t, r = .next t ∧ Inv t

end Sys2Proof.Machine
end

