-- ==== Sys2Proof/Certificates/Slice0/Obligations.lean ====
section
/-! DEFINITION. What is claimed of the model, stated from the numbered rules of spec/. The helpers of
`Sys2Proof.Claim` write the spec's tables and pseudocode out again, as updates of whole records, and use
none of the machine's own update functions: an equation with such a record on its right says what changes
and that nothing else does. -/

namespace Sys2Proof.Claim

open Sys2Proof.Machine

/-! ## Responses and rejections -/

/-- `s` with the response RDATA = `x` and no event (R8, R14). -/
def answering (x : Word) (s : State) : State :=
  { s with port := { s.port with rdata := x, events := [] } }

/-- `s` after a command rejected with `c` (R163). -/
def rejected (c : ErrCode) (s : State) : State :=
  { s with
    g := { s.g with err := true, errcode := if s.g.err = false then c else s.g.errcode }
    port := { s.port with rdata := 0, events := [] } }

/-- Opcode `op` decodes to the command `i` of the fields VF, IMM, ARG where `fieldsOk` says that its
reserved fields are zero, and is rejected with RSVD everywhere else (R70, R72). -/
def encodes (op : Byte) (fieldsOk : Byte → Half → Word → Bool) (i : Byte → Half → Word → Instr) : Prop :=
  ∀ cmd arg : Word, opField cmd = op →
    decode cmd arg =
      if fieldsOk (vfField cmd) (immField cmd) arg then .ok (i (vfField cmd) (immField cmd) arg)
      else .error .rsvd

/-! ## Voice slots -/

/-- `s` with V[v] changed by `f` and nothing else. -/
def setSlot (v : Nat) (f : Voice → Voice) (s : State) : State :=
  { s with voices := s.voices.modify v f }

/-- A command `i v` changes V[v] by `f`, answers 0, and does nothing else; on a voice that is not active
it is rejected with BAD_VOICE (R69, R164). -/
def voiceSetter (i : Byte → Instr) (f : State → Voice → Voice) : Prop :=
  ∀ (v : Byte) (s : State),
    (v.toNat < s.g.nva.toNat → exec (i v) s = .next (setSlot v.toNat (f s) (answering 0 s))) ∧
      (s.g.nva.toNat ≤ v.toNat → exec (i v) s = .next (rejected .badVoice s))

/-- The values of `voice_defaults` (R47). `lvl` is the value of the model's own field `decayLevel`
(log 5), which R47 does not list. -/
def defaultVoice (arbLen : Nat) (lvl : BitVec 9) : Voice :=
  { wave := 0, freq := 0, vol := 0, pw := 0x8000
    attack := 0, decay := 0, release := 0, sustain := 256
    phase := 0
    envState := .off, envValue := 0, envStep := 0, envElapsed := 0, envTarget := 0
    noiseSample := 0, arbRd := BitVec.ofNat 9 arbLen, arb := [], decayLevel := lvl }

/-- `frames(ms)` (R116). -/
def frameCount (sr : BitVec 20) (ms : Half) : Nat := max 1 (ms.toNat * sr.toNat / 1000)

/-- `(target - E) quot N` (R122). -/
def phaseStep (target e n : Nat) : Int := ((target : Int) - (e : Int)).tdiv (n : Int)

/-- `enter(v, st, ms)` with target level `target` (R122). -/
def entered (st : EnvState) (target : Nat) (ms : Half) (sr : BitVec 20) (x : Voice) : Voice :=
  { x with
    envState := st
    envElapsed := 0
    envTarget := BitVec.ofNat 32 (frameCount sr ms)
    envStep := BitVec.ofInt 32 (phaseStep target x.envValue.toNat (frameCount sr ms)) }

/-- `trigger_attack` (R122). -/
def attacked (sr : BitVec 20) (x : Voice) : Voice := entered .attack (2 ^ 30) x.attack sr x

/-- `trigger_release` (R124). -/
def released (sr : BitVec 20) (x : Voice) : Voice := entered .release 0 x.release sr x

/-- The body of `silence_all`'s loop (R144). -/
def silenceBody (s : State) (v : Nat) : State :=
  setSlot v (fun x =>
    { x with envState := .off, envValue := 0, envStep := 0, envElapsed := 0, envTarget := 0 }) s

/-- `silence_all()`, voice by voice in ascending order (R144). -/
def silenced (s : State) : State := (List.range s.g.nva.toNat).foldl silenceBody s

/-! ## READ's selectors (R71, R86) -/

/-- The ERRCODE values (R164). -/
def errCodeNumber : ErrCode → Nat
  | .none => 0
  | .illegalOp => 1
  | .rsvd => 2
  | .badVoice => 3
  | .badValue => 4
  | .badState => 5

/-- The ENV_STATE codes (R35). -/
def envStateNumber : EnvState → Nat
  | .off => 0
  | .attack => 1
  | .decay => 2
  | .sustain => 3
  | .release => 4

/-- STATUS as a number, bit by bit (R43). -/
def statusNumber (s : State) : Nat :=
  s.seq.playing.toNat + 2 * s.seq.loop.toNat + 4 * s.g.done.toNat + 8 * s.g.err.toNat +
    16 * s.seq.cbEn.toNat + 32 * s.seq.beatValid.toNat + 256 * errCodeNumber s.g.errcode

/-- What the global selectors return (R71, R86). -/
def globalReads (s : State) : List (Half × Word) :=
  [(0x00, BitVec.ofNat 32 (statusNumber s)), (0x01, BitVec.ofNat 32 s.g.sr.toNat),
    (0x02, BitVec.ofNat 32 s.g.mvol.toNat), (0x03, BitVec.ofNat 32 s.g.nva.toNat),
    (0x04, BitVec.ofNat 32 s.seq.len.toNat), (0x05, BitVec.ofNat 32 s.seq.voices.toNat),
    (0x06, BitVec.ofNat 32 s.seq.base.toNat), (0x07, BitVec.ofNat 32 s.seq.beatMs.toNat),
    (0x08, s.seq.start), (0x09, s.seq.last), (0x0A, s.g.noise)]

/-- What the voice selectors return for the voice `x` (R71, R86). -/
def voiceReads (x : Voice) : List (Half × Word) :=
  [(0x10, BitVec.ofNat 32 x.wave.toNat), (0x11, BitVec.ofNat 32 x.freq.toNat),
    (0x12, BitVec.ofNat 32 x.vol.toNat), (0x13, BitVec.ofNat 32 x.pw.toNat),
    (0x14, BitVec.ofNat 32 x.attack.toNat), (0x15, BitVec.ofNat 32 x.decay.toNat),
    (0x16, BitVec.ofNat 32 x.sustain.toNat), (0x17, BitVec.ofNat 32 x.release.toNat),
    (0x18, x.phase), (0x19, BitVec.ofNat 32 x.envValue.toNat), (0x1A, x.envStep),
    (0x1B, x.envElapsed), (0x1C, x.envTarget),
    (0x1D, BitVec.ofNat 32 (envStateNumber x.envState)),
    (0x1E, BitVec.ofInt 32 x.noiseSample.toInt), (0x1F, BitVec.ofNat 32 x.arbRd.toNat)]

/-! ## SAMPLE (R134) -/

/-- The shared state a voice's kinds see: the generator, the host's answers, the events so far. -/
def mixOf (s : State) : Mix :=
  { noise := s.g.noise, refills := s.port.refills, refillCount := s.port.refillCount
    events := s.port.events, acc := 0 }

/-- The body of SAMPLE's loop for voice `v`, on the whole state and the accumulator (R94, R95, R134). -/
def sampleBody (r : State × Int) (v : Nat) : State × Int :=
  match r.1.voices[v]? with
  | none => r
  | some x =>
    let s := r.1
    let t := x.phase.toNat + (x.freq.toNat * 2 ^ 32 / s.g.sr.toNat) % 2 ^ 32
    let y := { x with phase := BitVec.ofNat 32 t }
    if x.envState = .off then (setSlot v (fun _ => y) s, r.2)
    else
      let k := voiceRaw s.params v (decide (2 ^ 32 ≤ t)) y (mixOf s)
      let a : Int := k.2.2 * (x.envValue.toNat : Int) / 2 ^ 30
      let g : Int := a * (x.vol.toNat : Int) / 2 ^ 8
      (setSlot v (fun _ => envTick s.g.sr k.1)
        { s with
          g := { s.g with noise := k.2.1.noise }
          port := { s.port with
            refills := k.2.1.refills, refillCount := k.2.1.refillCount, events := k.2.1.events } },
        r.2 + g)

/-- SAMPLE's loop in ascending voice order, from an accumulator of 0 (R134). -/
def sampleFold (s : State) : State × Int :=
  (List.range s.g.nva.toNat).foldl sampleBody (answering 0 s, 0)

/-- `clamp(m, -32768, 32767)` of `m = (acc * MVOL) quot 100` (R137). -/
def clipped (acc : Int) (mvol : BitVec 7) : Int :=
  max (-32768) (min 32767 ((acc * (mvol.toNat : Int)).tdiv 100))

/-- The state SAMPLE leaves (R134): the loop's, with RDATA the clipped sample. -/
def sampled (s : State) : State :=
  let r := sampleFold s
  { r.1 with port := { r.1.port with rdata := BitVec.ofInt 32 (clipped r.2 s.g.mvol) } }

/-- What SAMPLE needs of a state to run: with an active voice the rate is not 0 (R23), and no read index
lies beyond its buffer (R40). Every state of a run is so (R46). -/
def sampleReady (s : State) : Prop :=
  (s.g.nva = 0 ∨ s.g.sr ≠ 0) ∧ ∀ x ∈ s.voices, x.arbRd.toNat ≤ s.params.arbLen

/-! ## TICK (R155, R156) -/

/-- `cur_beat(now)` (R145). -/
def beatAt (q : Sequencer) (now : Word) : Nat :=
  ((now.toNat + 2 ^ 32 - q.start.toNat) % 2 ^ 32) / q.beatMs.toNat

/-- The body of `dispatch(col)`'s loop for row `v` (R52, R155). -/
def dispatchBody (col : Nat) (s : State) (v : Nat) : State :=
  let n := Memory.read s.nt (s.seq.base.toNat + v * s.seq.len.toNat + col)
  if 0 < n.toInt then setSlot v (fun x => attacked s.g.sr { x with freq := n }) s
  else if n.toInt = -1 then setSlot v (fun x => released s.g.sr x) s
  else s

/-- `dispatch(col)`, row by row in ascending order (R155). -/
def dispatched (col : Nat) (s : State) : State :=
  (List.range s.seq.voices.toNat).foldl (dispatchBody col) s

/-- A beat is due at `now`: the sequencer plays and the beat differs from the last dispatched one. -/
def beatDue (now : Word) (s : State) : Prop :=
  s.seq.playing = true ∧ 1 ≤ s.seq.beatMs.toNat ∧
    (s.seq.beatValid = false ∨ beatAt s.seq now ≠ s.seq.last.toNat)

/-- The bound table lies in the note table (R46 (8)). -/
def tableFits (s : State) : Prop :=
  1 ≤ s.seq.len.toNat ∧
    s.seq.base.toNat + s.seq.voices.toNat * s.seq.len.toNat ≤ s.params.ntWords

/-! ## Writers (R49) -/

/-- The command is one of those named. -/
def oneOf (names : List Mnemonic) (i : Instr) : Prop := mnemonicOf i ∈ names

/-- The rows of R49 for one voice slot, before and after a command. -/
def voiceWriters (i : Instr) (x y : Voice) : Prop :=
  (oneOf [.setWave, .init] i ∨ y.wave = x.wave) ∧
    (oneOf [.setFreq, .tick, .init] i ∨ y.freq = x.freq) ∧
    (oneOf [.setVol, .init] i ∨ y.vol = x.vol) ∧ (oneOf [.setPw, .init] i ∨ y.pw = x.pw) ∧
    (oneOf [.setAttack, .init] i ∨ y.attack = x.attack) ∧
    (oneOf [.setDecay, .init] i ∨ y.decay = x.decay) ∧
    (oneOf [.setSustain, .init] i ∨ y.sustain = x.sustain) ∧
    (oneOf [.setRelease, .init] i ∨ y.release = x.release) ∧
    (oneOf [.sample, .init] i ∨
      y.phase = x.phase ∧ y.noiseSample = x.noiseSample ∧ y.arbRd = x.arbRd) ∧
    (oneOf [.trigAttack, .trigRelease, .sample, .tick, .seqStop, .init] i ∨
      y.envState = x.envState ∧ y.envValue = x.envValue ∧ y.envStep = x.envStep ∧
        y.envElapsed = x.envElapsed ∧ y.envTarget = x.envTarget) ∧
    (oneOf [.arbWrite, .sample, .init] i ∨ y.arb = x.arb)

/-- Refill events name voices in strictly ascending order, and EV_DONE stands alone (R167). -/
def eventsOrdered (es : List Event) : Prop :=
  es = [.done] ∨ ∃ vs : List Nat, es = vs.map Event.refill ∧ vs.Pairwise (· < ·)

end Sys2Proof.Claim

section

open Sys2Proof Sys2Proof.Machine Sys2Proof.Claim

/-! ## Encoding -/

/-- R67, R70, R72: decoding the encoding of any command gives it back, whatever its operands. -/
def Obligations.EncodedCommandDecodesToItself : Prop :=
  ∀ i : Instr, i.wf = true → decode (encode i).1 (encode i).2 = .ok i

/-- R70, R72: a pair of words that decodes is the encoding of the command it decodes to. -/
def Obligations.DecodedCommandEncodesToItsWords : Prop :=
  ∀ (cmd arg : Word) (i : Instr), decode cmd arg = .ok i → i.wf = true ∧ encode i = (cmd, arg)

/-- R73: exactly the opcodes in the five ranges are illegal, whatever the other fields hold. -/
def Obligations.IllegalOpcodesAreTheListedRanges : Prop :=
  ∀ cmd arg : Word, decode cmd arg = .error .illegalOp ↔
    (0x06 ≤ (opField cmd).toNat ∧ (opField cmd).toNat ≤ 0x0F ∨
      0x15 ≤ (opField cmd).toNat ∧ (opField cmd).toNat ≤ 0x1F ∨
      0x26 ≤ (opField cmd).toNat ∧ (opField cmd).toNat ≤ 0x2F ∨
      0x32 ≤ (opField cmd).toNat ∧ (opField cmd).toNat ≤ 0x3F ∨
      0x48 ≤ (opField cmd).toNat)

/-- R78: the encoding examples of the spec: the text assembles to the words, and the words decode. -/
def Obligations.EncodingExamplesDecode : Prop :=
  (assembleWords "SET_FREQ v1, 440" = some [(0x110101B8, 0)] ∧
    decode 0x110101B8 0 = .ok (.setFreq 1 440)) ∧
  (assembleWords "INIT 4, 44100" = some [(0x01000004, 0x0000AC44)] ∧
    decode 0x01000004 0x0000AC44 = .ok (.init 4 44100)) ∧
  (assembleWords "SEQ_START 1, 0" = some [(0x41000001, 0)] ∧
    decode 0x41000001 0 = .ok (.seqStart true 0)) ∧
  (assembleWords "TICK 400" = some [(0x47000000, 0x00000190)] ∧
    decode 0x47000000 0x00000190 = .ok (.tick 400)) ∧
  (assembleWords "NT_WRITE -1, 1" = some [(0x4500FFFF, 1)] ∧
    decode 0x4500FFFF 1 = .ok (.ntWrite 0xFFFF 1)) ∧
  (assembleWords "SET_WAVE v0, SAW|SQUARE" = some [(0x1000000A, 0)] ∧
    decode 0x1000000A 0 = .ok (.setWave 0 0x0A))

/-- R54, R68: a transfer is eight bytes, each word least significant byte first, and taking one from a link
that carries them and any further bytes gives the words those bytes are; fewer than eight bytes are no
transfer. That CMD comes before ARG is the model's reading (log 9). -/
def Obligations.TransferSurvivesItsBytes : Prop :=
  (∀ cmd arg : Word,
    transferBytes (cmd, arg) =
      [BitVec.ofNat 8 cmd.toNat, BitVec.ofNat 8 (cmd.toNat / 2 ^ 8),
        BitVec.ofNat 8 (cmd.toNat / 2 ^ 16), BitVec.ofNat 8 (cmd.toNat / 2 ^ 24),
        BitVec.ofNat 8 arg.toNat, BitVec.ofNat 8 (arg.toNat / 2 ^ 8),
        BitVec.ofNat 8 (arg.toNat / 2 ^ 16), BitVec.ofNat 8 (arg.toNat / 2 ^ 24)]) ∧
    (∀ (c0 c1 c2 c3 a0 a1 a2 a3 : Byte) (rest : List Byte),
      takeTransfer (c0 :: c1 :: c2 :: c3 :: a0 :: a1 :: a2 :: a3 :: rest) =
        some ((BitVec.ofNat 32 (c0.toNat + c1.toNat * 2 ^ 8 + c2.toNat * 2 ^ 16 + c3.toNat * 2 ^ 24),
          BitVec.ofNat 32 (a0.toNat + a1.toNat * 2 ^ 8 + a2.toNat * 2 ^ 16 + a3.toNat * 2 ^ 24)), rest)) ∧
    (∀ bytes : List Byte, bytes.length < 8 → takeTransfer bytes = none) ∧
    ∀ (t : Transfer) (rest : List Byte), takeTransfer (transferBytes t ++ rest) = some (t, rest)

/-- R76: assembling a command's written operands gives the command, for every command but a READ whose
selector is not 0x10..0x1F and whose voice field is not 0. Such a READ has no assembly form: up to 0x0F it is no
command (R72), and from 0x20 on R76 writes no voice. That a READ of an undefined selector, 0x0B..0x0F or from
0x20 on, is written without a voice is the model's choice (log 13). -/
def Obligations.WrittenOperandsAssembleToTheCommand : Prop :=
  ∀ i : Instr, (∀ v sel, i = .read v sel → selTakesVoice sel = false → v = 0) →
    assemble (mnemonicOf i) (operandsOf i) = some i

/-! ## The step -/

/-- R8, R79: a transfer that decodes to `i` is run as `i`, with the transfer taken from the port and
nothing else changed before. That presented transfers wait in a list is the model's choice (log 2). -/
def Obligations.StepRunsTheDecodedCommand : Prop :=
  ∀ (s : State) (cmd arg : Word) (rest : List HostInput) (i : Instr),
    s.params.legal → s.voices.length = s.params.nvMax →
    s.port.pending = .command cmd arg :: rest → decode cmd arg = .ok i →
    step s = exec i { s with port := { s.port with pending := rest } }

/-- R163: a transfer that does not decode changes the error fields and the response, nothing else (the
list it is taken from is the model's, log 2). -/
def Obligations.StepRejectsAnUndecodableTransfer : Prop :=
  ∀ (s : State) (cmd arg : Word) (rest : List HostInput) (c : ErrCode),
    s.params.legal → s.voices.length = s.params.nvMax →
    s.port.pending = .command cmd arg :: rest → decode cmd arg = .error c →
    step s = .next (rejected c { s with port := { s.port with pending := rest } })

/-- R6: an instance whose parameters lie outside the legal ranges is refused (log 1). -/
def Obligations.IllegalInstanceIsRefused : Prop :=
  ∀ s : State,
    (s.params.nvMax < 1 ∨ 64 < s.params.nvMax ∨ s.params.arbLen < 1 ∨ 256 < s.params.arbLen ∨
      s.params.ntWords < 1 ∨ 65536 < s.params.ntWords ∨ s.params.noiseSeed.toNat < 1) →
    step s = .refused .illegalInstance

/-- R47, R48, R181: the hardware reset puts every piece of the block's state into its reset value; the
instance stays, and so does what the host has presented. That RDATA and EVENTS are cleared is the model's
choice (log 10), and so is that the model's own field `decayLevel` takes one value in every slot (log 5). -/
def Obligations.HardwareResetRestoresEveryRegister : Prop :=
  ∀ (s : State) (rest : List HostInput),
    s.params.legal → s.voices.length = s.params.nvMax → s.port.pending = .reset :: rest →
    ∃ lvl : BitVec 9, step s = .next
      { s with
        g := { nva := 0, sr := 44100, mvol := 100, noise := s.params.noiseSeed, done := false
               err := false, errcode := .none }
        voices := List.replicate s.params.nvMax (defaultVoice s.params.arbLen lvl)
        seq := { playing := false, loop := false, cbEn := false, len := 0, voices := 0, base := 0
                 beatMs := 125, start := 0, last := 0, beatValid := false }
        nt := []
        port := { s.port with pending := rest, rdata := 0, events := [] } }

/-- R47, R48: the reset value of every piece of state, for every instance. That the model's own field
`decayLevel` has one value `lvl` in every slot is the model's choice (log 5). -/
def Obligations.ResetHasTheTabledValues : Prop :=
  ∃ lvl : BitVec 9, ∀ p : Params,
    (State.resetOf p).g = { nva := 0, sr := 44100, mvol := 100, noise := p.noiseSeed, done := false
                            err := false, errcode := .none } ∧
      (State.resetOf p).voices.length = p.nvMax ∧
      (∀ v, v < p.nvMax → (State.resetOf p).voices[v]? = some (defaultVoice p.arbLen lvl)) ∧
      (∀ i, Memory.read (defaultVoice p.arbLen lvl).arb i = 0) ∧
      (State.resetOf p).seq =
        { playing := false, loop := false, cbEn := false, len := 0, voices := 0, base := 0
          beatMs := 125, start := 0, last := 0, beatValid := false } ∧
      ∀ a, Memory.read (State.resetOf p).nt a = 0

/-- R46: the machine right after reset meets the invariant. That it is the instance with the spec's
example parameters is the model's choice (log 1). -/
def Obligations.ResetMeetsTheInvariant : Prop :=
  State.reset = State.resetOf
      { nvMax := 8, arbLen := 32, ntWords := 4096, noiseSeed := 0x92D68CA2, portMap := 0 } ∧
    Inv State.reset

/-- R46, R166, R179: from every state that meets the invariant, not only on runs from reset, a step
answers a next state, never a fault and never a refusal, and that state meets the invariant. -/
def Obligations.EveryStepKeepsTheInvariant : Prop :=
  ∀ s : State, Inv s → ∃ t, step s = .next t ∧ Inv t

/-! ## System and master commands -/

/-- R80: NOP. -/
def Obligations.NopAnswersZero : Prop :=
  encodes 0x00 (fun vf imm arg => vf = 0 ∧ imm = 0 ∧ arg = 0) (fun _ _ _ => .nop) ∧
    ∀ s : State, exec .nop s = .next (answering 0 s)

/-- R81: INIT stops the sequencer, defaults every slot and sets NVA and SR; the rest is kept. That the
model's own field `decayLevel` takes one value `lvl` in every slot is the model's choice (log 5). -/
def Obligations.InitDefaultsEverySlot : Prop :=
  encodes 0x01 (fun vf _ _ => vf = 0) (fun _ imm arg => .init imm arg) ∧
    ∃ lvl : BitVec 9, ∀ (n : Half) (sr : Word) (s : State),
      (1 ≤ n.toNat → n.toNat ≤ s.params.nvMax → 1 ≤ sr.toNat → sr.toNat ≤ 0xFFFFF →
        exec (.init n sr) s = .next (answering 0
          { s with
            seq := { s.seq with playing := false, beatValid := false }
            voices := List.replicate s.params.nvMax (defaultVoice s.params.arbLen lvl)
            g := { s.g with nva := BitVec.ofNat 7 n.toNat, sr := BitVec.ofNat 20 sr.toNat } })) ∧
        (n.toNat = 0 ∨ s.params.nvMax < n.toNat ∨ sr.toNat = 0 ∨ 0xFFFFF < sr.toNat →
          exec (.init n sr) s = .next (rejected .badValue s))

/-- R82: SET_SR. -/
def Obligations.SetSrWritesTheRate : Prop :=
  encodes 0x02 (fun vf imm _ => vf = 0 ∧ imm = 0) (fun _ _ arg => .setSr arg) ∧
    ∀ (sr : Word) (s : State),
      (1 ≤ sr.toNat → sr.toNat ≤ 0xFFFFF →
        exec (.setSr sr) s =
          .next (answering 0 { s with g := { s.g with sr := BitVec.ofNat 20 sr.toNat } })) ∧
        (sr.toNat = 0 ∨ 0xFFFFF < sr.toNat → exec (.setSr sr) s = .next (rejected .badValue s))

/-- R83: SET_MVOL clamps to 100. -/
def Obligations.SetMvolClampsToOneHundred : Prop :=
  encodes 0x03 (fun vf _ arg => vf = 0 ∧ arg = 0) (fun _ imm _ => .setMvol imm) ∧
    ∀ (pct : Half) (s : State),
      exec (.setMvol pct) s = .next (answering 0
        { s with g := { s.g with mvol := BitVec.ofNat 7 (min pct.toNat 100) } })

/-- R84: CLR_STATUS. -/
def Obligations.ClrStatusClearsDoneAndErrors : Prop :=
  encodes 0x04 (fun vf imm arg => vf = 0 ∧ imm = 0 ∧ arg = 0) (fun _ _ _ => .clrStatus) ∧
    ∀ s : State, exec .clrStatus s = .next (answering 0
      { s with g := { s.g with done := false, err := false, errcode := .none } })

/-- R43, R71, R86, R164: READ of a global selector returns its register; READ of a voice selector that of
an active voice, and of an inactive one it is BAD_VOICE; an undefined selector is BAD_VALUE. Nothing else
changes. (VF is reserved with a selector up to 0x0F: such a word does not decode.) -/
def Obligations.ReadReturnsEveryRegister : Prop :=
  encodes 0x05 (fun vf imm arg => arg = 0 ∧ (0x0F < imm.toNat ∨ vf = 0)) (fun vf imm _ => .read vf imm) ∧
    (∀ (v : Byte) (s : State), ∀ r ∈ globalReads s, exec (.read v r.1) s = .next (answering r.2 s)) ∧
    (∀ (v : Byte) (s : State) (x : Voice), v.toNat < s.g.nva.toNat → s.voices[v.toNat]? = some x →
      ∀ r ∈ voiceReads x, exec (.read v r.1) s = .next (answering r.2 s)) ∧
    (∀ (v : Byte) (sel : Half) (s : State), s.g.nva.toNat ≤ v.toNat → 0x10 ≤ sel.toNat →
      sel.toNat ≤ 0x1F → exec (.read v sel) s = .next (rejected .badVoice s)) ∧
    ∀ (v : Byte) (sel : Half) (s : State),
      (0x0B ≤ sel.toNat ∧ sel.toNat ≤ 0x0F ∨ 0x20 ≤ sel.toNat) →
      exec (.read v sel) s = .next (rejected .badValue s)

/-! ## Oscillator, envelope and volume settings -/

/-- R104: SET_WAVE. -/
def Obligations.SetWaveWritesTheMask : Prop :=
  encodes 0x10 (fun _ imm arg => imm.toNat < 64 ∧ arg = 0)
    (fun vf imm _ => .setWave vf (BitVec.ofNat 6 imm.toNat)) ∧
    ∀ mask : BitVec 6, voiceSetter (fun v => .setWave v mask) (fun _ x => { x with wave := mask })

/-- R105, R106: SET_FREQ and SET_PW. -/
def Obligations.SetFreqAndSetPwWriteTheirRegisters : Prop :=
  encodes 0x11 (fun _ _ arg => arg = 0) (fun vf imm _ => .setFreq vf imm) ∧
    encodes 0x12 (fun _ _ arg => arg = 0) (fun vf imm _ => .setPw vf imm) ∧
    (∀ hz : Half, voiceSetter (fun v => .setFreq v hz) (fun _ x => { x with freq := hz })) ∧
    ∀ pw : Half, voiceSetter (fun v => .setPw v pw) (fun _ x => { x with pw := pw })

/-- R118, R119, R121: SET_ATTACK, SET_DECAY, SET_RELEASE. -/
def Obligations.DurationCommandsWriteTheirRegisters : Prop :=
  encodes 0x20 (fun _ _ arg => arg = 0) (fun vf imm _ => .setAttack vf imm) ∧
    encodes 0x21 (fun _ _ arg => arg = 0) (fun vf imm _ => .setDecay vf imm) ∧
    encodes 0x23 (fun _ _ arg => arg = 0) (fun vf imm _ => .setRelease vf imm) ∧
    ∀ ms : Half,
      voiceSetter (fun v => .setAttack v ms) (fun _ x => { x with attack := ms }) ∧
        voiceSetter (fun v => .setDecay v ms) (fun _ x => { x with decay := ms }) ∧
        voiceSetter (fun v => .setRelease v ms) (fun _ x => { x with release := ms })

/-- R120: SET_SUSTAIN clamps to 256. -/
def Obligations.SetSustainClampsToFullScale : Prop :=
  encodes 0x22 (fun _ _ arg => arg = 0) (fun vf imm _ => .setSustain vf imm) ∧
    ∀ lvl : Half, voiceSetter (fun v => .setSustain v lvl)
      (fun _ x => { x with sustain := BitVec.ofNat 9 (min lvl.toNat 256) })

/-- R133: SET_VOL. -/
def Obligations.SetVolWritesTheVolume : Prop :=
  encodes 0x30 (fun _ imm arg => imm.toNat < 256 ∧ arg = 0)
    (fun vf imm _ => .setVol vf (BitVec.ofNat 8 imm.toNat)) ∧
    ∀ vol : Byte, voiceSetter (fun v => .setVol v vol) (fun _ x => { x with vol := vol })

/-- R122, R123: TRIG_ATTACK enters ATTACK from the current value; ENV_VALUE and PHASE are kept. -/
def Obligations.TrigAttackEntersAttack : Prop :=
  encodes 0x24 (fun _ imm arg => imm = 0 ∧ arg = 0) (fun vf _ _ => .trigAttack vf) ∧
    voiceSetter .trigAttack (fun s x => attacked s.g.sr x)

/-- R124, R125: TRIG_RELEASE enters RELEASE from the current value, in every state. -/
def Obligations.TrigReleaseEntersRelease : Prop :=
  encodes 0x25 (fun _ imm arg => imm = 0 ∧ arg = 0) (fun vf _ _ => .trigRelease vf) ∧
    voiceSetter .trigRelease (fun s x => released s.g.sr x)

/-! ## Memories -/

/-- R107: ARB_WRITE stores one element of one voice's buffer; every other element of it reads as before,
and nothing else changes. `Memory.wf` is the model's canonical form (log 6). -/
def Obligations.ArbWriteStoresOneElement : Prop :=
  encodes 0x13 (fun _ _ _ => true) (fun vf imm arg => .arbWrite vf imm arg) ∧
    (∀ (v : Byte) (x : Half) (i : Word) (s : State) (y : Voice),
      v.toNat < s.g.nva.toNat → i.toNat < s.params.arbLen → s.voices[v.toNat]? = some y →
      Memory.wf y.arb →
      ∃ arb : Memory, exec (.arbWrite v x i) s =
          .next (setSlot v.toNat (fun z => { z with arb := arb }) (answering 0 s)) ∧
        Memory.wf arb ∧
        ∀ b, Memory.read arb b = if b = i.toNat then x else Memory.read y.arb b) ∧
    (∀ (v : Byte) (x : Half) (i : Word) (s : State), s.g.nva.toNat ≤ v.toNat →
      exec (.arbWrite v x i) s = .next (rejected .badVoice s)) ∧
    ∀ (v : Byte) (x : Half) (i : Word) (s : State), v.toNat < s.g.nva.toNat →
      s.params.arbLen ≤ i.toNat → exec (.arbWrite v x i) s = .next (rejected .badValue s)

/-- R108: ARB_READ returns one element sign-extended and changes nothing. -/
def Obligations.ArbReadReturnsOneElement : Prop :=
  encodes 0x14 (fun _ imm _ => imm = 0) (fun vf _ arg => .arbRead vf arg) ∧
    (∀ (v : Byte) (i : Word) (s : State) (y : Voice),
      v.toNat < s.g.nva.toNat → i.toNat < s.params.arbLen → s.voices[v.toNat]? = some y →
      exec (.arbRead v i) s =
        .next (answering (BitVec.ofInt 32 (Memory.read y.arb i.toNat).toInt) s)) ∧
    (∀ (v : Byte) (i : Word) (s : State), s.g.nva.toNat ≤ v.toNat →
      exec (.arbRead v i) s = .next (rejected .badVoice s)) ∧
    ∀ (v : Byte) (i : Word) (s : State), v.toNat < s.g.nva.toNat →
      s.params.arbLen ≤ i.toNat → exec (.arbRead v i) s = .next (rejected .badValue s)

/-- R153: NT_WRITE stores one entry; every other entry reads as before, and nothing else changes.
`Memory.wf` is the model's canonical form (log 6). -/
def Obligations.NtWriteStoresOneEntry : Prop :=
  encodes 0x45 (fun vf _ _ => vf = 0) (fun _ imm arg => .ntWrite imm arg) ∧
    (∀ (x : Half) (a : Word) (s : State), a.toNat < s.params.ntWords → Memory.wf s.nt →
      ∃ nt : Memory, exec (.ntWrite x a) s = .next (answering 0 { s with nt := nt }) ∧
        Memory.wf nt ∧ ∀ b, Memory.read nt b = if b = a.toNat then x else Memory.read s.nt b) ∧
    ∀ (x : Half) (a : Word) (s : State), s.params.ntWords ≤ a.toNat →
      exec (.ntWrite x a) s = .next (rejected .badValue s)

/-- R154: NT_READ returns one entry sign-extended and changes nothing. -/
def Obligations.NtReadReturnsOneEntry : Prop :=
  encodes 0x46 (fun vf imm _ => vf = 0 ∧ imm = 0) (fun _ _ arg => .ntRead arg) ∧
    (∀ (a : Word) (s : State), a.toNat < s.params.ntWords →
      exec (.ntRead a) s = .next (answering (BitVec.ofInt 32 (Memory.read s.nt a.toNat).toInt) s)) ∧
    ∀ (a : Word) (s : State), s.params.ntWords ≤ a.toNat →
      exec (.ntRead a) s = .next (rejected .badValue s)

/-! ## Waveforms -/

/-- R91, R92 (the shift triple is the spec's own presumption, log 8): noise_next, by arithmetic on the state as a number; a nonzero state stays nonzero; and
noise_normal, which draws twice and gives an s16. -/
def Obligations.NoiseNextIsXorshift : Prop :=
  (∀ x : Word,
    let a := x.toNat ^^^ (x.toNat * 2 ^ 13 % 2 ^ 32)
    let b := a ^^^ (a / 2 ^ 17)
    (noiseNext x).toNat = b ^^^ (b * 2 ^ 5 % 2 ^ 32)) ∧
    (∀ x : Word, x ≠ 0 → noiseNext x ≠ 0) ∧ noiseNext 1 = 0x00042021 ∧
    ∀ x : Word, (noiseNormal x).1 = noiseNext (noiseNext x) ∧
      (noiseNormal x).2 =
        ((((noiseNext x).toNat / 2 ^ 16 : Nat) : Int) + ((noiseNext (noiseNext x)).toNat % 2 ^ 16 : Nat) -
          65535) / 2 ∧
      -32768 ≤ (noiseNormal x).2 ∧ (noiseNormal x).2 ≤ 32767

/-- R97, R98, R99: sawtooth, triangle and square, by arithmetic on the phase as a number. -/
def Obligations.RampAndPulseFormulas : Prop :=
  ∀ (p : Word) (pw : Half),
    saw p = ((p.toNat / 2 ^ 16 : Nat) : Int) - 32768 ∧
      (p.toNat < 2 ^ 31 → tri p = ((p.toNat / 2 ^ 15 : Nat) : Int) - 32768) ∧
      (2 ^ 31 ≤ p.toNat → tri p = 32767 - (((p.toNat - 2 ^ 31) / 2 ^ 15 : Nat) : Int)) ∧
      square p pw = if p.toNat / 2 ^ 16 < pw.toNat then 32767 else -32768

/-- R103: half a cycle later the sine is negated, it mirrors about its quarter, and its extremes are
32767 and -32767; the value -32768 never occurs. -/
def Obligations.SineIsSymmetric : Prop :=
  sineTable.length = 256 ∧
    (∀ p : Word, sine (p + 0x80000000) = -sine p) ∧
    (∀ i ≤ 64, sineTable.getD (64 - i) 0 = sineTable.getD (64 + i) 0) ∧
    (∀ p : Word, -32767 ≤ sine p ∧ sine p ≤ 32767) ∧
    sineTable.getD 64 0 = 32767 ∧ sineTable.getD 192 0 = -32767

/-- R100: with the NOISE bit set, a wrap draws once and the voice holds the high half of the draw;
without a wrap nothing changes and the held value is the output; with the bit clear nothing is drawn. -/
def Obligations.NoiseKindDrawsOnlyOnAWrap : Prop :=
  ∀ (x : Voice) (m : Mix),
    (x.wave.getLsbD 0 = true →
      noiseKind true x m =
          ({ x with noiseSample := BitVec.ofNat 16 ((noiseNext m.noise).toNat / 2 ^ 16) },
            { m with noise := noiseNext m.noise },
            (BitVec.ofNat 16 ((noiseNext m.noise).toNat / 2 ^ 16)).toInt) ∧
        noiseKind false x m = (x, m, x.noiseSample.toInt)) ∧
      (x.wave.getLsbD 0 = false → ∀ wrap, noiseKind wrap x m = (x, m, 0))

/-- R102: arb_next. A buffer not exhausted gives its element at ARB_RD; an exhausted one is first refilled
whole from the host's answer, with EV_REFILL(v), and gives the answer's first element. The answer here is
one the host has ready, of any ARB_LEN samples (log 4 says what stands for an answer it has not given). -/
def Obligations.ArbNextConsumesOneSample : Prop :=
  ∀ (p : Params) (v : Nat) (x : Voice) (m : Mix), p.legal → x.wave.getLsbD 5 = true → Memory.wf x.arb →
    (x.arbRd.toNat < p.arbLen →
      arbKind p v x m =
        ({ x with arbRd := x.arbRd + 1 }, m, (Memory.read x.arb x.arbRd.toNat).toInt)) ∧
      (∀ (answer : List Half) (rest : List (List Half)), x.arbRd.toNat = p.arbLen →
        m.refills = answer :: rest → answer.length = p.arbLen →
        ∃ arb : Memory, arbKind p v x m =
            ({ x with arb := arb, arbRd := 1 },
              { m with refills := rest, refillCount := m.refillCount + 1
                       events := m.events ++ [.refill v] },
              (answer.getD 0 0).toInt) ∧
          ∀ i, Memory.read arb i = if i < p.arbLen then answer.getD i 0 else Memory.read x.arb i)

/-- R101: the raw sample is the mean of the set kinds' outputs, truncated toward zero, or 0 when none is
set; the voice and the shared state are as the noise kind and then the buffer kind leave them. -/
def Obligations.RawSampleIsTheMeanOfTheSetKinds : Prop :=
  ∀ (p : Params) (v : Nat) (wrap : Bool) (x : Voice) (m : Mix),
    let n := noiseKind wrap x m
    let a := arbKind p v n.1 n.2.1
    let outputs : List Int :=
      (if x.wave.getLsbD 0 then [n.2.2] else []) ++ (if x.wave.getLsbD 1 then [saw x.phase] else []) ++
        (if x.wave.getLsbD 2 then [tri x.phase] else []) ++
        (if x.wave.getLsbD 3 then [square x.phase x.pw] else []) ++
        (if x.wave.getLsbD 4 then [sineTable.getD (x.phase.toNat / 2 ^ 24) 0] else []) ++
        (if x.wave.getLsbD 5 then [a.2.2] else [])
    voiceRaw p v wrap x m =
      (a.1, a.2.1, if outputs = [] then 0 else outputs.sum.tdiv (outputs.length : Int))

/-- R109: the raw sample is always an s16. -/
def Obligations.RawSampleFitsSixteenBits : Prop :=
  ∀ (p : Params) (v : Nat) (wrap : Bool) (x : Voice) (m : Mix),
    -32768 ≤ (voiceRaw p v wrap x m).2.2 ∧ (voiceRaw p v wrap x m).2.2 ≤ 32767

/-! ## Envelope -/

/-- R117, R122, R127, R129, R187: one env_tick of a voice that is not OFF. The level DECAY lands on is
SUSTAIN as it was when DECAY was entered: the tick that enters DECAY holds it in the model's own field
`decayLevel` (log 5), the landing takes it from there, and a SUSTAIN written during DECAY or SUSTAIN changes
nothing else a tick does. -/
def Obligations.EnvTickAdvancesOneFrame : Prop :=
  ∀ (sr : BitVec 20) (x : Voice),
    let moved : Voice :=
      { x with envValue := BitVec.ofInt 31 ((x.envValue.toNat : Int) + x.envStep.toInt)
               envElapsed := x.envElapsed + 1 }
    (x.envState = .sustain → envTick sr x = moved) ∧
      (x.envState = .attack ∨ x.envState = .decay ∨ x.envState = .release →
        x.envElapsed + 1 ≠ x.envTarget → envTick sr x = moved) ∧
      (x.envState = .attack → x.envElapsed + 1 = x.envTarget →
        envTick sr x =
          { entered .decay (x.sustain.toNat * 2 ^ 22) x.decay sr
              { x with envValue := BitVec.ofNat 31 (2 ^ 30) } with decayLevel := x.sustain }) ∧
      (x.envState = .decay → x.envElapsed + 1 = x.envTarget → envTick sr x =
        { x with envState := .sustain, envValue := BitVec.ofNat 31 (x.decayLevel.toNat * 2 ^ 22)
                 envStep := 0, envElapsed := 0, envTarget := 0 }) ∧
      (x.envState = .release → x.envElapsed + 1 = x.envTarget → envTick sr x =
        { x with envState := .off, envValue := 0, envStep := 0, envElapsed := 0, envTarget := 0 }) ∧
      (x.envState = .decay ∨ x.envState = .sustain → ∀ lvl : BitVec 9,
        envTick sr { x with sustain := lvl } = { envTick sr x with sustain := lvl })

/-- R128: the timeline after a trigger_attack with no other trigger. -/
def Obligations.AttackDecaySustainTimeline : Prop :=
  ∀ (sr : BitVec 20) (x : Voice), x.envValue.toNat ≤ 2 ^ 30 → x.sustain.toNat ≤ 256 →
    let nA := frameCount sr x.attack
    let nD := frameCount sr x.decay
    let level := x.sustain.toNat * 2 ^ 22
    let sA := phaseStep (2 ^ 30) x.envValue.toNat nA
    let sD := phaseStep level (2 ^ 30) nD
    ∀ k : Nat, 1 ≤ k →
      let y := (envTick sr)^[k] (triggerAttack sr x)
      (k < nA → y.envState = .attack ∧ (y.envValue.toNat : Int) = x.envValue.toNat + k * sA) ∧
        (k = nA → y.envState = .decay ∧ y.envValue.toNat = 2 ^ 30) ∧
        (nA < k → k < nA + nD →
          y.envState = .decay ∧ (y.envValue.toNat : Int) = 2 ^ 30 + ((k : Int) - nA) * sD) ∧
        (nA + nD ≤ k → y.envState = .sustain ∧ y.envValue.toNat = level)

/-- R124, R127, R130, R131: after a trigger_release from value E the k-th tick leaves E + k*s in RELEASE,
never more than E, and the last frame lands in OFF with value 0. -/
def Obligations.ReleaseFallsToOff : Prop :=
  ∀ (sr : BitVec 20) (x : Voice), x.envValue.toNat ≤ 2 ^ 30 →
    let n := frameCount sr x.release
    let step := phaseStep 0 x.envValue.toNat n
    (∀ k : Nat, k < n →
      let y := (envTick sr)^[k] (triggerRelease sr x)
      y.envState = .release ∧ (y.envValue.toNat : Int) = x.envValue.toNat + k * step ∧
        y.envValue.toNat ≤ x.envValue.toNat) ∧
      ((envTick sr)^[n] (triggerRelease sr x)).envState = .off ∧
      ((envTick sr)^[n] (triggerRelease sr x)).envValue = 0

/-! ## Mixer -/

/-- R134: SAMPLE is the spec's loop, run voice by voice on the whole state, then the master volume and the
clip. -/
def Obligations.SampleRunsTheVoicesInOrder : Prop :=
  encodes 0x31 (fun vf imm arg => vf = 0 ∧ imm = 0 ∧ arg = 0) (fun _ _ _ => .sample) ∧
    ∀ s : State, sampleReady s → exec .sample s = .next (sampled s)

/-- R134: with no active voice, or every one OFF, the result is 0 and only the phases advance. -/
def Obligations.SampleOfSilenceAdvancesPhases : Prop :=
  ∀ s : State, (s.g.nva = 0 ∨ s.g.sr ≠ 0) →
    (∀ v x, v < s.g.nva.toNat → s.voices[v]? = some x → x.envState = .off) →
    ∃ xs : List Voice, exec .sample s = .next (answering 0 { s with voices := xs }) ∧
      ∀ v, xs[v]? = (s.voices[v]?).map fun x =>
        if v < s.g.nva.toNat then
          { x with phase := BitVec.ofNat 32
                     (x.phase.toNat + (x.freq.toNat * 2 ^ 32 / s.g.sr.toNat) % 2 ^ 32) }
        else x

/-- R135, R136: the envelope scaling stays between the raw sample and 0, or is -1 below it, is exact at
full scale, and the voice gain stays in -32640..32639. -/
def Obligations.VoiceGainStaysInRange : Prop :=
  ∀ (w : Int) (e : BitVec 31) (vol : BitVec 8), -32768 ≤ w → w ≤ 32767 → e.toNat ≤ 2 ^ 30 →
    (0 ≤ w → 0 ≤ envScale w e ∧ envScale w e ≤ w) ∧
      (w < 0 → 0 < e.toNat → w ≤ envScale w e ∧ envScale w e ≤ -1) ∧
      (e.toNat = 0 → envScale w e = 0) ∧ (e.toNat = 2 ^ 30 → envScale w e = w) ∧
      -32640 ≤ volScale (envScale w e) vol ∧ volScale (envScale w e) vol ≤ 32639

/-- R138: SAMPLE's accumulator, after all the active voices and after any number of them, never leaves
-2088960..2088960, so that a 32-bit signed one is exact (log 14: the model's is an integer). -/
def Obligations.AccumulatorStaysExact : Prop :=
  ∀ s : State, Inv s →
    (-2088960 ≤ (sampleLoop s).2.acc ∧ (sampleLoop s).2.acc ≤ 2088960) ∧
      ∀ n : Nat, n ≤ s.g.nva.toNat →
        -2088960 ≤ (sampleSlots s.params s.g.sr 0 n s.voices (mixStart s)).2.acc ∧
          (sampleSlots s.params s.g.sr 0 n s.voices (mixStart s)).2.acc ≤ 2088960

/-- R139: whatever the state, the sample SAMPLE returns is in the signed 16-bit range. -/
def Obligations.SampleOutputIsSixteenBits : Prop :=
  ∀ s t : State, exec .sample s = .next t → -32768 ≤ t.port.rdata.toInt ∧ t.port.rdata.toInt ≤ 32767

/-! ## Sequencer -/

/-- R146: SEQ_INIT binds the table; BAD_VALUE comes before BAD_STATE (R165). -/
def Obligations.SeqInitBindsTheTable : Prop :=
  encodes 0x40 (fun _ _ _ => true) (fun vf imm arg => .seqInit vf imm arg) ∧
    ∀ (n : Byte) (len : Half) (base : Word) (s : State),
      let legal := 1 ≤ n.toNat ∧ n.toNat ≤ s.g.nva.toNat ∧ 1 ≤ len.toNat ∧
        base.toNat + n.toNat * len.toNat ≤ s.params.ntWords
      (legal → s.seq.playing = false →
        exec (.seqInit n len base) s = .next (answering 0
          { s with seq := { s.seq with voices := BitVec.ofNat 7 n.toNat, len := len
                                       base := BitVec.ofNat 16 base.toNat, beatValid := false } })) ∧
        (¬legal → exec (.seqInit n len base) s = .next (rejected .badValue s)) ∧
        (legal → s.seq.playing = true → exec (.seqInit n len base) s = .next (rejected .badState s))

/-- R147: SEQ_START. -/
def Obligations.SeqStartCapturesTheTime : Prop :=
  encodes 0x41 (fun vf imm _ => vf = 0 ∧ imm.toNat < 2)
    (fun _ imm arg => .seqStart (decide (imm = 1)) arg) ∧
    ∀ (loop : Bool) (now : Word) (s : State),
      let legal := 1 ≤ s.seq.len.toNat ∧ 1 ≤ s.seq.voices.toNat ∧ s.seq.voices.toNat ≤ s.g.nva.toNat
      (legal → exec (.seqStart loop now) s = .next (answering 0
        { s with seq := { s.seq with playing := true, loop := loop, start := now, beatValid := false } })) ∧
        (¬legal → exec (.seqStart loop now) s = .next (rejected .badState s))

/-- R144, R148: SEQ_STOP stops and silences every active voice, and does nothing else. -/
def Obligations.SeqStopSilencesEveryActiveVoice : Prop :=
  encodes 0x42 (fun vf imm arg => vf = 0 ∧ imm = 0 ∧ arg = 0) (fun _ _ _ => .seqStop) ∧
    ∀ s : State, exec .seqStop s = .next (silenced (answering 0
      { s with seq := { s.seq with playing := false, beatValid := false } }))

/-- R149: a second SEQ_STOP changes nothing, and the SAMPLE after a SEQ_STOP returns 0. -/
def Obligations.SeqStopIsIdempotentAndSilent : Prop :=
  ∀ s t : State, exec .seqStop s = .next t →
    exec .seqStop t = .next t ∧
      (∀ v x, v < t.g.nva.toNat → t.voices[v]? = some x → x.envState = .off ∧ x.envValue = 0) ∧
      ∀ u, exec .sample t = .next u → u.port.rdata = 0

/-- R143, R150, R151: SEQ_TEMPO sets the beat duration, and rebases the start while a beat of this
playback has been dispatched. -/
def Obligations.SeqTempoRebasesTheStart : Prop :=
  encodes 0x43 (fun vf _ arg => vf = 0 ∧ arg = 0) (fun _ imm _ => .seqTempo imm) ∧
    ∀ (bpm : Half) (s : State),
      let ms := max 1 (60000 / bpm.toNat / 4)
      let rebased := BitVec.ofInt 32
        ((s.seq.start.toNat : Int) + s.seq.last.toNat * s.seq.beatMs.toNat - s.seq.last.toNat * ms)
      (bpm.toNat = 0 → exec (.seqTempo bpm) s = .next (rejected .badValue s)) ∧
        (1 ≤ bpm.toNat →
          ms ≤ 15000 ∧
          exec (.seqTempo bpm) s = .next (answering 0
            { s with seq := { s.seq with
                beatMs := BitVec.ofNat 14 ms
                start := if s.seq.playing = true ∧ s.seq.beatValid = true then rebased
                         else s.seq.start } }))

/-- R150: after a tempo change while playing, a beat computed `d` ms after the last dispatched beat's
start is `d / new duration` beats after it: no earlier beat is dispatched again. -/
def Obligations.TempoChangeRefiresNoBeat : Prop :=
  ∀ (bpm : Half) (s t : State) (now : Word) (d : Nat),
    exec (.seqTempo bpm) s = .next t → 1 ≤ bpm.toNat → s.seq.playing = true → s.seq.beatValid = true →
    ((now.toNat : Int) - s.seq.start.toNat - s.seq.last.toNat * s.seq.beatMs.toNat) % 2 ^ 32 = d →
    d + s.seq.last.toNat * t.seq.beatMs.toNat < 2 ^ 32 →
    beatAt t.seq now = s.seq.last.toNat + d / t.seq.beatMs.toNat

/-- R152: SEQ_CB. -/
def Obligations.SeqCbWritesTheEnable : Prop :=
  encodes 0x44 (fun vf imm arg => vf = 0 ∧ imm.toNat < 2 ∧ arg = 0)
    (fun _ imm _ => .seqCb (decide (imm = 1))) ∧
    ∀ (en : Bool) (s : State),
      exec (.seqCb en) s = .next (answering 0 { s with seq := { s.seq with cbEn := en } })

/-- R156: TICK while stopped, or with the beat that was dispatched last, changes nothing. -/
def Obligations.TickWithoutANewBeatChangesNothing : Prop :=
  encodes 0x47 (fun vf imm _ => vf = 0 ∧ imm = 0) (fun _ _ arg => .tick arg) ∧
    ∀ (now : Word) (s : State),
      (s.seq.playing = false ∨
        1 ≤ s.seq.beatMs.toNat ∧ s.seq.beatValid = true ∧ beatAt s.seq now = s.seq.last.toNat) →
      exec (.tick now) s = .next (answering 0 s)

/-- R155, R156: TICK at a new beat inside the track, or in loop mode, dispatches the beat's column. -/
def Obligations.TickDispatchesTheBeatsColumn : Prop :=
  ∀ (now : Word) (s : State), beatDue now s → tableFits s →
    (beatAt s.seq now < s.seq.len.toNat ∨ s.seq.loop = true) →
    exec (.tick now) s = .next (dispatched (beatAt s.seq now % s.seq.len.toNat) (answering 0
      { s with seq := { s.seq with last := BitVec.ofNat 32 (beatAt s.seq now), beatValid := true } }))

/-- R156, R158: TICK at or past the end of a one-shot track stops, silences, sets DONE, and raises EV_DONE
exactly if it is enabled. -/
def Obligations.TickEndsAOneShotTrack : Prop :=
  ∀ (now : Word) (s : State), beatDue now s → s.seq.loop = false →
    s.seq.len.toNat ≤ beatAt s.seq now →
    exec (.tick now) s = .next (silenced
      { s with
        seq := { s.seq with playing := false, last := BitVec.ofNat 32 (beatAt s.seq now)
                            beatValid := true }
        g := { s.g with done := true }
        port := { s.port with rdata := 0, events := if s.seq.cbEn then [.done] else [] } })

/-- R156, R168: a second TICK at the same time changes nothing: at one time neither a beat nor the end of a
track is dispatched twice. (A time that goes back may dispatch a beat again, R190.) -/
def Obligations.TickAgainAtTheSameTimeChangesNothing : Prop :=
  ∀ (now : Word) (s t : State), exec (.tick now) s = .next t →
    exec (.tick now) t = .next (answering 0 t)

/-! ## Rules over all commands -/

/-- R26, R27, R163: once set, ERR, the first ERRCODE and DONE stay until CLR_STATUS. -/
def Obligations.OnlyClrStatusClearsTheStickyFlags : Prop :=
  ∀ (i : Instr) (s t : State), exec i s = .next t → mnemonicOf i ≠ .clrStatus →
    (s.g.err = true → t.g.err = true ∧ t.g.errcode = s.g.errcode) ∧
      (s.g.done = true → t.g.done = true)

/-- R49: no command writes what the table of writers does not give it; the instance's parameters are
written by none (R6). -/
def Obligations.OnlyTheListedCommandsWriteEachRegister : Prop :=
  ∀ (i : Instr) (s t : State), exec i s = .next t →
    t.params = s.params ∧
      (oneOf [.init] i ∨ t.g.nva = s.g.nva) ∧ (oneOf [.init, .setSr] i ∨ t.g.sr = s.g.sr) ∧
      (oneOf [.setMvol] i ∨ t.g.mvol = s.g.mvol) ∧ (oneOf [.sample] i ∨ t.g.noise = s.g.noise) ∧
      (oneOf [.tick, .clrStatus] i ∨ t.g.done = s.g.done) ∧
      (oneOf [.clrStatus] i ∨ (∃ c, t = rejected c s) ∨
        t.g.err = s.g.err ∧ t.g.errcode = s.g.errcode) ∧
      (∀ (v : Nat) (x y : Voice), s.voices[v]? = some x → t.voices[v]? = some y → voiceWriters i x y) ∧
      (oneOf [.seqInit, .seqStart, .seqStop, .seqTempo, .seqCb, .tick, .init] i ∨ t.seq = s.seq) ∧
      (oneOf [.ntWrite] i ∨ t.nt = s.nt)

/-- R167: only SAMPLE raises EV_REFILL, for active voices in ascending order, each at most once; only TICK
raises EV_DONE, once, and only while CB_EN is set. -/
def Obligations.EventsComeOnlyFromSampleAndTick : Prop :=
  ∀ (i : Instr) (s t : State), exec i s = .next t →
    eventsOrdered t.port.events ∧
      ∀ e ∈ t.port.events,
        (i = .sample ∧ ∃ v, v < s.g.nva.toNat ∧ e = .refill v) ∨
          ((∃ now, i = .tick now) ∧ s.seq.cbEn = true ∧ e = .done)

/-- R22, R111: a slot that is not active keeps its state through every command but INIT. A playing
sequencer has no more rows than active voices (R46 (8)). -/
def Obligations.InactiveSlotsKeepTheirState : Prop :=
  ∀ (i : Instr) (s t : State), exec i s = .next t → mnemonicOf i ≠ .init →
    (s.seq.playing = true → s.seq.voices.toNat ≤ s.g.nva.toNat) →
    ∀ v, s.g.nva.toNat ≤ v → t.voices[v]? = s.voices[v]?

end
end

