-- ==== Sys2Proof/Laws/Decode.lean ====
section
/-! SUPPORT. The decoder and the encoder: the fields of a command word, what the decoder can answer, and
the bytes of a transfer. -/

namespace Sys2Proof

/-! ## The fields of a command word (R67) -/

@[simp] theorem opField_cmdWord (op vf : Byte) (imm : Half) : opField (cmdWord op vf imm) = op := by
  unfold opField cmdWord
  refine BitVec.eq_of_getLsbD_eq fun i hi => ?_
  rw [BitVec.getLsbD_extractLsb', BitVec.getLsbD_append, if_neg (by omega), BitVec.getLsbD_append,
    if_neg (by omega), show 24 + i - 16 - 8 = i by omega]
  simp [hi]

@[simp] theorem vfField_cmdWord (op vf : Byte) (imm : Half) : vfField (cmdWord op vf imm) = vf := by
  unfold vfField cmdWord
  refine BitVec.eq_of_getLsbD_eq fun i hi => ?_
  rw [BitVec.getLsbD_extractLsb', BitVec.getLsbD_append, if_neg (by omega), BitVec.getLsbD_append,
    if_pos (by omega), show 16 + i - 16 = i by omega]
  simp [hi]

@[simp] theorem immField_cmdWord (op vf : Byte) (imm : Half) : immField (cmdWord op vf imm) = imm := by
  unfold immField cmdWord
  refine BitVec.eq_of_getLsbD_eq fun i hi => ?_
  rw [BitVec.getLsbD_extractLsb', BitVec.getLsbD_append, if_pos (by omega), show 0 + i = i by omega]
  simp [hi]

/-- A command word is its three fields. -/
theorem cmdWord_fields (cmd : Word) : cmdWord (opField cmd) (vfField cmd) (immField cmd) = cmd := by
  unfold opField vfField immField cmdWord
  refine BitVec.eq_of_getLsbD_eq fun i hi => ?_
  rw [BitVec.getLsbD_append, BitVec.getLsbD_append]
  split
  · simp [*]
  · split
    · rw [BitVec.getLsbD_extractLsb', show 16 + (i - 16) = i by omega]; simp [*]
    · rw [BitVec.getLsbD_extractLsb', show 24 + (i - 16 - 8) = i by omega]
      simp; omega

/-! ## What the decoder can answer (R72, R73, R79) -/

/-- A check of the reserved fields answers the command, or RSVD. -/
theorem unlessReserved_cases (z : Bool) (i : Instr) :
    z = true ∧ unlessReserved z i = .ok i ∨ z = false ∧ unlessReserved z i = .error .rsvd := by
  cases z
  · exact .inr ⟨rfl, rfl⟩
  · exact .inl ⟨rfl, rfl⟩

theorem unlessReserved_error {z : Bool} {i : Instr} {c : ErrCode}
    (h : unlessReserved z i = .error c) : c = .rsvd := by
  cases z
  · exact (Except.error.inj h).symm
  · cases h

/-- The decoder's only rejections are ILLEGAL_OP and RSVD. -/
theorem decode_error {cmd arg : Word} {c : ErrCode} (h : decode cmd arg = .error c) :
    c = .illegalOp ∨ c = .rsvd := by
  unfold decode at h
  dsimp only at h
  split at h <;> first
    | exact .inr (unlessReserved_error h)
    | exact .inl (Except.error.inj h).symm

/-! ## The bytes of a transfer (R54) -/

/-- The four bytes of a word, put together again. -/
theorem word_of_bytes (w : Word) :
    (w.extractLsb' 24 8 ++ w.extractLsb' 16 8 ++ w.extractLsb' 8 8 ++ w.extractLsb' 0 8 : Word) = w := by
  refine BitVec.eq_of_getLsbD_eq fun i hi => ?_
  simp only [BitVec.getLsbD_append, BitVec.getLsbD_extractLsb']
  split
  · simp [*]
  · split
    · rw [show 8 + (i - 8) = i by omega]; simp [*]
    · split
      · rw [show 16 + (i - 8 - 8) = i by omega]; simp [*]
      · rw [show 24 + (i - 8 - 8 - 8) = i by omega]; simp; omega

end Sys2Proof
end

