-- ==== Sys2Proof/Laws/State.lean ====
section
/-! SUPPORT. One lemma per field per update of State and of the records in it: each true by rfl once the
record is taken apart. They are proved by cases, not by rfl alone, so that simp rewrites with them and
the kernel never has to compare the computed values that the updates carry (such a comparison unfolds
32-bit numerals and does not end). -/

namespace Sys2Proof.Machine

/-! ## State.withG -/
@[simp] theorem State.withG_params (s : State) (a : Master) : (s.withG a).params = s.params := by
  cases s; rfl
@[simp] theorem State.withG_g (s : State) (a : Master) : (s.withG a).g = a := by
  cases s; rfl
@[simp] theorem State.withG_voices (s : State) (a : Master) : (s.withG a).voices = s.voices := by
  cases s; rfl
@[simp] theorem State.withG_seq (s : State) (a : Master) : (s.withG a).seq = s.seq := by
  cases s; rfl
@[simp] theorem State.withG_nt (s : State) (a : Master) : (s.withG a).nt = s.nt := by
  cases s; rfl
@[simp] theorem State.withG_port (s : State) (a : Master) : (s.withG a).port = s.port := by
  cases s; rfl

/-! ## State.withVoices -/
@[simp] theorem State.withVoices_params (s : State) (a : List Voice) :
    (s.withVoices a).params = s.params := by
  cases s; rfl
@[simp] theorem State.withVoices_g (s : State) (a : List Voice) : (s.withVoices a).g = s.g := by
  cases s; rfl
@[simp] theorem State.withVoices_voices (s : State) (a : List Voice) :
    (s.withVoices a).voices = a := by
  cases s; rfl
@[simp] theorem State.withVoices_seq (s : State) (a : List Voice) :
    (s.withVoices a).seq = s.seq := by
  cases s; rfl
@[simp] theorem State.withVoices_nt (s : State) (a : List Voice) :
    (s.withVoices a).nt = s.nt := by
  cases s; rfl
@[simp] theorem State.withVoices_port (s : State) (a : List Voice) :
    (s.withVoices a).port = s.port := by
  cases s; rfl

/-! ## State.withSeq -/
@[simp] theorem State.withSeq_params (s : State) (a : Sequencer) :
    (s.withSeq a).params = s.params := by
  cases s; rfl
@[simp] theorem State.withSeq_g (s : State) (a : Sequencer) : (s.withSeq a).g = s.g := by
  cases s; rfl
@[simp] theorem State.withSeq_voices (s : State) (a : Sequencer) :
    (s.withSeq a).voices = s.voices := by
  cases s; rfl
@[simp] theorem State.withSeq_seq (s : State) (a : Sequencer) : (s.withSeq a).seq = a := by
  cases s; rfl
@[simp] theorem State.withSeq_nt (s : State) (a : Sequencer) : (s.withSeq a).nt = s.nt := by
  cases s; rfl
@[simp] theorem State.withSeq_port (s : State) (a : Sequencer) : (s.withSeq a).port = s.port := by
  cases s; rfl

/-! ## State.withNt -/
@[simp] theorem State.withNt_params (s : State) (a : Memory) :
    (s.withNt a).params = s.params := by
  cases s; rfl
@[simp] theorem State.withNt_g (s : State) (a : Memory) : (s.withNt a).g = s.g := by
  cases s; rfl
@[simp] theorem State.withNt_voices (s : State) (a : Memory) :
    (s.withNt a).voices = s.voices := by
  cases s; rfl
@[simp] theorem State.withNt_seq (s : State) (a : Memory) : (s.withNt a).seq = s.seq := by
  cases s; rfl
@[simp] theorem State.withNt_nt (s : State) (a : Memory) : (s.withNt a).nt = a := by
  cases s; rfl
@[simp] theorem State.withNt_port (s : State) (a : Memory) : (s.withNt a).port = s.port := by
  cases s; rfl

/-! ## State.withPort -/
@[simp] theorem State.withPort_params (s : State) (a : Port) :
    (s.withPort a).params = s.params := by
  cases s; rfl
@[simp] theorem State.withPort_g (s : State) (a : Port) : (s.withPort a).g = s.g := by
  cases s; rfl
@[simp] theorem State.withPort_voices (s : State) (a : Port) :
    (s.withPort a).voices = s.voices := by
  cases s; rfl
@[simp] theorem State.withPort_seq (s : State) (a : Port) : (s.withPort a).seq = s.seq := by
  cases s; rfl
@[simp] theorem State.withPort_nt (s : State) (a : Port) : (s.withPort a).nt = s.nt := by
  cases s; rfl
@[simp] theorem State.withPort_port (s : State) (a : Port) : (s.withPort a).port = a := by
  cases s; rfl

/-! ## Master.withEngine -/
@[simp] theorem Master.withEngine_nva (g : Master) (a : BitVec 7) (b : BitVec 20) :
    (g.withEngine a b).nva = a := by
  cases g; rfl
@[simp] theorem Master.withEngine_sr (g : Master) (a : BitVec 7) (b : BitVec 20) :
    (g.withEngine a b).sr = b := by
  cases g; rfl
@[simp] theorem Master.withEngine_mvol (g : Master) (a : BitVec 7) (b : BitVec 20) :
    (g.withEngine a b).mvol = g.mvol := by
  cases g; rfl
@[simp] theorem Master.withEngine_noise (g : Master) (a : BitVec 7) (b : BitVec 20) :
    (g.withEngine a b).noise = g.noise := by
  cases g; rfl
@[simp] theorem Master.withEngine_done (g : Master) (a : BitVec 7) (b : BitVec 20) :
    (g.withEngine a b).done = g.done := by
  cases g; rfl
@[simp] theorem Master.withEngine_err (g : Master) (a : BitVec 7) (b : BitVec 20) :
    (g.withEngine a b).err = g.err := by
  cases g; rfl
@[simp] theorem Master.withEngine_errcode (g : Master) (a : BitVec 7) (b : BitVec 20) :
    (g.withEngine a b).errcode = g.errcode := by
  cases g; rfl

/-! ## Master.withSr -/
@[simp] theorem Master.withSr_nva (g : Master) (a : BitVec 20) : (g.withSr a).nva = g.nva := by
  cases g; rfl
@[simp] theorem Master.withSr_sr (g : Master) (a : BitVec 20) : (g.withSr a).sr = a := by
  cases g; rfl
@[simp] theorem Master.withSr_mvol (g : Master) (a : BitVec 20) : (g.withSr a).mvol = g.mvol := by
  cases g; rfl
@[simp] theorem Master.withSr_noise (g : Master) (a : BitVec 20) :
    (g.withSr a).noise = g.noise := by
  cases g; rfl
@[simp] theorem Master.withSr_done (g : Master) (a : BitVec 20) : (g.withSr a).done = g.done := by
  cases g; rfl
@[simp] theorem Master.withSr_err (g : Master) (a : BitVec 20) : (g.withSr a).err = g.err := by
  cases g; rfl
@[simp] theorem Master.withSr_errcode (g : Master) (a : BitVec 20) :
    (g.withSr a).errcode = g.errcode := by
  cases g; rfl

/-! ## Master.withMvol -/
@[simp] theorem Master.withMvol_nva (g : Master) (a : BitVec 7) : (g.withMvol a).nva = g.nva := by
  cases g; rfl
@[simp] theorem Master.withMvol_sr (g : Master) (a : BitVec 7) : (g.withMvol a).sr = g.sr := by
  cases g; rfl
@[simp] theorem Master.withMvol_mvol (g : Master) (a : BitVec 7) : (g.withMvol a).mvol = a := by
  cases g; rfl
@[simp] theorem Master.withMvol_noise (g : Master) (a : BitVec 7) :
    (g.withMvol a).noise = g.noise := by
  cases g; rfl
@[simp] theorem Master.withMvol_done (g : Master) (a : BitVec 7) :
    (g.withMvol a).done = g.done := by
  cases g; rfl
@[simp] theorem Master.withMvol_err (g : Master) (a : BitVec 7) : (g.withMvol a).err = g.err := by
  cases g; rfl
@[simp] theorem Master.withMvol_errcode (g : Master) (a : BitVec 7) :
    (g.withMvol a).errcode = g.errcode := by
  cases g; rfl

/-! ## Master.withNoise -/
@[simp] theorem Master.withNoise_nva (g : Master) (a : Word) : (g.withNoise a).nva = g.nva := by
  cases g; rfl
@[simp] theorem Master.withNoise_sr (g : Master) (a : Word) : (g.withNoise a).sr = g.sr := by
  cases g; rfl
@[simp] theorem Master.withNoise_mvol (g : Master) (a : Word) :
    (g.withNoise a).mvol = g.mvol := by
  cases g; rfl
@[simp] theorem Master.withNoise_noise (g : Master) (a : Word) : (g.withNoise a).noise = a := by
  cases g; rfl
@[simp] theorem Master.withNoise_done (g : Master) (a : Word) :
    (g.withNoise a).done = g.done := by
  cases g; rfl
@[simp] theorem Master.withNoise_err (g : Master) (a : Word) : (g.withNoise a).err = g.err := by
  cases g; rfl
@[simp] theorem Master.withNoise_errcode (g : Master) (a : Word) :
    (g.withNoise a).errcode = g.errcode := by
  cases g; rfl

/-! ## Master.withDone -/
@[simp] theorem Master.withDone_nva (g : Master) (a : Bool) : (g.withDone a).nva = g.nva := by
  cases g; rfl
@[simp] theorem Master.withDone_sr (g : Master) (a : Bool) : (g.withDone a).sr = g.sr := by
  cases g; rfl
@[simp] theorem Master.withDone_mvol (g : Master) (a : Bool) : (g.withDone a).mvol = g.mvol := by
  cases g; rfl
@[simp] theorem Master.withDone_noise (g : Master) (a : Bool) :
    (g.withDone a).noise = g.noise := by
  cases g; rfl
@[simp] theorem Master.withDone_done (g : Master) (a : Bool) : (g.withDone a).done = a := by
  cases g; rfl
@[simp] theorem Master.withDone_err (g : Master) (a : Bool) : (g.withDone a).err = g.err := by
  cases g; rfl
@[simp] theorem Master.withDone_errcode (g : Master) (a : Bool) :
    (g.withDone a).errcode = g.errcode := by
  cases g; rfl

/-! ## Master.withErr -/
@[simp] theorem Master.withErr_nva (g : Master) (a : Bool) (b : ErrCode) :
    (g.withErr a b).nva = g.nva := by
  cases g; rfl
@[simp] theorem Master.withErr_sr (g : Master) (a : Bool) (b : ErrCode) :
    (g.withErr a b).sr = g.sr := by
  cases g; rfl
@[simp] theorem Master.withErr_mvol (g : Master) (a : Bool) (b : ErrCode) :
    (g.withErr a b).mvol = g.mvol := by
  cases g; rfl
@[simp] theorem Master.withErr_noise (g : Master) (a : Bool) (b : ErrCode) :
    (g.withErr a b).noise = g.noise := by
  cases g; rfl
@[simp] theorem Master.withErr_done (g : Master) (a : Bool) (b : ErrCode) :
    (g.withErr a b).done = g.done := by
  cases g; rfl
@[simp] theorem Master.withErr_err (g : Master) (a : Bool) (b : ErrCode) :
    (g.withErr a b).err = a := by
  cases g; rfl
@[simp] theorem Master.withErr_errcode (g : Master) (a : Bool) (b : ErrCode) :
    (g.withErr a b).errcode = b := by
  cases g; rfl

/-! ## Voice.withWave -/
@[simp] theorem Voice.withWave_wave (x : Voice) (a : BitVec 6) : (x.withWave a).wave = a := by
  cases x; rfl
@[simp] theorem Voice.withWave_freq (x : Voice) (a : BitVec 6) :
    (x.withWave a).freq = x.freq := by
  cases x; rfl
@[simp] theorem Voice.withWave_vol (x : Voice) (a : BitVec 6) : (x.withWave a).vol = x.vol := by
  cases x; rfl
@[simp] theorem Voice.withWave_pw (x : Voice) (a : BitVec 6) : (x.withWave a).pw = x.pw := by
  cases x; rfl
@[simp] theorem Voice.withWave_attack (x : Voice) (a : BitVec 6) :
    (x.withWave a).attack = x.attack := by
  cases x; rfl
@[simp] theorem Voice.withWave_decay (x : Voice) (a : BitVec 6) :
    (x.withWave a).decay = x.decay := by
  cases x; rfl
@[simp] theorem Voice.withWave_release (x : Voice) (a : BitVec 6) :
    (x.withWave a).release = x.release := by
  cases x; rfl
@[simp] theorem Voice.withWave_sustain (x : Voice) (a : BitVec 6) :
    (x.withWave a).sustain = x.sustain := by
  cases x; rfl
@[simp] theorem Voice.withWave_phase (x : Voice) (a : BitVec 6) :
    (x.withWave a).phase = x.phase := by
  cases x; rfl
@[simp] theorem Voice.withWave_envState (x : Voice) (a : BitVec 6) :
    (x.withWave a).envState = x.envState := by
  cases x; rfl
@[simp] theorem Voice.withWave_envValue (x : Voice) (a : BitVec 6) :
    (x.withWave a).envValue = x.envValue := by
  cases x; rfl
@[simp] theorem Voice.withWave_envStep (x : Voice) (a : BitVec 6) :
    (x.withWave a).envStep = x.envStep := by
  cases x; rfl
@[simp] theorem Voice.withWave_envElapsed (x : Voice) (a : BitVec 6) :
    (x.withWave a).envElapsed = x.envElapsed := by
  cases x; rfl
@[simp] theorem Voice.withWave_envTarget (x : Voice) (a : BitVec 6) :
    (x.withWave a).envTarget = x.envTarget := by
  cases x; rfl
@[simp] theorem Voice.withWave_noiseSample (x : Voice) (a : BitVec 6) :
    (x.withWave a).noiseSample = x.noiseSample := by
  cases x; rfl
@[simp] theorem Voice.withWave_arbRd (x : Voice) (a : BitVec 6) :
    (x.withWave a).arbRd = x.arbRd := by
  cases x; rfl
@[simp] theorem Voice.withWave_arb (x : Voice) (a : BitVec 6) : (x.withWave a).arb = x.arb := by
  cases x; rfl
@[simp] theorem Voice.withWave_decayLevel (x : Voice) (a : BitVec 6) :
    (x.withWave a).decayLevel = x.decayLevel := by
  cases x; rfl

/-! ## Voice.withFreq -/
@[simp] theorem Voice.withFreq_wave (x : Voice) (a : Half) : (x.withFreq a).wave = x.wave := by
  cases x; rfl
@[simp] theorem Voice.withFreq_freq (x : Voice) (a : Half) : (x.withFreq a).freq = a := by
  cases x; rfl
@[simp] theorem Voice.withFreq_vol (x : Voice) (a : Half) : (x.withFreq a).vol = x.vol := by
  cases x; rfl
@[simp] theorem Voice.withFreq_pw (x : Voice) (a : Half) : (x.withFreq a).pw = x.pw := by
  cases x; rfl
@[simp] theorem Voice.withFreq_attack (x : Voice) (a : Half) :
    (x.withFreq a).attack = x.attack := by
  cases x; rfl
@[simp] theorem Voice.withFreq_decay (x : Voice) (a : Half) : (x.withFreq a).decay = x.decay := by
  cases x; rfl
@[simp] theorem Voice.withFreq_release (x : Voice) (a : Half) :
    (x.withFreq a).release = x.release := by
  cases x; rfl
@[simp] theorem Voice.withFreq_sustain (x : Voice) (a : Half) :
    (x.withFreq a).sustain = x.sustain := by
  cases x; rfl
@[simp] theorem Voice.withFreq_phase (x : Voice) (a : Half) : (x.withFreq a).phase = x.phase := by
  cases x; rfl
@[simp] theorem Voice.withFreq_envState (x : Voice) (a : Half) :
    (x.withFreq a).envState = x.envState := by
  cases x; rfl
@[simp] theorem Voice.withFreq_envValue (x : Voice) (a : Half) :
    (x.withFreq a).envValue = x.envValue := by
  cases x; rfl
@[simp] theorem Voice.withFreq_envStep (x : Voice) (a : Half) :
    (x.withFreq a).envStep = x.envStep := by
  cases x; rfl
@[simp] theorem Voice.withFreq_envElapsed (x : Voice) (a : Half) :
    (x.withFreq a).envElapsed = x.envElapsed := by
  cases x; rfl
@[simp] theorem Voice.withFreq_envTarget (x : Voice) (a : Half) :
    (x.withFreq a).envTarget = x.envTarget := by
  cases x; rfl
@[simp] theorem Voice.withFreq_noiseSample (x : Voice) (a : Half) :
    (x.withFreq a).noiseSample = x.noiseSample := by
  cases x; rfl
@[simp] theorem Voice.withFreq_arbRd (x : Voice) (a : Half) : (x.withFreq a).arbRd = x.arbRd := by
  cases x; rfl
@[simp] theorem Voice.withFreq_arb (x : Voice) (a : Half) : (x.withFreq a).arb = x.arb := by
  cases x; rfl
@[simp] theorem Voice.withFreq_decayLevel (x : Voice) (a : Half) :
    (x.withFreq a).decayLevel = x.decayLevel := by
  cases x; rfl

/-! ## Voice.withVol -/
@[simp] theorem Voice.withVol_wave (x : Voice) (a : BitVec 8) : (x.withVol a).wave = x.wave := by
  cases x; rfl
@[simp] theorem Voice.withVol_freq (x : Voice) (a : BitVec 8) : (x.withVol a).freq = x.freq := by
  cases x; rfl
@[simp] theorem Voice.withVol_vol (x : Voice) (a : BitVec 8) : (x.withVol a).vol = a := by
  cases x; rfl
@[simp] theorem Voice.withVol_pw (x : Voice) (a : BitVec 8) : (x.withVol a).pw = x.pw := by
  cases x; rfl
@[simp] theorem Voice.withVol_attack (x : Voice) (a : BitVec 8) :
    (x.withVol a).attack = x.attack := by
  cases x; rfl
@[simp] theorem Voice.withVol_decay (x : Voice) (a : BitVec 8) :
    (x.withVol a).decay = x.decay := by
  cases x; rfl
@[simp] theorem Voice.withVol_release (x : Voice) (a : BitVec 8) :
    (x.withVol a).release = x.release := by
  cases x; rfl
@[simp] theorem Voice.withVol_sustain (x : Voice) (a : BitVec 8) :
    (x.withVol a).sustain = x.sustain := by
  cases x; rfl
@[simp] theorem Voice.withVol_phase (x : Voice) (a : BitVec 8) :
    (x.withVol a).phase = x.phase := by
  cases x; rfl
@[simp] theorem Voice.withVol_envState (x : Voice) (a : BitVec 8) :
    (x.withVol a).envState = x.envState := by
  cases x; rfl
@[simp] theorem Voice.withVol_envValue (x : Voice) (a : BitVec 8) :
    (x.withVol a).envValue = x.envValue := by
  cases x; rfl
@[simp] theorem Voice.withVol_envStep (x : Voice) (a : BitVec 8) :
    (x.withVol a).envStep = x.envStep := by
  cases x; rfl
@[simp] theorem Voice.withVol_envElapsed (x : Voice) (a : BitVec 8) :
    (x.withVol a).envElapsed = x.envElapsed := by
  cases x; rfl
@[simp] theorem Voice.withVol_envTarget (x : Voice) (a : BitVec 8) :
    (x.withVol a).envTarget = x.envTarget := by
  cases x; rfl
@[simp] theorem Voice.withVol_noiseSample (x : Voice) (a : BitVec 8) :
    (x.withVol a).noiseSample = x.noiseSample := by
  cases x; rfl
@[simp] theorem Voice.withVol_arbRd (x : Voice) (a : BitVec 8) :
    (x.withVol a).arbRd = x.arbRd := by
  cases x; rfl
@[simp] theorem Voice.withVol_arb (x : Voice) (a : BitVec 8) : (x.withVol a).arb = x.arb := by
  cases x; rfl
@[simp] theorem Voice.withVol_decayLevel (x : Voice) (a : BitVec 8) :
    (x.withVol a).decayLevel = x.decayLevel := by
  cases x; rfl

/-! ## Voice.withPw -/
@[simp] theorem Voice.withPw_wave (x : Voice) (a : Half) : (x.withPw a).wave = x.wave := by
  cases x; rfl
@[simp] theorem Voice.withPw_freq (x : Voice) (a : Half) : (x.withPw a).freq = x.freq := by
  cases x; rfl
@[simp] theorem Voice.withPw_vol (x : Voice) (a : Half) : (x.withPw a).vol = x.vol := by
  cases x; rfl
@[simp] theorem Voice.withPw_pw (x : Voice) (a : Half) : (x.withPw a).pw = a := by
  cases x; rfl
@[simp] theorem Voice.withPw_attack (x : Voice) (a : Half) : (x.withPw a).attack = x.attack := by
  cases x; rfl
@[simp] theorem Voice.withPw_decay (x : Voice) (a : Half) : (x.withPw a).decay = x.decay := by
  cases x; rfl
@[simp] theorem Voice.withPw_release (x : Voice) (a : Half) :
    (x.withPw a).release = x.release := by
  cases x; rfl
@[simp] theorem Voice.withPw_sustain (x : Voice) (a : Half) :
    (x.withPw a).sustain = x.sustain := by
  cases x; rfl
@[simp] theorem Voice.withPw_phase (x : Voice) (a : Half) : (x.withPw a).phase = x.phase := by
  cases x; rfl
@[simp] theorem Voice.withPw_envState (x : Voice) (a : Half) :
    (x.withPw a).envState = x.envState := by
  cases x; rfl
@[simp] theorem Voice.withPw_envValue (x : Voice) (a : Half) :
    (x.withPw a).envValue = x.envValue := by
  cases x; rfl
@[simp] theorem Voice.withPw_envStep (x : Voice) (a : Half) :
    (x.withPw a).envStep = x.envStep := by
  cases x; rfl
@[simp] theorem Voice.withPw_envElapsed (x : Voice) (a : Half) :
    (x.withPw a).envElapsed = x.envElapsed := by
  cases x; rfl
@[simp] theorem Voice.withPw_envTarget (x : Voice) (a : Half) :
    (x.withPw a).envTarget = x.envTarget := by
  cases x; rfl
@[simp] theorem Voice.withPw_noiseSample (x : Voice) (a : Half) :
    (x.withPw a).noiseSample = x.noiseSample := by
  cases x; rfl
@[simp] theorem Voice.withPw_arbRd (x : Voice) (a : Half) : (x.withPw a).arbRd = x.arbRd := by
  cases x; rfl
@[simp] theorem Voice.withPw_arb (x : Voice) (a : Half) : (x.withPw a).arb = x.arb := by
  cases x; rfl
@[simp] theorem Voice.withPw_decayLevel (x : Voice) (a : Half) :
    (x.withPw a).decayLevel = x.decayLevel := by
  cases x; rfl

/-! ## Voice.withAttack -/
@[simp] theorem Voice.withAttack_wave (x : Voice) (a : Half) :
    (x.withAttack a).wave = x.wave := by
  cases x; rfl
@[simp] theorem Voice.withAttack_freq (x : Voice) (a : Half) :
    (x.withAttack a).freq = x.freq := by
  cases x; rfl
@[simp] theorem Voice.withAttack_vol (x : Voice) (a : Half) : (x.withAttack a).vol = x.vol := by
  cases x; rfl
@[simp] theorem Voice.withAttack_pw (x : Voice) (a : Half) : (x.withAttack a).pw = x.pw := by
  cases x; rfl
@[simp] theorem Voice.withAttack_attack (x : Voice) (a : Half) : (x.withAttack a).attack = a := by
  cases x; rfl
@[simp] theorem Voice.withAttack_decay (x : Voice) (a : Half) :
    (x.withAttack a).decay = x.decay := by
  cases x; rfl
@[simp] theorem Voice.withAttack_release (x : Voice) (a : Half) :
    (x.withAttack a).release = x.release := by
  cases x; rfl
@[simp] theorem Voice.withAttack_sustain (x : Voice) (a : Half) :
    (x.withAttack a).sustain = x.sustain := by
  cases x; rfl
@[simp] theorem Voice.withAttack_phase (x : Voice) (a : Half) :
    (x.withAttack a).phase = x.phase := by
  cases x; rfl
@[simp] theorem Voice.withAttack_envState (x : Voice) (a : Half) :
    (x.withAttack a).envState = x.envState := by
  cases x; rfl
@[simp] theorem Voice.withAttack_envValue (x : Voice) (a : Half) :
    (x.withAttack a).envValue = x.envValue := by
  cases x; rfl
@[simp] theorem Voice.withAttack_envStep (x : Voice) (a : Half) :
    (x.withAttack a).envStep = x.envStep := by
  cases x; rfl
@[simp] theorem Voice.withAttack_envElapsed (x : Voice) (a : Half) :
    (x.withAttack a).envElapsed = x.envElapsed := by
  cases x; rfl
@[simp] theorem Voice.withAttack_envTarget (x : Voice) (a : Half) :
    (x.withAttack a).envTarget = x.envTarget := by
  cases x; rfl
@[simp] theorem Voice.withAttack_noiseSample (x : Voice) (a : Half) :
    (x.withAttack a).noiseSample = x.noiseSample := by
  cases x; rfl
@[simp] theorem Voice.withAttack_arbRd (x : Voice) (a : Half) :
    (x.withAttack a).arbRd = x.arbRd := by
  cases x; rfl
@[simp] theorem Voice.withAttack_arb (x : Voice) (a : Half) : (x.withAttack a).arb = x.arb := by
  cases x; rfl
@[simp] theorem Voice.withAttack_decayLevel (x : Voice) (a : Half) :
    (x.withAttack a).decayLevel = x.decayLevel := by
  cases x; rfl

/-! ## Voice.withDecay -/
@[simp] theorem Voice.withDecay_wave (x : Voice) (a : Half) : (x.withDecay a).wave = x.wave := by
  cases x; rfl
@[simp] theorem Voice.withDecay_freq (x : Voice) (a : Half) : (x.withDecay a).freq = x.freq := by
  cases x; rfl
@[simp] theorem Voice.withDecay_vol (x : Voice) (a : Half) : (x.withDecay a).vol = x.vol := by
  cases x; rfl
@[simp] theorem Voice.withDecay_pw (x : Voice) (a : Half) : (x.withDecay a).pw = x.pw := by
  cases x; rfl
@[simp] theorem Voice.withDecay_attack (x : Voice) (a : Half) :
    (x.withDecay a).attack = x.attack := by
  cases x; rfl
@[simp] theorem Voice.withDecay_decay (x : Voice) (a : Half) : (x.withDecay a).decay = a := by
  cases x; rfl
@[simp] theorem Voice.withDecay_release (x : Voice) (a : Half) :
    (x.withDecay a).release = x.release := by
  cases x; rfl
@[simp] theorem Voice.withDecay_sustain (x : Voice) (a : Half) :
    (x.withDecay a).sustain = x.sustain := by
  cases x; rfl
@[simp] theorem Voice.withDecay_phase (x : Voice) (a : Half) :
    (x.withDecay a).phase = x.phase := by
  cases x; rfl
@[simp] theorem Voice.withDecay_envState (x : Voice) (a : Half) :
    (x.withDecay a).envState = x.envState := by
  cases x; rfl
@[simp] theorem Voice.withDecay_envValue (x : Voice) (a : Half) :
    (x.withDecay a).envValue = x.envValue := by
  cases x; rfl
@[simp] theorem Voice.withDecay_envStep (x : Voice) (a : Half) :
    (x.withDecay a).envStep = x.envStep := by
  cases x; rfl
@[simp] theorem Voice.withDecay_envElapsed (x : Voice) (a : Half) :
    (x.withDecay a).envElapsed = x.envElapsed := by
  cases x; rfl
@[simp] theorem Voice.withDecay_envTarget (x : Voice) (a : Half) :
    (x.withDecay a).envTarget = x.envTarget := by
  cases x; rfl
@[simp] theorem Voice.withDecay_noiseSample (x : Voice) (a : Half) :
    (x.withDecay a).noiseSample = x.noiseSample := by
  cases x; rfl
@[simp] theorem Voice.withDecay_arbRd (x : Voice) (a : Half) :
    (x.withDecay a).arbRd = x.arbRd := by
  cases x; rfl
@[simp] theorem Voice.withDecay_arb (x : Voice) (a : Half) : (x.withDecay a).arb = x.arb := by
  cases x; rfl
@[simp] theorem Voice.withDecay_decayLevel (x : Voice) (a : Half) :
    (x.withDecay a).decayLevel = x.decayLevel := by
  cases x; rfl

/-! ## Voice.withRelease -/
@[simp] theorem Voice.withRelease_wave (x : Voice) (a : Half) :
    (x.withRelease a).wave = x.wave := by
  cases x; rfl
@[simp] theorem Voice.withRelease_freq (x : Voice) (a : Half) :
    (x.withRelease a).freq = x.freq := by
  cases x; rfl
@[simp] theorem Voice.withRelease_vol (x : Voice) (a : Half) : (x.withRelease a).vol = x.vol := by
  cases x; rfl
@[simp] theorem Voice.withRelease_pw (x : Voice) (a : Half) : (x.withRelease a).pw = x.pw := by
  cases x; rfl
@[simp] theorem Voice.withRelease_attack (x : Voice) (a : Half) :
    (x.withRelease a).attack = x.attack := by
  cases x; rfl
@[simp] theorem Voice.withRelease_decay (x : Voice) (a : Half) :
    (x.withRelease a).decay = x.decay := by
  cases x; rfl
@[simp] theorem Voice.withRelease_release (x : Voice) (a : Half) :
    (x.withRelease a).release = a := by
  cases x; rfl
@[simp] theorem Voice.withRelease_sustain (x : Voice) (a : Half) :
    (x.withRelease a).sustain = x.sustain := by
  cases x; rfl
@[simp] theorem Voice.withRelease_phase (x : Voice) (a : Half) :
    (x.withRelease a).phase = x.phase := by
  cases x; rfl
@[simp] theorem Voice.withRelease_envState (x : Voice) (a : Half) :
    (x.withRelease a).envState = x.envState := by
  cases x; rfl
@[simp] theorem Voice.withRelease_envValue (x : Voice) (a : Half) :
    (x.withRelease a).envValue = x.envValue := by
  cases x; rfl
@[simp] theorem Voice.withRelease_envStep (x : Voice) (a : Half) :
    (x.withRelease a).envStep = x.envStep := by
  cases x; rfl
@[simp] theorem Voice.withRelease_envElapsed (x : Voice) (a : Half) :
    (x.withRelease a).envElapsed = x.envElapsed := by
  cases x; rfl
@[simp] theorem Voice.withRelease_envTarget (x : Voice) (a : Half) :
    (x.withRelease a).envTarget = x.envTarget := by
  cases x; rfl
@[simp] theorem Voice.withRelease_noiseSample (x : Voice) (a : Half) :
    (x.withRelease a).noiseSample = x.noiseSample := by
  cases x; rfl
@[simp] theorem Voice.withRelease_arbRd (x : Voice) (a : Half) :
    (x.withRelease a).arbRd = x.arbRd := by
  cases x; rfl
@[simp] theorem Voice.withRelease_arb (x : Voice) (a : Half) : (x.withRelease a).arb = x.arb := by
  cases x; rfl
@[simp] theorem Voice.withRelease_decayLevel (x : Voice) (a : Half) :
    (x.withRelease a).decayLevel = x.decayLevel := by
  cases x; rfl

/-! ## Voice.withPhase -/
@[simp] theorem Voice.withPhase_wave (x : Voice) (a : Word) : (x.withPhase a).wave = x.wave := by
  cases x; rfl
@[simp] theorem Voice.withPhase_freq (x : Voice) (a : Word) : (x.withPhase a).freq = x.freq := by
  cases x; rfl
@[simp] theorem Voice.withPhase_vol (x : Voice) (a : Word) : (x.withPhase a).vol = x.vol := by
  cases x; rfl
@[simp] theorem Voice.withPhase_pw (x : Voice) (a : Word) : (x.withPhase a).pw = x.pw := by
  cases x; rfl
@[simp] theorem Voice.withPhase_attack (x : Voice) (a : Word) :
    (x.withPhase a).attack = x.attack := by
  cases x; rfl
@[simp] theorem Voice.withPhase_decay (x : Voice) (a : Word) :
    (x.withPhase a).decay = x.decay := by
  cases x; rfl
@[simp] theorem Voice.withPhase_release (x : Voice) (a : Word) :
    (x.withPhase a).release = x.release := by
  cases x; rfl
@[simp] theorem Voice.withPhase_sustain (x : Voice) (a : Word) :
    (x.withPhase a).sustain = x.sustain := by
  cases x; rfl
@[simp] theorem Voice.withPhase_phase (x : Voice) (a : Word) : (x.withPhase a).phase = a := by
  cases x; rfl
@[simp] theorem Voice.withPhase_envState (x : Voice) (a : Word) :
    (x.withPhase a).envState = x.envState := by
  cases x; rfl
@[simp] theorem Voice.withPhase_envValue (x : Voice) (a : Word) :
    (x.withPhase a).envValue = x.envValue := by
  cases x; rfl
@[simp] theorem Voice.withPhase_envStep (x : Voice) (a : Word) :
    (x.withPhase a).envStep = x.envStep := by
  cases x; rfl
@[simp] theorem Voice.withPhase_envElapsed (x : Voice) (a : Word) :
    (x.withPhase a).envElapsed = x.envElapsed := by
  cases x; rfl
@[simp] theorem Voice.withPhase_envTarget (x : Voice) (a : Word) :
    (x.withPhase a).envTarget = x.envTarget := by
  cases x; rfl
@[simp] theorem Voice.withPhase_noiseSample (x : Voice) (a : Word) :
    (x.withPhase a).noiseSample = x.noiseSample := by
  cases x; rfl
@[simp] theorem Voice.withPhase_arbRd (x : Voice) (a : Word) :
    (x.withPhase a).arbRd = x.arbRd := by
  cases x; rfl
@[simp] theorem Voice.withPhase_arb (x : Voice) (a : Word) : (x.withPhase a).arb = x.arb := by
  cases x; rfl
@[simp] theorem Voice.withPhase_decayLevel (x : Voice) (a : Word) :
    (x.withPhase a).decayLevel = x.decayLevel := by
  cases x; rfl

/-! ## Voice.withSustain -/
@[simp] theorem Voice.withSustain_wave (x : Voice) (a : BitVec 9) :
    (x.withSustain a).wave = x.wave := by
  cases x; rfl
@[simp] theorem Voice.withSustain_freq (x : Voice) (a : BitVec 9) :
    (x.withSustain a).freq = x.freq := by
  cases x; rfl
@[simp] theorem Voice.withSustain_vol (x : Voice) (a : BitVec 9) :
    (x.withSustain a).vol = x.vol := by
  cases x; rfl
@[simp] theorem Voice.withSustain_pw (x : Voice) (a : BitVec 9) :
    (x.withSustain a).pw = x.pw := by
  cases x; rfl
@[simp] theorem Voice.withSustain_attack (x : Voice) (a : BitVec 9) :
    (x.withSustain a).attack = x.attack := by
  cases x; rfl
@[simp] theorem Voice.withSustain_decay (x : Voice) (a : BitVec 9) :
    (x.withSustain a).decay = x.decay := by
  cases x; rfl
@[simp] theorem Voice.withSustain_release (x : Voice) (a : BitVec 9) :
    (x.withSustain a).release = x.release := by
  cases x; rfl
@[simp] theorem Voice.withSustain_sustain (x : Voice) (a : BitVec 9) :
    (x.withSustain a).sustain = a := by
  cases x; rfl
@[simp] theorem Voice.withSustain_phase (x : Voice) (a : BitVec 9) :
    (x.withSustain a).phase = x.phase := by
  cases x; rfl
@[simp] theorem Voice.withSustain_envState (x : Voice) (a : BitVec 9) :
    (x.withSustain a).envState = x.envState := by
  cases x; rfl
@[simp] theorem Voice.withSustain_envValue (x : Voice) (a : BitVec 9) :
    (x.withSustain a).envValue = x.envValue := by
  cases x; rfl
@[simp] theorem Voice.withSustain_envStep (x : Voice) (a : BitVec 9) :
    (x.withSustain a).envStep = x.envStep := by
  cases x; rfl
@[simp] theorem Voice.withSustain_envElapsed (x : Voice) (a : BitVec 9) :
    (x.withSustain a).envElapsed = x.envElapsed := by
  cases x; rfl
@[simp] theorem Voice.withSustain_envTarget (x : Voice) (a : BitVec 9) :
    (x.withSustain a).envTarget = x.envTarget := by
  cases x; rfl
@[simp] theorem Voice.withSustain_noiseSample (x : Voice) (a : BitVec 9) :
    (x.withSustain a).noiseSample = x.noiseSample := by
  cases x; rfl
@[simp] theorem Voice.withSustain_arbRd (x : Voice) (a : BitVec 9) :
    (x.withSustain a).arbRd = x.arbRd := by
  cases x; rfl
@[simp] theorem Voice.withSustain_arb (x : Voice) (a : BitVec 9) :
    (x.withSustain a).arb = x.arb := by
  cases x; rfl
@[simp] theorem Voice.withSustain_decayLevel (x : Voice) (a : BitVec 9) :
    (x.withSustain a).decayLevel = x.decayLevel := by
  cases x; rfl

/-! ## Voice.withNoiseSample -/
@[simp] theorem Voice.withNoiseSample_wave (x : Voice) (a : Half) :
    (x.withNoiseSample a).wave = x.wave := by
  cases x; rfl
@[simp] theorem Voice.withNoiseSample_freq (x : Voice) (a : Half) :
    (x.withNoiseSample a).freq = x.freq := by
  cases x; rfl
@[simp] theorem Voice.withNoiseSample_vol (x : Voice) (a : Half) :
    (x.withNoiseSample a).vol = x.vol := by
  cases x; rfl
@[simp] theorem Voice.withNoiseSample_pw (x : Voice) (a : Half) :
    (x.withNoiseSample a).pw = x.pw := by
  cases x; rfl
@[simp] theorem Voice.withNoiseSample_attack (x : Voice) (a : Half) :
    (x.withNoiseSample a).attack = x.attack := by
  cases x; rfl
@[simp] theorem Voice.withNoiseSample_decay (x : Voice) (a : Half) :
    (x.withNoiseSample a).decay = x.decay := by
  cases x; rfl
@[simp] theorem Voice.withNoiseSample_release (x : Voice) (a : Half) :
    (x.withNoiseSample a).release = x.release := by
  cases x; rfl
@[simp] theorem Voice.withNoiseSample_sustain (x : Voice) (a : Half) :
    (x.withNoiseSample a).sustain = x.sustain := by
  cases x; rfl
@[simp] theorem Voice.withNoiseSample_phase (x : Voice) (a : Half) :
    (x.withNoiseSample a).phase = x.phase := by
  cases x; rfl
@[simp] theorem Voice.withNoiseSample_envState (x : Voice) (a : Half) :
    (x.withNoiseSample a).envState = x.envState := by
  cases x; rfl
@[simp] theorem Voice.withNoiseSample_envValue (x : Voice) (a : Half) :
    (x.withNoiseSample a).envValue = x.envValue := by
  cases x; rfl
@[simp] theorem Voice.withNoiseSample_envStep (x : Voice) (a : Half) :
    (x.withNoiseSample a).envStep = x.envStep := by
  cases x; rfl
@[simp] theorem Voice.withNoiseSample_envElapsed (x : Voice) (a : Half) :
    (x.withNoiseSample a).envElapsed = x.envElapsed := by
  cases x; rfl
@[simp] theorem Voice.withNoiseSample_envTarget (x : Voice) (a : Half) :
    (x.withNoiseSample a).envTarget = x.envTarget := by
  cases x; rfl
@[simp] theorem Voice.withNoiseSample_noiseSample (x : Voice) (a : Half) :
    (x.withNoiseSample a).noiseSample = a := by
  cases x; rfl
@[simp] theorem Voice.withNoiseSample_arbRd (x : Voice) (a : Half) :
    (x.withNoiseSample a).arbRd = x.arbRd := by
  cases x; rfl
@[simp] theorem Voice.withNoiseSample_arb (x : Voice) (a : Half) :
    (x.withNoiseSample a).arb = x.arb := by
  cases x; rfl
@[simp] theorem Voice.withNoiseSample_decayLevel (x : Voice) (a : Half) :
    (x.withNoiseSample a).decayLevel = x.decayLevel := by
  cases x; rfl

/-! ## Voice.withArb -/
@[simp] theorem Voice.withArb_wave (x : Voice) (a : Memory) (b : BitVec 9) :
    (x.withArb a b).wave = x.wave := by
  cases x; rfl
@[simp] theorem Voice.withArb_freq (x : Voice) (a : Memory) (b : BitVec 9) :
    (x.withArb a b).freq = x.freq := by
  cases x; rfl
@[simp] theorem Voice.withArb_vol (x : Voice) (a : Memory) (b : BitVec 9) :
    (x.withArb a b).vol = x.vol := by
  cases x; rfl
@[simp] theorem Voice.withArb_pw (x : Voice) (a : Memory) (b : BitVec 9) :
    (x.withArb a b).pw = x.pw := by
  cases x; rfl
@[simp] theorem Voice.withArb_attack (x : Voice) (a : Memory) (b : BitVec 9) :
    (x.withArb a b).attack = x.attack := by
  cases x; rfl
@[simp] theorem Voice.withArb_decay (x : Voice) (a : Memory) (b : BitVec 9) :
    (x.withArb a b).decay = x.decay := by
  cases x; rfl
@[simp] theorem Voice.withArb_release (x : Voice) (a : Memory) (b : BitVec 9) :
    (x.withArb a b).release = x.release := by
  cases x; rfl
@[simp] theorem Voice.withArb_sustain (x : Voice) (a : Memory) (b : BitVec 9) :
    (x.withArb a b).sustain = x.sustain := by
  cases x; rfl
@[simp] theorem Voice.withArb_phase (x : Voice) (a : Memory) (b : BitVec 9) :
    (x.withArb a b).phase = x.phase := by
  cases x; rfl
@[simp] theorem Voice.withArb_envState (x : Voice) (a : Memory) (b : BitVec 9) :
    (x.withArb a b).envState = x.envState := by
  cases x; rfl
@[simp] theorem Voice.withArb_envValue (x : Voice) (a : Memory) (b : BitVec 9) :
    (x.withArb a b).envValue = x.envValue := by
  cases x; rfl
@[simp] theorem Voice.withArb_envStep (x : Voice) (a : Memory) (b : BitVec 9) :
    (x.withArb a b).envStep = x.envStep := by
  cases x; rfl
@[simp] theorem Voice.withArb_envElapsed (x : Voice) (a : Memory) (b : BitVec 9) :
    (x.withArb a b).envElapsed = x.envElapsed := by
  cases x; rfl
@[simp] theorem Voice.withArb_envTarget (x : Voice) (a : Memory) (b : BitVec 9) :
    (x.withArb a b).envTarget = x.envTarget := by
  cases x; rfl
@[simp] theorem Voice.withArb_noiseSample (x : Voice) (a : Memory) (b : BitVec 9) :
    (x.withArb a b).noiseSample = x.noiseSample := by
  cases x; rfl
@[simp] theorem Voice.withArb_arbRd (x : Voice) (a : Memory) (b : BitVec 9) :
    (x.withArb a b).arbRd = b := by
  cases x; rfl
@[simp] theorem Voice.withArb_arb (x : Voice) (a : Memory) (b : BitVec 9) :
    (x.withArb a b).arb = a := by
  cases x; rfl
@[simp] theorem Voice.withArb_decayLevel (x : Voice) (a : Memory) (b : BitVec 9) :
    (x.withArb a b).decayLevel = x.decayLevel := by
  cases x; rfl

/-! ## Voice.withValue -/
@[simp] theorem Voice.withValue_wave (x : Voice) (a : BitVec 31) :
    (x.withValue a).wave = x.wave := by
  cases x; rfl
@[simp] theorem Voice.withValue_freq (x : Voice) (a : BitVec 31) :
    (x.withValue a).freq = x.freq := by
  cases x; rfl
@[simp] theorem Voice.withValue_vol (x : Voice) (a : BitVec 31) :
    (x.withValue a).vol = x.vol := by
  cases x; rfl
@[simp] theorem Voice.withValue_pw (x : Voice) (a : BitVec 31) : (x.withValue a).pw = x.pw := by
  cases x; rfl
@[simp] theorem Voice.withValue_attack (x : Voice) (a : BitVec 31) :
    (x.withValue a).attack = x.attack := by
  cases x; rfl
@[simp] theorem Voice.withValue_decay (x : Voice) (a : BitVec 31) :
    (x.withValue a).decay = x.decay := by
  cases x; rfl
@[simp] theorem Voice.withValue_release (x : Voice) (a : BitVec 31) :
    (x.withValue a).release = x.release := by
  cases x; rfl
@[simp] theorem Voice.withValue_sustain (x : Voice) (a : BitVec 31) :
    (x.withValue a).sustain = x.sustain := by
  cases x; rfl
@[simp] theorem Voice.withValue_phase (x : Voice) (a : BitVec 31) :
    (x.withValue a).phase = x.phase := by
  cases x; rfl
@[simp] theorem Voice.withValue_envState (x : Voice) (a : BitVec 31) :
    (x.withValue a).envState = x.envState := by
  cases x; rfl
@[simp] theorem Voice.withValue_envValue (x : Voice) (a : BitVec 31) :
    (x.withValue a).envValue = a := by
  cases x; rfl
@[simp] theorem Voice.withValue_envStep (x : Voice) (a : BitVec 31) :
    (x.withValue a).envStep = x.envStep := by
  cases x; rfl
@[simp] theorem Voice.withValue_envElapsed (x : Voice) (a : BitVec 31) :
    (x.withValue a).envElapsed = x.envElapsed := by
  cases x; rfl
@[simp] theorem Voice.withValue_envTarget (x : Voice) (a : BitVec 31) :
    (x.withValue a).envTarget = x.envTarget := by
  cases x; rfl
@[simp] theorem Voice.withValue_noiseSample (x : Voice) (a : BitVec 31) :
    (x.withValue a).noiseSample = x.noiseSample := by
  cases x; rfl
@[simp] theorem Voice.withValue_arbRd (x : Voice) (a : BitVec 31) :
    (x.withValue a).arbRd = x.arbRd := by
  cases x; rfl
@[simp] theorem Voice.withValue_arb (x : Voice) (a : BitVec 31) :
    (x.withValue a).arb = x.arb := by
  cases x; rfl
@[simp] theorem Voice.withValue_decayLevel (x : Voice) (a : BitVec 31) :
    (x.withValue a).decayLevel = x.decayLevel := by
  cases x; rfl

/-! ## Voice.withElapsed -/
@[simp] theorem Voice.withElapsed_wave (x : Voice) (a : Word) :
    (x.withElapsed a).wave = x.wave := by
  cases x; rfl
@[simp] theorem Voice.withElapsed_freq (x : Voice) (a : Word) :
    (x.withElapsed a).freq = x.freq := by
  cases x; rfl
@[simp] theorem Voice.withElapsed_vol (x : Voice) (a : Word) : (x.withElapsed a).vol = x.vol := by
  cases x; rfl
@[simp] theorem Voice.withElapsed_pw (x : Voice) (a : Word) : (x.withElapsed a).pw = x.pw := by
  cases x; rfl
@[simp] theorem Voice.withElapsed_attack (x : Voice) (a : Word) :
    (x.withElapsed a).attack = x.attack := by
  cases x; rfl
@[simp] theorem Voice.withElapsed_decay (x : Voice) (a : Word) :
    (x.withElapsed a).decay = x.decay := by
  cases x; rfl
@[simp] theorem Voice.withElapsed_release (x : Voice) (a : Word) :
    (x.withElapsed a).release = x.release := by
  cases x; rfl
@[simp] theorem Voice.withElapsed_sustain (x : Voice) (a : Word) :
    (x.withElapsed a).sustain = x.sustain := by
  cases x; rfl
@[simp] theorem Voice.withElapsed_phase (x : Voice) (a : Word) :
    (x.withElapsed a).phase = x.phase := by
  cases x; rfl
@[simp] theorem Voice.withElapsed_envState (x : Voice) (a : Word) :
    (x.withElapsed a).envState = x.envState := by
  cases x; rfl
@[simp] theorem Voice.withElapsed_envValue (x : Voice) (a : Word) :
    (x.withElapsed a).envValue = x.envValue := by
  cases x; rfl
@[simp] theorem Voice.withElapsed_envStep (x : Voice) (a : Word) :
    (x.withElapsed a).envStep = x.envStep := by
  cases x; rfl
@[simp] theorem Voice.withElapsed_envElapsed (x : Voice) (a : Word) :
    (x.withElapsed a).envElapsed = a := by
  cases x; rfl
@[simp] theorem Voice.withElapsed_envTarget (x : Voice) (a : Word) :
    (x.withElapsed a).envTarget = x.envTarget := by
  cases x; rfl
@[simp] theorem Voice.withElapsed_noiseSample (x : Voice) (a : Word) :
    (x.withElapsed a).noiseSample = x.noiseSample := by
  cases x; rfl
@[simp] theorem Voice.withElapsed_arbRd (x : Voice) (a : Word) :
    (x.withElapsed a).arbRd = x.arbRd := by
  cases x; rfl
@[simp] theorem Voice.withElapsed_arb (x : Voice) (a : Word) : (x.withElapsed a).arb = x.arb := by
  cases x; rfl
@[simp] theorem Voice.withElapsed_decayLevel (x : Voice) (a : Word) :
    (x.withElapsed a).decayLevel = x.decayLevel := by
  cases x; rfl

/-! ## Voice.withPhaseEntry -/
@[simp] theorem Voice.withPhaseEntry_wave (x : Voice) (a : EnvState) (b : Word) (c : Word) :
    (x.withPhaseEntry a b c).wave = x.wave := by
  cases x; rfl
@[simp] theorem Voice.withPhaseEntry_freq (x : Voice) (a : EnvState) (b : Word) (c : Word) :
    (x.withPhaseEntry a b c).freq = x.freq := by
  cases x; rfl
@[simp] theorem Voice.withPhaseEntry_vol (x : Voice) (a : EnvState) (b : Word) (c : Word) :
    (x.withPhaseEntry a b c).vol = x.vol := by
  cases x; rfl
@[simp] theorem Voice.withPhaseEntry_pw (x : Voice) (a : EnvState) (b : Word) (c : Word) :
    (x.withPhaseEntry a b c).pw = x.pw := by
  cases x; rfl
@[simp] theorem Voice.withPhaseEntry_attack (x : Voice) (a : EnvState) (b : Word) (c : Word) :
    (x.withPhaseEntry a b c).attack = x.attack := by
  cases x; rfl
@[simp] theorem Voice.withPhaseEntry_decay (x : Voice) (a : EnvState) (b : Word) (c : Word) :
    (x.withPhaseEntry a b c).decay = x.decay := by
  cases x; rfl
@[simp] theorem Voice.withPhaseEntry_release (x : Voice) (a : EnvState) (b : Word) (c : Word) :
    (x.withPhaseEntry a b c).release = x.release := by
  cases x; rfl
@[simp] theorem Voice.withPhaseEntry_sustain (x : Voice) (a : EnvState) (b : Word) (c : Word) :
    (x.withPhaseEntry a b c).sustain = x.sustain := by
  cases x; rfl
@[simp] theorem Voice.withPhaseEntry_phase (x : Voice) (a : EnvState) (b : Word) (c : Word) :
    (x.withPhaseEntry a b c).phase = x.phase := by
  cases x; rfl
@[simp] theorem Voice.withPhaseEntry_envState (x : Voice) (a : EnvState) (b : Word) (c : Word) :
    (x.withPhaseEntry a b c).envState = a := by
  cases x; rfl
@[simp] theorem Voice.withPhaseEntry_envValue (x : Voice) (a : EnvState) (b : Word) (c : Word) :
    (x.withPhaseEntry a b c).envValue = x.envValue := by
  cases x; rfl
@[simp] theorem Voice.withPhaseEntry_envStep (x : Voice) (a : EnvState) (b : Word) (c : Word) :
    (x.withPhaseEntry a b c).envStep = b := by
  cases x; rfl
@[simp] theorem Voice.withPhaseEntry_envElapsed (x : Voice) (a : EnvState) (b : Word) (c : Word) :
    (x.withPhaseEntry a b c).envElapsed = 0 := by
  cases x; rfl
@[simp] theorem Voice.withPhaseEntry_envTarget (x : Voice) (a : EnvState) (b : Word) (c : Word) :
    (x.withPhaseEntry a b c).envTarget = c := by
  cases x; rfl
@[simp] theorem Voice.withPhaseEntry_noiseSample (x : Voice) (a : EnvState) (b : Word) (c : Word) :
    (x.withPhaseEntry a b c).noiseSample = x.noiseSample := by
  cases x; rfl
@[simp] theorem Voice.withPhaseEntry_arbRd (x : Voice) (a : EnvState) (b : Word) (c : Word) :
    (x.withPhaseEntry a b c).arbRd = x.arbRd := by
  cases x; rfl
@[simp] theorem Voice.withPhaseEntry_arb (x : Voice) (a : EnvState) (b : Word) (c : Word) :
    (x.withPhaseEntry a b c).arb = x.arb := by
  cases x; rfl
@[simp] theorem Voice.withPhaseEntry_decayLevel (x : Voice) (a : EnvState) (b : Word) (c : Word) :
    (x.withPhaseEntry a b c).decayLevel = x.decayLevel := by
  cases x; rfl

/-! ## Voice.withDecayLevel -/
@[simp] theorem Voice.withDecayLevel_wave (x : Voice) (a : BitVec 9) :
    (x.withDecayLevel a).wave = x.wave := by
  cases x; rfl
@[simp] theorem Voice.withDecayLevel_freq (x : Voice) (a : BitVec 9) :
    (x.withDecayLevel a).freq = x.freq := by
  cases x; rfl
@[simp] theorem Voice.withDecayLevel_vol (x : Voice) (a : BitVec 9) :
    (x.withDecayLevel a).vol = x.vol := by
  cases x; rfl
@[simp] theorem Voice.withDecayLevel_pw (x : Voice) (a : BitVec 9) :
    (x.withDecayLevel a).pw = x.pw := by
  cases x; rfl
@[simp] theorem Voice.withDecayLevel_attack (x : Voice) (a : BitVec 9) :
    (x.withDecayLevel a).attack = x.attack := by
  cases x; rfl
@[simp] theorem Voice.withDecayLevel_decay (x : Voice) (a : BitVec 9) :
    (x.withDecayLevel a).decay = x.decay := by
  cases x; rfl
@[simp] theorem Voice.withDecayLevel_release (x : Voice) (a : BitVec 9) :
    (x.withDecayLevel a).release = x.release := by
  cases x; rfl
@[simp] theorem Voice.withDecayLevel_sustain (x : Voice) (a : BitVec 9) :
    (x.withDecayLevel a).sustain = x.sustain := by
  cases x; rfl
@[simp] theorem Voice.withDecayLevel_phase (x : Voice) (a : BitVec 9) :
    (x.withDecayLevel a).phase = x.phase := by
  cases x; rfl
@[simp] theorem Voice.withDecayLevel_envState (x : Voice) (a : BitVec 9) :
    (x.withDecayLevel a).envState = x.envState := by
  cases x; rfl
@[simp] theorem Voice.withDecayLevel_envValue (x : Voice) (a : BitVec 9) :
    (x.withDecayLevel a).envValue = x.envValue := by
  cases x; rfl
@[simp] theorem Voice.withDecayLevel_envStep (x : Voice) (a : BitVec 9) :
    (x.withDecayLevel a).envStep = x.envStep := by
  cases x; rfl
@[simp] theorem Voice.withDecayLevel_envElapsed (x : Voice) (a : BitVec 9) :
    (x.withDecayLevel a).envElapsed = x.envElapsed := by
  cases x; rfl
@[simp] theorem Voice.withDecayLevel_envTarget (x : Voice) (a : BitVec 9) :
    (x.withDecayLevel a).envTarget = x.envTarget := by
  cases x; rfl
@[simp] theorem Voice.withDecayLevel_noiseSample (x : Voice) (a : BitVec 9) :
    (x.withDecayLevel a).noiseSample = x.noiseSample := by
  cases x; rfl
@[simp] theorem Voice.withDecayLevel_arbRd (x : Voice) (a : BitVec 9) :
    (x.withDecayLevel a).arbRd = x.arbRd := by
  cases x; rfl
@[simp] theorem Voice.withDecayLevel_arb (x : Voice) (a : BitVec 9) :
    (x.withDecayLevel a).arb = x.arb := by
  cases x; rfl
@[simp] theorem Voice.withDecayLevel_decayLevel (x : Voice) (a : BitVec 9) :
    (x.withDecayLevel a).decayLevel = a := by
  cases x; rfl

/-! ## Sequencer.withTiming -/
@[simp] theorem Sequencer.withTiming_playing (q : Sequencer) (a : Word) (b : BitVec 14) :
    (q.withTiming a b).playing = q.playing := by
  cases q; rfl
@[simp] theorem Sequencer.withTiming_loop (q : Sequencer) (a : Word) (b : BitVec 14) :
    (q.withTiming a b).loop = q.loop := by
  cases q; rfl
@[simp] theorem Sequencer.withTiming_cbEn (q : Sequencer) (a : Word) (b : BitVec 14) :
    (q.withTiming a b).cbEn = q.cbEn := by
  cases q; rfl
@[simp] theorem Sequencer.withTiming_len (q : Sequencer) (a : Word) (b : BitVec 14) :
    (q.withTiming a b).len = q.len := by
  cases q; rfl
@[simp] theorem Sequencer.withTiming_voices (q : Sequencer) (a : Word) (b : BitVec 14) :
    (q.withTiming a b).voices = q.voices := by
  cases q; rfl
@[simp] theorem Sequencer.withTiming_base (q : Sequencer) (a : Word) (b : BitVec 14) :
    (q.withTiming a b).base = q.base := by
  cases q; rfl
@[simp] theorem Sequencer.withTiming_beatMs (q : Sequencer) (a : Word) (b : BitVec 14) :
    (q.withTiming a b).beatMs = b := by
  cases q; rfl
@[simp] theorem Sequencer.withTiming_start (q : Sequencer) (a : Word) (b : BitVec 14) :
    (q.withTiming a b).start = a := by
  cases q; rfl
@[simp] theorem Sequencer.withTiming_last (q : Sequencer) (a : Word) (b : BitVec 14) :
    (q.withTiming a b).last = q.last := by
  cases q; rfl
@[simp] theorem Sequencer.withTiming_beatValid (q : Sequencer) (a : Word) (b : BitVec 14) :
    (q.withTiming a b).beatValid = q.beatValid := by
  cases q; rfl

/-! ## Sequencer.withRun -/
@[simp] theorem Sequencer.withRun_playing (q : Sequencer) (a : Bool) (b : Bool) :
    (q.withRun a b).playing = a := by
  cases q; rfl
@[simp] theorem Sequencer.withRun_loop (q : Sequencer) (a : Bool) (b : Bool) :
    (q.withRun a b).loop = q.loop := by
  cases q; rfl
@[simp] theorem Sequencer.withRun_cbEn (q : Sequencer) (a : Bool) (b : Bool) :
    (q.withRun a b).cbEn = q.cbEn := by
  cases q; rfl
@[simp] theorem Sequencer.withRun_len (q : Sequencer) (a : Bool) (b : Bool) :
    (q.withRun a b).len = q.len := by
  cases q; rfl
@[simp] theorem Sequencer.withRun_voices (q : Sequencer) (a : Bool) (b : Bool) :
    (q.withRun a b).voices = q.voices := by
  cases q; rfl
@[simp] theorem Sequencer.withRun_base (q : Sequencer) (a : Bool) (b : Bool) :
    (q.withRun a b).base = q.base := by
  cases q; rfl
@[simp] theorem Sequencer.withRun_beatMs (q : Sequencer) (a : Bool) (b : Bool) :
    (q.withRun a b).beatMs = q.beatMs := by
  cases q; rfl
@[simp] theorem Sequencer.withRun_start (q : Sequencer) (a : Bool) (b : Bool) :
    (q.withRun a b).start = q.start := by
  cases q; rfl
@[simp] theorem Sequencer.withRun_last (q : Sequencer) (a : Bool) (b : Bool) :
    (q.withRun a b).last = q.last := by
  cases q; rfl
@[simp] theorem Sequencer.withRun_beatValid (q : Sequencer) (a : Bool) (b : Bool) :
    (q.withRun a b).beatValid = b := by
  cases q; rfl

/-! ## Sequencer.withBeat -/
@[simp] theorem Sequencer.withBeat_playing (q : Sequencer) (a : Word) :
    (q.withBeat a).playing = q.playing := by
  cases q; rfl
@[simp] theorem Sequencer.withBeat_loop (q : Sequencer) (a : Word) :
    (q.withBeat a).loop = q.loop := by
  cases q; rfl
@[simp] theorem Sequencer.withBeat_cbEn (q : Sequencer) (a : Word) :
    (q.withBeat a).cbEn = q.cbEn := by
  cases q; rfl
@[simp] theorem Sequencer.withBeat_len (q : Sequencer) (a : Word) :
    (q.withBeat a).len = q.len := by
  cases q; rfl
@[simp] theorem Sequencer.withBeat_voices (q : Sequencer) (a : Word) :
    (q.withBeat a).voices = q.voices := by
  cases q; rfl
@[simp] theorem Sequencer.withBeat_base (q : Sequencer) (a : Word) :
    (q.withBeat a).base = q.base := by
  cases q; rfl
@[simp] theorem Sequencer.withBeat_beatMs (q : Sequencer) (a : Word) :
    (q.withBeat a).beatMs = q.beatMs := by
  cases q; rfl
@[simp] theorem Sequencer.withBeat_start (q : Sequencer) (a : Word) :
    (q.withBeat a).start = q.start := by
  cases q; rfl
@[simp] theorem Sequencer.withBeat_last (q : Sequencer) (a : Word) : (q.withBeat a).last = a := by
  cases q; rfl
@[simp] theorem Sequencer.withBeat_beatValid (q : Sequencer) (a : Word) :
    (q.withBeat a).beatValid = true := by
  cases q; rfl

/-! ## Sequencer.withTable -/
@[simp] theorem Sequencer.withTable_playing (q : Sequencer) (a : BitVec 7) (b : Half) (c : Half) :
    (q.withTable a b c).playing = q.playing := by
  cases q; rfl
@[simp] theorem Sequencer.withTable_loop (q : Sequencer) (a : BitVec 7) (b : Half) (c : Half) :
    (q.withTable a b c).loop = q.loop := by
  cases q; rfl
@[simp] theorem Sequencer.withTable_cbEn (q : Sequencer) (a : BitVec 7) (b : Half) (c : Half) :
    (q.withTable a b c).cbEn = q.cbEn := by
  cases q; rfl
@[simp] theorem Sequencer.withTable_len (q : Sequencer) (a : BitVec 7) (b : Half) (c : Half) :
    (q.withTable a b c).len = b := by
  cases q; rfl
@[simp] theorem Sequencer.withTable_voices (q : Sequencer) (a : BitVec 7) (b : Half) (c : Half) :
    (q.withTable a b c).voices = a := by
  cases q; rfl
@[simp] theorem Sequencer.withTable_base (q : Sequencer) (a : BitVec 7) (b : Half) (c : Half) :
    (q.withTable a b c).base = c := by
  cases q; rfl
@[simp] theorem Sequencer.withTable_beatMs (q : Sequencer) (a : BitVec 7) (b : Half) (c : Half) :
    (q.withTable a b c).beatMs = q.beatMs := by
  cases q; rfl
@[simp] theorem Sequencer.withTable_start (q : Sequencer) (a : BitVec 7) (b : Half) (c : Half) :
    (q.withTable a b c).start = q.start := by
  cases q; rfl
@[simp] theorem Sequencer.withTable_last (q : Sequencer) (a : BitVec 7) (b : Half) (c : Half) :
    (q.withTable a b c).last = q.last := by
  cases q; rfl
@[simp] theorem Sequencer.withTable_beatValid (q : Sequencer) (a : BitVec 7) (b : Half) (c : Half) :
    (q.withTable a b c).beatValid = false := by
  cases q; rfl

/-! ## Sequencer.withStart -/
@[simp] theorem Sequencer.withStart_playing (q : Sequencer) (a : Bool) (b : Word) :
    (q.withStart a b).playing = true := by
  cases q; rfl
@[simp] theorem Sequencer.withStart_loop (q : Sequencer) (a : Bool) (b : Word) :
    (q.withStart a b).loop = a := by
  cases q; rfl
@[simp] theorem Sequencer.withStart_cbEn (q : Sequencer) (a : Bool) (b : Word) :
    (q.withStart a b).cbEn = q.cbEn := by
  cases q; rfl
@[simp] theorem Sequencer.withStart_len (q : Sequencer) (a : Bool) (b : Word) :
    (q.withStart a b).len = q.len := by
  cases q; rfl
@[simp] theorem Sequencer.withStart_voices (q : Sequencer) (a : Bool) (b : Word) :
    (q.withStart a b).voices = q.voices := by
  cases q; rfl
@[simp] theorem Sequencer.withStart_base (q : Sequencer) (a : Bool) (b : Word) :
    (q.withStart a b).base = q.base := by
  cases q; rfl
@[simp] theorem Sequencer.withStart_beatMs (q : Sequencer) (a : Bool) (b : Word) :
    (q.withStart a b).beatMs = q.beatMs := by
  cases q; rfl
@[simp] theorem Sequencer.withStart_start (q : Sequencer) (a : Bool) (b : Word) :
    (q.withStart a b).start = b := by
  cases q; rfl
@[simp] theorem Sequencer.withStart_last (q : Sequencer) (a : Bool) (b : Word) :
    (q.withStart a b).last = q.last := by
  cases q; rfl
@[simp] theorem Sequencer.withStart_beatValid (q : Sequencer) (a : Bool) (b : Word) :
    (q.withStart a b).beatValid = false := by
  cases q; rfl

/-! ## Sequencer.withCbEn -/
@[simp] theorem Sequencer.withCbEn_playing (q : Sequencer) (a : Bool) :
    (q.withCbEn a).playing = q.playing := by
  cases q; rfl
@[simp] theorem Sequencer.withCbEn_loop (q : Sequencer) (a : Bool) :
    (q.withCbEn a).loop = q.loop := by
  cases q; rfl
@[simp] theorem Sequencer.withCbEn_cbEn (q : Sequencer) (a : Bool) : (q.withCbEn a).cbEn = a := by
  cases q; rfl
@[simp] theorem Sequencer.withCbEn_len (q : Sequencer) (a : Bool) :
    (q.withCbEn a).len = q.len := by
  cases q; rfl
@[simp] theorem Sequencer.withCbEn_voices (q : Sequencer) (a : Bool) :
    (q.withCbEn a).voices = q.voices := by
  cases q; rfl
@[simp] theorem Sequencer.withCbEn_base (q : Sequencer) (a : Bool) :
    (q.withCbEn a).base = q.base := by
  cases q; rfl
@[simp] theorem Sequencer.withCbEn_beatMs (q : Sequencer) (a : Bool) :
    (q.withCbEn a).beatMs = q.beatMs := by
  cases q; rfl
@[simp] theorem Sequencer.withCbEn_start (q : Sequencer) (a : Bool) :
    (q.withCbEn a).start = q.start := by
  cases q; rfl
@[simp] theorem Sequencer.withCbEn_last (q : Sequencer) (a : Bool) :
    (q.withCbEn a).last = q.last := by
  cases q; rfl
@[simp] theorem Sequencer.withCbEn_beatValid (q : Sequencer) (a : Bool) :
    (q.withCbEn a).beatValid = q.beatValid := by
  cases q; rfl

/-! ## Port.withPending -/
@[simp] theorem Port.withPending_pending (p : Port) (a : List HostInput) :
    (p.withPending a).pending = a := by
  cases p; rfl
@[simp] theorem Port.withPending_refills (p : Port) (a : List HostInput) :
    (p.withPending a).refills = p.refills := by
  cases p; rfl
@[simp] theorem Port.withPending_refillCount (p : Port) (a : List HostInput) :
    (p.withPending a).refillCount = p.refillCount := by
  cases p; rfl
@[simp] theorem Port.withPending_rdata (p : Port) (a : List HostInput) :
    (p.withPending a).rdata = p.rdata := by
  cases p; rfl
@[simp] theorem Port.withPending_events (p : Port) (a : List HostInput) :
    (p.withPending a).events = p.events := by
  cases p; rfl

/-! ## Port.withResponse -/
@[simp] theorem Port.withResponse_pending (p : Port) (a : Word) (b : List Event) :
    (p.withResponse a b).pending = p.pending := by
  cases p; rfl
@[simp] theorem Port.withResponse_refills (p : Port) (a : Word) (b : List Event) :
    (p.withResponse a b).refills = p.refills := by
  cases p; rfl
@[simp] theorem Port.withResponse_refillCount (p : Port) (a : Word) (b : List Event) :
    (p.withResponse a b).refillCount = p.refillCount := by
  cases p; rfl
@[simp] theorem Port.withResponse_rdata (p : Port) (a : Word) (b : List Event) :
    (p.withResponse a b).rdata = a := by
  cases p; rfl
@[simp] theorem Port.withResponse_events (p : Port) (a : Word) (b : List Event) :
    (p.withResponse a b).events = b := by
  cases p; rfl

/-! ## Port.withRefills -/
@[simp] theorem Port.withRefills_pending (p : Port) (a : List (List Half)) (b : Nat) :
    (p.withRefills a b).pending = p.pending := by
  cases p; rfl
@[simp] theorem Port.withRefills_refills (p : Port) (a : List (List Half)) (b : Nat) :
    (p.withRefills a b).refills = a := by
  cases p; rfl
@[simp] theorem Port.withRefills_refillCount (p : Port) (a : List (List Half)) (b : Nat) :
    (p.withRefills a b).refillCount = b := by
  cases p; rfl
@[simp] theorem Port.withRefills_rdata (p : Port) (a : List (List Half)) (b : Nat) :
    (p.withRefills a b).rdata = p.rdata := by
  cases p; rfl
@[simp] theorem Port.withRefills_events (p : Port) (a : List (List Half)) (b : Nat) :
    (p.withRefills a b).events = p.events := by
  cases p; rfl

/-! ## State.begin -/
@[simp] theorem State.begin_params (s : State) : s.begin.params = s.params := by
  simp only [State.begin, State.withPort_params]
@[simp] theorem State.begin_g (s : State) : s.begin.g = s.g := by
  simp only [State.begin, State.withPort_g]
@[simp] theorem State.begin_voices (s : State) : s.begin.voices = s.voices := by
  simp only [State.begin, State.withPort_voices]
@[simp] theorem State.begin_seq (s : State) : s.begin.seq = s.seq := by
  simp only [State.begin, State.withPort_seq]
@[simp] theorem State.begin_nt (s : State) : s.begin.nt = s.nt := by
  simp only [State.begin, State.withPort_nt]
@[simp] theorem State.begin_port_pending (s : State) : s.begin.port.pending = s.port.pending := by
  simp only [State.begin, State.withPort_port, Port.withResponse_pending]
@[simp] theorem State.begin_port_refills (s : State) : s.begin.port.refills = s.port.refills := by
  simp only [State.begin, State.withPort_port, Port.withResponse_refills]
@[simp] theorem State.begin_port_refillCount (s : State) :
    s.begin.port.refillCount = s.port.refillCount := by
  simp only [State.begin, State.withPort_port, Port.withResponse_refillCount]
@[simp] theorem State.begin_port_rdata (s : State) : s.begin.port.rdata = 0 := by
  simp only [State.begin, State.withPort_port, Port.withResponse_rdata]
@[simp] theorem State.begin_port_events (s : State) : s.begin.port.events = [] := by
  simp only [State.begin, State.withPort_port, Port.withResponse_events]

/-! ## State.respond -/
@[simp] theorem State.respond_params (s : State) (a : Word) :
    (s.respond a).params = s.params := by
  simp only [State.respond, State.withPort_params]
@[simp] theorem State.respond_g (s : State) (a : Word) : (s.respond a).g = s.g := by
  simp only [State.respond, State.withPort_g]
@[simp] theorem State.respond_voices (s : State) (a : Word) :
    (s.respond a).voices = s.voices := by
  simp only [State.respond, State.withPort_voices]
@[simp] theorem State.respond_seq (s : State) (a : Word) : (s.respond a).seq = s.seq := by
  simp only [State.respond, State.withPort_seq]
@[simp] theorem State.respond_nt (s : State) (a : Word) : (s.respond a).nt = s.nt := by
  simp only [State.respond, State.withPort_nt]
@[simp] theorem State.respond_port_pending (s : State) (a : Word) :
    (s.respond a).port.pending = s.port.pending := by
  simp only [State.respond, State.withPort_port, Port.withResponse_pending]
@[simp] theorem State.respond_port_refills (s : State) (a : Word) :
    (s.respond a).port.refills = s.port.refills := by
  simp only [State.respond, State.withPort_port, Port.withResponse_refills]
@[simp] theorem State.respond_port_refillCount (s : State) (a : Word) :
    (s.respond a).port.refillCount = s.port.refillCount := by
  simp only [State.respond, State.withPort_port, Port.withResponse_refillCount]
@[simp] theorem State.respond_port_rdata (s : State) (a : Word) :
    (s.respond a).port.rdata = a := by
  simp only [State.respond, State.withPort_port, Port.withResponse_rdata]
@[simp] theorem State.respond_port_events (s : State) (a : Word) :
    (s.respond a).port.events = s.port.events := by
  simp only [State.respond, State.withPort_port, Port.withResponse_events]

/-! ## State.emit -/
@[simp] theorem State.emit_params (s : State) (e : Event) : (s.emit e).params = s.params := by
  simp only [State.emit, State.withPort_params]
@[simp] theorem State.emit_g (s : State) (e : Event) : (s.emit e).g = s.g := by
  simp only [State.emit, State.withPort_g]
@[simp] theorem State.emit_voices (s : State) (e : Event) : (s.emit e).voices = s.voices := by
  simp only [State.emit, State.withPort_voices]
@[simp] theorem State.emit_seq (s : State) (e : Event) : (s.emit e).seq = s.seq := by
  simp only [State.emit, State.withPort_seq]
@[simp] theorem State.emit_nt (s : State) (e : Event) : (s.emit e).nt = s.nt := by
  simp only [State.emit, State.withPort_nt]
@[simp] theorem State.emit_port_pending (s : State) (e : Event) :
    (s.emit e).port.pending = s.port.pending := by
  simp only [State.emit, State.withPort_port, Port.withResponse_pending]
@[simp] theorem State.emit_port_refills (s : State) (e : Event) :
    (s.emit e).port.refills = s.port.refills := by
  simp only [State.emit, State.withPort_port, Port.withResponse_refills]
@[simp] theorem State.emit_port_refillCount (s : State) (e : Event) :
    (s.emit e).port.refillCount = s.port.refillCount := by
  simp only [State.emit, State.withPort_port, Port.withResponse_refillCount]
@[simp] theorem State.emit_port_rdata (s : State) (e : Event) :
    (s.emit e).port.rdata = s.port.rdata := by
  simp only [State.emit, State.withPort_port, Port.withResponse_rdata]
@[simp] theorem State.emit_port_events (s : State) (e : Event) :
    (s.emit e).port.events = s.port.events ++ [e] := by
  simp only [State.emit, State.withPort_port, Port.withResponse_events]

/-! ## State.setVoice -/
@[simp] theorem State.setVoice_params (s : State) (v : Nat) (f : Voice → Voice) :
    (s.setVoice v f).params = s.params := by
  simp only [State.setVoice, State.withVoices_params]
@[simp] theorem State.setVoice_g (s : State) (v : Nat) (f : Voice → Voice) :
    (s.setVoice v f).g = s.g := by
  simp only [State.setVoice, State.withVoices_g]
@[simp] theorem State.setVoice_voices (s : State) (v : Nat) (f : Voice → Voice) :
    (s.setVoice v f).voices = s.voices.modify v f := by
  simp only [State.setVoice, State.withVoices_voices]
@[simp] theorem State.setVoice_seq (s : State) (v : Nat) (f : Voice → Voice) :
    (s.setVoice v f).seq = s.seq := by
  simp only [State.setVoice, State.withVoices_seq]
@[simp] theorem State.setVoice_nt (s : State) (v : Nat) (f : Voice → Voice) :
    (s.setVoice v f).nt = s.nt := by
  simp only [State.setVoice, State.withVoices_nt]
@[simp] theorem State.setVoice_port (s : State) (v : Nat) (f : Voice → Voice) :
    (s.setVoice v f).port = s.port := by
  simp only [State.setVoice, State.withVoices_port]

/-! ## State.reject -/
@[simp] theorem State.reject_params (c : ErrCode) (s : State) :
    (s.reject c).params = s.params := by
  simp only [State.reject, State.withG_params, State.begin_params]
@[simp] theorem State.reject_voices (c : ErrCode) (s : State) :
    (s.reject c).voices = s.voices := by
  simp only [State.reject, State.withG_voices, State.begin_voices]
@[simp] theorem State.reject_seq (c : ErrCode) (s : State) : (s.reject c).seq = s.seq := by
  simp only [State.reject, State.withG_seq, State.begin_seq]
@[simp] theorem State.reject_nt (c : ErrCode) (s : State) : (s.reject c).nt = s.nt := by
  simp only [State.reject, State.withG_nt, State.begin_nt]
@[simp] theorem State.reject_g_nva (c : ErrCode) (s : State) : (s.reject c).g.nva = s.g.nva := by
  simp only [State.reject, State.withG_g, Master.withErr_nva]
@[simp] theorem State.reject_g_sr (c : ErrCode) (s : State) : (s.reject c).g.sr = s.g.sr := by
  simp only [State.reject, State.withG_g, Master.withErr_sr]
@[simp] theorem State.reject_g_mvol (c : ErrCode) (s : State) :
    (s.reject c).g.mvol = s.g.mvol := by
  simp only [State.reject, State.withG_g, Master.withErr_mvol]
@[simp] theorem State.reject_g_noise (c : ErrCode) (s : State) :
    (s.reject c).g.noise = s.g.noise := by
  simp only [State.reject, State.withG_g, Master.withErr_noise]
@[simp] theorem State.reject_g_done (c : ErrCode) (s : State) :
    (s.reject c).g.done = s.g.done := by
  simp only [State.reject, State.withG_g, Master.withErr_done]
@[simp] theorem State.reject_g_err (c : ErrCode) (s : State) : (s.reject c).g.err = true := by
  simp only [State.reject, State.withG_g, Master.withErr_err]
@[simp] theorem State.reject_g_errcode (c : ErrCode) (s : State) :
    (s.reject c).g.errcode = if s.g.err then s.g.errcode else c := by
  simp only [State.reject, State.withG_g, Master.withErr_errcode]
@[simp] theorem State.reject_port_pending (c : ErrCode) (s : State) :
    (s.reject c).port.pending = s.port.pending := by
  simp only [State.reject, State.withG_port, State.begin_port_pending]
@[simp] theorem State.reject_port_refills (c : ErrCode) (s : State) :
    (s.reject c).port.refills = s.port.refills := by
  simp only [State.reject, State.withG_port, State.begin_port_refills]
@[simp] theorem State.reject_port_refillCount (c : ErrCode) (s : State) :
    (s.reject c).port.refillCount = s.port.refillCount := by
  simp only [State.reject, State.withG_port, State.begin_port_refillCount]
@[simp] theorem State.reject_port_rdata (c : ErrCode) (s : State) :
    (s.reject c).port.rdata = 0 := by
  simp only [State.reject, State.withG_port, State.begin_port_rdata]
@[simp] theorem State.reject_port_events (c : ErrCode) (s : State) :
    (s.reject c).port.events = [] := by
  simp only [State.reject, State.withG_port, State.begin_port_events]

/-! ## State.withPending -/
@[simp] theorem State.withPending_params (s : State) (l : List HostInput) :
    (s.withPending l).params = s.params := by
  simp only [State.withPending, State.withPort_params]
@[simp] theorem State.withPending_g (s : State) (l : List HostInput) :
    (s.withPending l).g = s.g := by
  simp only [State.withPending, State.withPort_g]
@[simp] theorem State.withPending_voices (s : State) (l : List HostInput) :
    (s.withPending l).voices = s.voices := by
  simp only [State.withPending, State.withPort_voices]
@[simp] theorem State.withPending_seq (s : State) (l : List HostInput) :
    (s.withPending l).seq = s.seq := by
  simp only [State.withPending, State.withPort_seq]
@[simp] theorem State.withPending_nt (s : State) (l : List HostInput) :
    (s.withPending l).nt = s.nt := by
  simp only [State.withPending, State.withPort_nt]
@[simp] theorem State.withPending_port_pending (s : State) (l : List HostInput) :
    (s.withPending l).port.pending = l := by
  simp only [State.withPending, State.withPort_port, Port.withPending_pending]
@[simp] theorem State.withPending_port_refills (s : State) (l : List HostInput) :
    (s.withPending l).port.refills = s.port.refills := by
  simp only [State.withPending, State.withPort_port, Port.withPending_refills]
@[simp] theorem State.withPending_port_refillCount (s : State) (l : List HostInput) :
    (s.withPending l).port.refillCount = s.port.refillCount := by
  simp only [State.withPending, State.withPort_port, Port.withPending_refillCount]
@[simp] theorem State.withPending_port_rdata (s : State) (l : List HostInput) :
    (s.withPending l).port.rdata = s.port.rdata := by
  simp only [State.withPending, State.withPort_port, Port.withPending_rdata]
@[simp] theorem State.withPending_port_events (s : State) (l : List HostInput) :
    (s.withPending l).port.events = s.port.events := by
  simp only [State.withPending, State.withPort_port, Port.withPending_events]

/-! ## silenceAll -/
@[simp] theorem silenceAll_params (s : State) : (silenceAll s).params = s.params := by
  simp only [silenceAll, State.withVoices_params]
@[simp] theorem silenceAll_g (s : State) : (silenceAll s).g = s.g := by
  simp only [silenceAll, State.withVoices_g]
@[simp] theorem silenceAll_voices (s : State) :
    (silenceAll s).voices = mapSlots (fun _ x => silence x) 0 s.g.nva.toNat s.voices := by
  simp only [silenceAll, State.withVoices_voices]
@[simp] theorem silenceAll_seq (s : State) : (silenceAll s).seq = s.seq := by
  simp only [silenceAll, State.withVoices_seq]
@[simp] theorem silenceAll_nt (s : State) : (silenceAll s).nt = s.nt := by
  simp only [silenceAll, State.withVoices_nt]
@[simp] theorem silenceAll_port (s : State) : (silenceAll s).port = s.port := by
  simp only [silenceAll, State.withVoices_port]

/-! ## dispatch -/
@[simp] theorem dispatch_params (c : Nat) (s : State) : (dispatch c s).params = s.params := by
  simp only [dispatch, State.withVoices_params]
@[simp] theorem dispatch_g (c : Nat) (s : State) : (dispatch c s).g = s.g := by
  simp only [dispatch, State.withVoices_g]
@[simp] theorem dispatch_seq (c : Nat) (s : State) : (dispatch c s).seq = s.seq := by
  simp only [dispatch, State.withVoices_seq]
@[simp] theorem dispatch_nt (c : Nat) (s : State) : (dispatch c s).nt = s.nt := by
  simp only [dispatch, State.withVoices_nt]
@[simp] theorem dispatch_port (c : Nat) (s : State) : (dispatch c s).port = s.port := by
  simp only [dispatch, State.withVoices_port]

/-! ## sampleResult -/
@[simp] theorem sampleResult_params (s : State) : (sampleResult s).params = s.params := by
  simp only [sampleResult, State.withPort_params, State.withG_params, State.withVoices_params]
@[simp] theorem sampleResult_voices (s : State) : (sampleResult s).voices = (sampleLoop s).1 := by
  simp only [sampleResult, State.withPort_voices, State.withG_voices, State.withVoices_voices]
@[simp] theorem sampleResult_seq (s : State) : (sampleResult s).seq = s.seq := by
  simp only [sampleResult, State.withPort_seq, State.withG_seq, State.withVoices_seq]
@[simp] theorem sampleResult_nt (s : State) : (sampleResult s).nt = s.nt := by
  simp only [sampleResult, State.withPort_nt, State.withG_nt, State.withVoices_nt]
@[simp] theorem sampleResult_g_nva (s : State) : (sampleResult s).g.nva = s.g.nva := by
  simp only [sampleResult, State.withPort_g, State.withG_g, Master.withNoise_nva]
@[simp] theorem sampleResult_g_sr (s : State) : (sampleResult s).g.sr = s.g.sr := by
  simp only [sampleResult, State.withPort_g, State.withG_g, Master.withNoise_sr]
@[simp] theorem sampleResult_g_mvol (s : State) : (sampleResult s).g.mvol = s.g.mvol := by
  simp only [sampleResult, State.withPort_g, State.withG_g, Master.withNoise_mvol]
@[simp] theorem sampleResult_g_noise (s : State) :
    (sampleResult s).g.noise = (sampleLoop s).2.noise := by
  simp only [sampleResult, State.withPort_g, State.withG_g, Master.withNoise_noise]
@[simp] theorem sampleResult_g_done (s : State) : (sampleResult s).g.done = s.g.done := by
  simp only [sampleResult, State.withPort_g, State.withG_g, Master.withNoise_done]
@[simp] theorem sampleResult_g_err (s : State) : (sampleResult s).g.err = s.g.err := by
  simp only [sampleResult, State.withPort_g, State.withG_g, Master.withNoise_err]
@[simp] theorem sampleResult_g_errcode (s : State) :
    (sampleResult s).g.errcode = s.g.errcode := by
  simp only [sampleResult, State.withPort_g, State.withG_g, Master.withNoise_errcode]
@[simp] theorem sampleResult_port_pending (s : State) :
    (sampleResult s).port.pending = s.port.pending := by
  simp only [sampleResult, State.withPort_port, Port.withResponse_pending,
    Port.withRefills_pending]
@[simp] theorem sampleResult_port_refills (s : State) :
    (sampleResult s).port.refills = (sampleLoop s).2.refills := by
  simp only [sampleResult, State.withPort_port, Port.withResponse_refills,
    Port.withRefills_refills]
@[simp] theorem sampleResult_port_refillCount (s : State) :
    (sampleResult s).port.refillCount = (sampleLoop s).2.refillCount := by
  simp only [sampleResult, State.withPort_port, Port.withResponse_refillCount,
    Port.withRefills_refillCount]
@[simp] theorem sampleResult_port_rdata (s : State) :
    (sampleResult s).port.rdata = pattern32 (mixOut (sampleLoop s).2.acc s.g.mvol) := by
  simp only [sampleResult, State.withPort_port, Port.withResponse_rdata]
@[simp] theorem sampleResult_port_events (s : State) :
    (sampleResult s).port.events = (sampleLoop s).2.events := by
  simp only [sampleResult, State.withPort_port, Port.withResponse_events]

/-! ## advancePhase -/
@[simp] theorem advancePhase_wave (sr : BitVec 20) (x : Voice) :
    (advancePhase sr x).wave = x.wave := Voice.withPhase_wave x _
@[simp] theorem advancePhase_freq (sr : BitVec 20) (x : Voice) :
    (advancePhase sr x).freq = x.freq := Voice.withPhase_freq x _
@[simp] theorem advancePhase_vol (sr : BitVec 20) (x : Voice) :
    (advancePhase sr x).vol = x.vol := Voice.withPhase_vol x _
@[simp] theorem advancePhase_pw (sr : BitVec 20) (x : Voice) : (advancePhase sr x).pw = x.pw := Voice.withPhase_pw x _
@[simp] theorem advancePhase_attack (sr : BitVec 20) (x : Voice) :
    (advancePhase sr x).attack = x.attack := Voice.withPhase_attack x _
@[simp] theorem advancePhase_decay (sr : BitVec 20) (x : Voice) :
    (advancePhase sr x).decay = x.decay := Voice.withPhase_decay x _
@[simp] theorem advancePhase_release (sr : BitVec 20) (x : Voice) :
    (advancePhase sr x).release = x.release := Voice.withPhase_release x _
@[simp] theorem advancePhase_sustain (sr : BitVec 20) (x : Voice) :
    (advancePhase sr x).sustain = x.sustain := Voice.withPhase_sustain x _
@[simp] theorem advancePhase_envState (sr : BitVec 20) (x : Voice) :
    (advancePhase sr x).envState = x.envState := Voice.withPhase_envState x _
@[simp] theorem advancePhase_envValue (sr : BitVec 20) (x : Voice) :
    (advancePhase sr x).envValue = x.envValue := Voice.withPhase_envValue x _
@[simp] theorem advancePhase_envStep (sr : BitVec 20) (x : Voice) :
    (advancePhase sr x).envStep = x.envStep := Voice.withPhase_envStep x _
@[simp] theorem advancePhase_envElapsed (sr : BitVec 20) (x : Voice) :
    (advancePhase sr x).envElapsed = x.envElapsed := Voice.withPhase_envElapsed x _
@[simp] theorem advancePhase_envTarget (sr : BitVec 20) (x : Voice) :
    (advancePhase sr x).envTarget = x.envTarget := Voice.withPhase_envTarget x _
@[simp] theorem advancePhase_noiseSample (sr : BitVec 20) (x : Voice) :
    (advancePhase sr x).noiseSample = x.noiseSample := Voice.withPhase_noiseSample x _
@[simp] theorem advancePhase_arbRd (sr : BitVec 20) (x : Voice) :
    (advancePhase sr x).arbRd = x.arbRd := Voice.withPhase_arbRd x _
@[simp] theorem advancePhase_arb (sr : BitVec 20) (x : Voice) :
    (advancePhase sr x).arb = x.arb := Voice.withPhase_arb x _
@[simp] theorem advancePhase_decayLevel (sr : BitVec 20) (x : Voice) :
    (advancePhase sr x).decayLevel = x.decayLevel := Voice.withPhase_decayLevel x _

/-! ## enter -/
@[simp] theorem enter_wave (sr : BitVec 20) (st : Timed) (ms : Half) (x : Voice) :
    (enter sr st ms x).wave = x.wave := by
  simp only [enter, Voice.withDecayLevel_wave, Voice.withPhaseEntry_wave]
@[simp] theorem enter_freq (sr : BitVec 20) (st : Timed) (ms : Half) (x : Voice) :
    (enter sr st ms x).freq = x.freq := by
  simp only [enter, Voice.withDecayLevel_freq, Voice.withPhaseEntry_freq]
@[simp] theorem enter_vol (sr : BitVec 20) (st : Timed) (ms : Half) (x : Voice) :
    (enter sr st ms x).vol = x.vol := by
  simp only [enter, Voice.withDecayLevel_vol, Voice.withPhaseEntry_vol]
@[simp] theorem enter_pw (sr : BitVec 20) (st : Timed) (ms : Half) (x : Voice) :
    (enter sr st ms x).pw = x.pw := by
  simp only [enter, Voice.withDecayLevel_pw, Voice.withPhaseEntry_pw]
@[simp] theorem enter_attack (sr : BitVec 20) (st : Timed) (ms : Half) (x : Voice) :
    (enter sr st ms x).attack = x.attack := by
  simp only [enter, Voice.withDecayLevel_attack, Voice.withPhaseEntry_attack]
@[simp] theorem enter_decay (sr : BitVec 20) (st : Timed) (ms : Half) (x : Voice) :
    (enter sr st ms x).decay = x.decay := by
  simp only [enter, Voice.withDecayLevel_decay, Voice.withPhaseEntry_decay]
@[simp] theorem enter_release (sr : BitVec 20) (st : Timed) (ms : Half) (x : Voice) :
    (enter sr st ms x).release = x.release := by
  simp only [enter, Voice.withDecayLevel_release, Voice.withPhaseEntry_release]
@[simp] theorem enter_sustain (sr : BitVec 20) (st : Timed) (ms : Half) (x : Voice) :
    (enter sr st ms x).sustain = x.sustain := by
  simp only [enter, Voice.withDecayLevel_sustain, Voice.withPhaseEntry_sustain]
@[simp] theorem enter_phase (sr : BitVec 20) (st : Timed) (ms : Half) (x : Voice) :
    (enter sr st ms x).phase = x.phase := by
  simp only [enter, Voice.withDecayLevel_phase, Voice.withPhaseEntry_phase]
@[simp] theorem enter_envState (sr : BitVec 20) (st : Timed) (ms : Half) (x : Voice) :
    (enter sr st ms x).envState = timedState st := by
  simp only [enter, Voice.withDecayLevel_envState, Voice.withPhaseEntry_envState]
@[simp] theorem enter_envValue (sr : BitVec 20) (st : Timed) (ms : Half) (x : Voice) :
    (enter sr st ms x).envValue = x.envValue := by
  simp only [enter, Voice.withDecayLevel_envValue, Voice.withPhaseEntry_envValue]
@[simp] theorem enter_envStep (sr : BitVec 20) (st : Timed) (ms : Half) (x : Voice) :
    (enter sr st ms x).envStep = 
      BitVec.ofInt 32 (stepOf (level x st) x.envValue.toNat (frames sr ms)) := by
  simp only [enter, Voice.withDecayLevel_envStep, Voice.withPhaseEntry_envStep]
@[simp] theorem enter_envElapsed (sr : BitVec 20) (st : Timed) (ms : Half) (x : Voice) :
    (enter sr st ms x).envElapsed = 0 := by
  simp only [enter, Voice.withDecayLevel_envElapsed, Voice.withPhaseEntry_envElapsed]
@[simp] theorem enter_envTarget (sr : BitVec 20) (st : Timed) (ms : Half) (x : Voice) :
    (enter sr st ms x).envTarget = BitVec.ofNat 32 (frames sr ms) := by
  simp only [enter, Voice.withDecayLevel_envTarget, Voice.withPhaseEntry_envTarget]
@[simp] theorem enter_noiseSample (sr : BitVec 20) (st : Timed) (ms : Half) (x : Voice) :
    (enter sr st ms x).noiseSample = x.noiseSample := by
  simp only [enter, Voice.withDecayLevel_noiseSample, Voice.withPhaseEntry_noiseSample]
@[simp] theorem enter_arbRd (sr : BitVec 20) (st : Timed) (ms : Half) (x : Voice) :
    (enter sr st ms x).arbRd = x.arbRd := by
  simp only [enter, Voice.withDecayLevel_arbRd, Voice.withPhaseEntry_arbRd]
@[simp] theorem enter_arb (sr : BitVec 20) (st : Timed) (ms : Half) (x : Voice) :
    (enter sr st ms x).arb = x.arb := by
  simp only [enter, Voice.withDecayLevel_arb, Voice.withPhaseEntry_arb]
@[simp] theorem enter_decayLevel (sr : BitVec 20) (st : Timed) (ms : Half) (x : Voice) :
    (enter sr st ms x).decayLevel = if st = .decay then x.sustain else x.decayLevel := by
  simp only [enter, Voice.withDecayLevel_decayLevel]

/-! ## envAdvance -/
@[simp] theorem envAdvance_wave (x : Voice) : (envAdvance x).wave = x.wave := by
  simp only [envAdvance, Voice.withElapsed_wave, Voice.withValue_wave]
@[simp] theorem envAdvance_freq (x : Voice) : (envAdvance x).freq = x.freq := by
  simp only [envAdvance, Voice.withElapsed_freq, Voice.withValue_freq]
@[simp] theorem envAdvance_vol (x : Voice) : (envAdvance x).vol = x.vol := by
  simp only [envAdvance, Voice.withElapsed_vol, Voice.withValue_vol]
@[simp] theorem envAdvance_pw (x : Voice) : (envAdvance x).pw = x.pw := by
  simp only [envAdvance, Voice.withElapsed_pw, Voice.withValue_pw]
@[simp] theorem envAdvance_attack (x : Voice) : (envAdvance x).attack = x.attack := by
  simp only [envAdvance, Voice.withElapsed_attack, Voice.withValue_attack]
@[simp] theorem envAdvance_decay (x : Voice) : (envAdvance x).decay = x.decay := by
  simp only [envAdvance, Voice.withElapsed_decay, Voice.withValue_decay]
@[simp] theorem envAdvance_release (x : Voice) : (envAdvance x).release = x.release := by
  simp only [envAdvance, Voice.withElapsed_release, Voice.withValue_release]
@[simp] theorem envAdvance_sustain (x : Voice) : (envAdvance x).sustain = x.sustain := by
  simp only [envAdvance, Voice.withElapsed_sustain, Voice.withValue_sustain]
@[simp] theorem envAdvance_phase (x : Voice) : (envAdvance x).phase = x.phase := by
  simp only [envAdvance, Voice.withElapsed_phase, Voice.withValue_phase]
@[simp] theorem envAdvance_envState (x : Voice) : (envAdvance x).envState = x.envState := by
  simp only [envAdvance, Voice.withElapsed_envState, Voice.withValue_envState]
@[simp] theorem envAdvance_envValue (x : Voice) :
    (envAdvance x).envValue = 
      BitVec.ofInt 31 ((x.envValue.toNat : Int) + x.envStep.toInt) := by
  simp only [envAdvance, Voice.withElapsed_envValue, Voice.withValue_envValue]
@[simp] theorem envAdvance_envStep (x : Voice) : (envAdvance x).envStep = x.envStep := by
  simp only [envAdvance, Voice.withElapsed_envStep, Voice.withValue_envStep]
@[simp] theorem envAdvance_envElapsed (x : Voice) :
    (envAdvance x).envElapsed = x.envElapsed + 1 := by
  simp only [envAdvance, Voice.withElapsed_envElapsed]
@[simp] theorem envAdvance_envTarget (x : Voice) : (envAdvance x).envTarget = x.envTarget := by
  simp only [envAdvance, Voice.withElapsed_envTarget, Voice.withValue_envTarget]
@[simp] theorem envAdvance_noiseSample (x : Voice) :
    (envAdvance x).noiseSample = x.noiseSample := by
  simp only [envAdvance, Voice.withElapsed_noiseSample, Voice.withValue_noiseSample]
@[simp] theorem envAdvance_arbRd (x : Voice) : (envAdvance x).arbRd = x.arbRd := by
  simp only [envAdvance, Voice.withElapsed_arbRd, Voice.withValue_arbRd]
@[simp] theorem envAdvance_arb (x : Voice) : (envAdvance x).arb = x.arb := by
  simp only [envAdvance, Voice.withElapsed_arb, Voice.withValue_arb]
@[simp] theorem envAdvance_decayLevel (x : Voice) : (envAdvance x).decayLevel = x.decayLevel := by
  simp only [envAdvance, Voice.withElapsed_decayLevel, Voice.withValue_decayLevel]

/-! ## settle -/
@[simp] theorem settle_wave (st : EnvState) (x : Voice) : (settle st x).wave = x.wave := by
  simp only [settle, Voice.withPhaseEntry_wave]
@[simp] theorem settle_freq (st : EnvState) (x : Voice) : (settle st x).freq = x.freq := by
  simp only [settle, Voice.withPhaseEntry_freq]
@[simp] theorem settle_vol (st : EnvState) (x : Voice) : (settle st x).vol = x.vol := by
  simp only [settle, Voice.withPhaseEntry_vol]
@[simp] theorem settle_pw (st : EnvState) (x : Voice) : (settle st x).pw = x.pw := by
  simp only [settle, Voice.withPhaseEntry_pw]
@[simp] theorem settle_attack (st : EnvState) (x : Voice) : (settle st x).attack = x.attack := by
  simp only [settle, Voice.withPhaseEntry_attack]
@[simp] theorem settle_decay (st : EnvState) (x : Voice) : (settle st x).decay = x.decay := by
  simp only [settle, Voice.withPhaseEntry_decay]
@[simp] theorem settle_release (st : EnvState) (x : Voice) :
    (settle st x).release = x.release := by
  simp only [settle, Voice.withPhaseEntry_release]
@[simp] theorem settle_sustain (st : EnvState) (x : Voice) :
    (settle st x).sustain = x.sustain := by
  simp only [settle, Voice.withPhaseEntry_sustain]
@[simp] theorem settle_phase (st : EnvState) (x : Voice) : (settle st x).phase = x.phase := by
  simp only [settle, Voice.withPhaseEntry_phase]
@[simp] theorem settle_envState (st : EnvState) (x : Voice) : (settle st x).envState = st := by
  simp only [settle, Voice.withPhaseEntry_envState]
@[simp] theorem settle_envValue (st : EnvState) (x : Voice) :
    (settle st x).envValue = x.envValue := by
  simp only [settle, Voice.withPhaseEntry_envValue]
@[simp] theorem settle_envStep (st : EnvState) (x : Voice) : (settle st x).envStep = 0 := by
  simp only [settle, Voice.withPhaseEntry_envStep]
@[simp] theorem settle_envElapsed (st : EnvState) (x : Voice) : (settle st x).envElapsed = 0 := by
  simp only [settle, Voice.withPhaseEntry_envElapsed]
@[simp] theorem settle_envTarget (st : EnvState) (x : Voice) : (settle st x).envTarget = 0 := by
  simp only [settle, Voice.withPhaseEntry_envTarget]
@[simp] theorem settle_noiseSample (st : EnvState) (x : Voice) :
    (settle st x).noiseSample = x.noiseSample := by
  simp only [settle, Voice.withPhaseEntry_noiseSample]
@[simp] theorem settle_arbRd (st : EnvState) (x : Voice) : (settle st x).arbRd = x.arbRd := by
  simp only [settle, Voice.withPhaseEntry_arbRd]
@[simp] theorem settle_arb (st : EnvState) (x : Voice) : (settle st x).arb = x.arb := by
  simp only [settle, Voice.withPhaseEntry_arb]
@[simp] theorem settle_decayLevel (st : EnvState) (x : Voice) :
    (settle st x).decayLevel = x.decayLevel := by
  simp only [settle, Voice.withPhaseEntry_decayLevel]

/-! ## silence -/
@[simp] theorem silence_wave (x : Voice) : (silence x).wave = x.wave := by
  simp only [silence, Voice.withPhaseEntry_wave, Voice.withValue_wave]
@[simp] theorem silence_freq (x : Voice) : (silence x).freq = x.freq := by
  simp only [silence, Voice.withPhaseEntry_freq, Voice.withValue_freq]
@[simp] theorem silence_vol (x : Voice) : (silence x).vol = x.vol := by
  simp only [silence, Voice.withPhaseEntry_vol, Voice.withValue_vol]
@[simp] theorem silence_pw (x : Voice) : (silence x).pw = x.pw := by
  simp only [silence, Voice.withPhaseEntry_pw, Voice.withValue_pw]
@[simp] theorem silence_attack (x : Voice) : (silence x).attack = x.attack := by
  simp only [silence, Voice.withPhaseEntry_attack, Voice.withValue_attack]
@[simp] theorem silence_decay (x : Voice) : (silence x).decay = x.decay := by
  simp only [silence, Voice.withPhaseEntry_decay, Voice.withValue_decay]
@[simp] theorem silence_release (x : Voice) : (silence x).release = x.release := by
  simp only [silence, Voice.withPhaseEntry_release, Voice.withValue_release]
@[simp] theorem silence_sustain (x : Voice) : (silence x).sustain = x.sustain := by
  simp only [silence, Voice.withPhaseEntry_sustain, Voice.withValue_sustain]
@[simp] theorem silence_phase (x : Voice) : (silence x).phase = x.phase := by
  simp only [silence, Voice.withPhaseEntry_phase, Voice.withValue_phase]
@[simp] theorem silence_envState (x : Voice) : (silence x).envState = .off := by
  simp only [silence, Voice.withPhaseEntry_envState]
@[simp] theorem silence_envValue (x : Voice) : (silence x).envValue = 0 := by
  simp only [silence, Voice.withPhaseEntry_envValue, Voice.withValue_envValue]
@[simp] theorem silence_envStep (x : Voice) : (silence x).envStep = 0 := by
  simp only [silence, Voice.withPhaseEntry_envStep]
@[simp] theorem silence_envElapsed (x : Voice) : (silence x).envElapsed = 0 := by
  simp only [silence, Voice.withPhaseEntry_envElapsed]
@[simp] theorem silence_envTarget (x : Voice) : (silence x).envTarget = 0 := by
  simp only [silence, Voice.withPhaseEntry_envTarget]
@[simp] theorem silence_noiseSample (x : Voice) : (silence x).noiseSample = x.noiseSample := by
  simp only [silence, Voice.withPhaseEntry_noiseSample, Voice.withValue_noiseSample]
@[simp] theorem silence_arbRd (x : Voice) : (silence x).arbRd = x.arbRd := by
  simp only [silence, Voice.withPhaseEntry_arbRd, Voice.withValue_arbRd]
@[simp] theorem silence_arb (x : Voice) : (silence x).arb = x.arb := by
  simp only [silence, Voice.withPhaseEntry_arb, Voice.withValue_arb]
@[simp] theorem silence_decayLevel (x : Voice) : (silence x).decayLevel = x.decayLevel := by
  simp only [silence, Voice.withPhaseEntry_decayLevel, Voice.withValue_decayLevel]

@[simp] theorem silence_silence (x : Voice) : silence (silence x) = silence x := by
  cases x; rfl

end Sys2Proof.Machine
end

