-- ==== Sys2Proof/Laws/Envelope.lean ====
section
/-! SUPPORT. The envelope: the step's bounds, the frame count's range, and that entering a phase, a tick
and silence keep the envelope's invariant (spec/42_envelope.md R130). -/

namespace Sys2Proof.Machine

/-! ## The step (R122, R130) -/

/-- `N * (a quot N)` lies between 0 and `a`. -/
theorem quot_mul_between (a : Int) (n : Nat) (hn : 1 ≤ n) :
    (0 ≤ a → 0 ≤ quot a n ∧ quot a n * n ≤ a) ∧ (a ≤ 0 → quot a n ≤ 0 ∧ a ≤ quot a n * n) := by
  have hn' : (0 : Int) < n := by omega
  unfold quot
  constructor
  · intro ha
    rw [Int.tdiv_eq_ediv_of_nonneg ha]
    exact ⟨Int.ediv_nonneg ha hn'.le, Int.ediv_mul_le a hn'.ne'⟩
  · intro ha
    obtain ⟨b, rfl⟩ : ∃ b, a = -b := ⟨-a, by omega⟩
    have hb : 0 ≤ b := by omega
    rw [Int.neg_tdiv, Int.tdiv_eq_ediv_of_nonneg hb]
    have h1 := Int.ediv_nonneg hb hn'.le
    have h2 := Int.ediv_mul_le b hn'.ne'
    constructor
    · omega
    · nlinarith

/-- The value the whole phase leads to at its constant step lies between start and target, and the step
is no larger than full scale. -/
theorem stepOf_bounds (T E n : Nat) (hn : 1 ≤ n) (hT : T ≤ envOne) (hE : E ≤ envOne) :
    0 ≤ (E : Int) + stepOf T E n * n ∧ (E : Int) + stepOf T E n * n ≤ envOne ∧
      (stepOf T E n).natAbs ≤ envOne := by
  have hn' : (1 : Int) ≤ n := by exact_mod_cast hn
  have hT' : (T : Int) ≤ envOne := by exact_mod_cast hT
  have hE' : (E : Int) ≤ envOne := by exact_mod_cast hE
  have h := quot_mul_between ((T : Int) - E) n hn
  have hd : stepOf T E n = quot ((T : Int) - E) n := rfl
  rw [hd]
  generalize quot ((T : Int) - E) n = q at h
  rcases le_total 0 ((T : Int) - E) with ha | ha
  · obtain ⟨h1, h2⟩ := h.1 ha
    have h3 : q ≤ q * n := by nlinarith
    refine ⟨by positivity, by linarith, ?_⟩
    omega
  · obtain ⟨h1, h2⟩ := h.2 ha
    have h3 : q * n ≤ q := by nlinarith
    have h4 : q * n ≤ 0 := by linarith
    refine ⟨by linarith [Int.natCast_nonneg T], by linarith, ?_⟩
    omega

/-! ## The frame count (R116) -/

theorem frames_pos (sr : BitVec 20) (ms : Half) : 1 ≤ frames sr ms := Nat.le_max_left _ _

theorem frames_le (sr : BitVec 20) (ms : Half) : frames sr ms ≤ 68718362 := by
  have h1 : ms.toNat ≤ 65535 := by have := ms.isLt; omega
  have h2 : sr.toNat ≤ 1048575 := by have := sr.isLt; omega
  have h3 : ms.toNat * sr.toNat ≤ 65535 * 1048575 := Nat.mul_le_mul h1 h2
  unfold frames
  omega

theorem frames_toNat (sr : BitVec 20) (ms : Half) :
    (BitVec.ofNat 32 (frames sr ms)).toNat = frames sr ms := by
  rw [BitVec.toNat_ofNat]
  exact Nat.mod_eq_of_lt (by have := frames_le sr ms; omega)

/-- A step within full scale is stored exactly (R37, R122). -/
theorem step_toInt (z : Int) (h : z.natAbs ≤ envOne) : (BitVec.ofInt 32 z).toInt = z := by
  have : envOne = 1073741824 := rfl
  rw [BitVec.toInt_ofInt, Int.bmod_eq_of_le] <;> omega

theorem level_le (x : Voice) (st : Timed) (h : x.sustain.toNat ≤ 256) : level x st ≤ envOne := by
  have : envOne = 256 * 2 ^ 22 := rfl
  cases st
  · exact le_refl _
  · exact this ▸ Nat.mul_le_mul_right _ h
  · exact Nat.zero_le _

/-! ## What a tick leaves alone (R126, R127) -/

@[simp] theorem complete_wave (sr : BitVec 20) (st : Timed) (x : Voice) :
    (complete sr st x).wave = x.wave := by
  cases st <;> simp only [complete, enter_wave, settle_wave, Voice.withValue_wave]
@[simp] theorem checkTarget_wave (sr : BitVec 20) (st : Timed) (x : Voice) :
    (checkTarget sr st x).wave = x.wave := by
  unfold checkTarget; split <;> simp only [complete_wave]
@[simp] theorem envTick_wave (sr : BitVec 20) (x : Voice) : (envTick sr x).wave = x.wave := by
  unfold envTick; split <;> simp only [checkTarget_wave, envAdvance_wave]
@[simp] theorem complete_freq (sr : BitVec 20) (st : Timed) (x : Voice) :
    (complete sr st x).freq = x.freq := by
  cases st <;> simp only [complete, enter_freq, settle_freq, Voice.withValue_freq]
@[simp] theorem checkTarget_freq (sr : BitVec 20) (st : Timed) (x : Voice) :
    (checkTarget sr st x).freq = x.freq := by
  unfold checkTarget; split <;> simp only [complete_freq]
@[simp] theorem envTick_freq (sr : BitVec 20) (x : Voice) : (envTick sr x).freq = x.freq := by
  unfold envTick; split <;> simp only [checkTarget_freq, envAdvance_freq]
@[simp] theorem complete_vol (sr : BitVec 20) (st : Timed) (x : Voice) :
    (complete sr st x).vol = x.vol := by
  cases st <;> simp only [complete, enter_vol, settle_vol, Voice.withValue_vol]
@[simp] theorem checkTarget_vol (sr : BitVec 20) (st : Timed) (x : Voice) :
    (checkTarget sr st x).vol = x.vol := by
  unfold checkTarget; split <;> simp only [complete_vol]
@[simp] theorem envTick_vol (sr : BitVec 20) (x : Voice) : (envTick sr x).vol = x.vol := by
  unfold envTick; split <;> simp only [checkTarget_vol, envAdvance_vol]
@[simp] theorem complete_pw (sr : BitVec 20) (st : Timed) (x : Voice) :
    (complete sr st x).pw = x.pw := by
  cases st <;> simp only [complete, enter_pw, settle_pw, Voice.withValue_pw]
@[simp] theorem checkTarget_pw (sr : BitVec 20) (st : Timed) (x : Voice) :
    (checkTarget sr st x).pw = x.pw := by
  unfold checkTarget; split <;> simp only [complete_pw]
@[simp] theorem envTick_pw (sr : BitVec 20) (x : Voice) : (envTick sr x).pw = x.pw := by
  unfold envTick; split <;> simp only [checkTarget_pw, envAdvance_pw]
@[simp] theorem complete_attack (sr : BitVec 20) (st : Timed) (x : Voice) :
    (complete sr st x).attack = x.attack := by
  cases st <;> simp only [complete, enter_attack, settle_attack, Voice.withValue_attack]
@[simp] theorem checkTarget_attack (sr : BitVec 20) (st : Timed) (x : Voice) :
    (checkTarget sr st x).attack = x.attack := by
  unfold checkTarget; split <;> simp only [complete_attack]
@[simp] theorem envTick_attack (sr : BitVec 20) (x : Voice) : (envTick sr x).attack = x.attack := by
  unfold envTick; split <;> simp only [checkTarget_attack, envAdvance_attack]
@[simp] theorem complete_decay (sr : BitVec 20) (st : Timed) (x : Voice) :
    (complete sr st x).decay = x.decay := by
  cases st <;> simp only [complete, enter_decay, settle_decay, Voice.withValue_decay]
@[simp] theorem checkTarget_decay (sr : BitVec 20) (st : Timed) (x : Voice) :
    (checkTarget sr st x).decay = x.decay := by
  unfold checkTarget; split <;> simp only [complete_decay]
@[simp] theorem envTick_decay (sr : BitVec 20) (x : Voice) : (envTick sr x).decay = x.decay := by
  unfold envTick; split <;> simp only [checkTarget_decay, envAdvance_decay]
@[simp] theorem complete_release (sr : BitVec 20) (st : Timed) (x : Voice) :
    (complete sr st x).release = x.release := by
  cases st <;> simp only [complete, enter_release, settle_release, Voice.withValue_release]
@[simp] theorem checkTarget_release (sr : BitVec 20) (st : Timed) (x : Voice) :
    (checkTarget sr st x).release = x.release := by
  unfold checkTarget; split <;> simp only [complete_release]
@[simp] theorem envTick_release (sr : BitVec 20) (x : Voice) : (envTick sr x).release = x.release := by
  unfold envTick; split <;> simp only [checkTarget_release, envAdvance_release]
@[simp] theorem complete_sustain (sr : BitVec 20) (st : Timed) (x : Voice) :
    (complete sr st x).sustain = x.sustain := by
  cases st <;> simp only [complete, enter_sustain, settle_sustain, Voice.withValue_sustain]
@[simp] theorem checkTarget_sustain (sr : BitVec 20) (st : Timed) (x : Voice) :
    (checkTarget sr st x).sustain = x.sustain := by
  unfold checkTarget; split <;> simp only [complete_sustain]
@[simp] theorem envTick_sustain (sr : BitVec 20) (x : Voice) : (envTick sr x).sustain = x.sustain := by
  unfold envTick; split <;> simp only [checkTarget_sustain, envAdvance_sustain]
@[simp] theorem complete_phase (sr : BitVec 20) (st : Timed) (x : Voice) :
    (complete sr st x).phase = x.phase := by
  cases st <;> simp only [complete, enter_phase, settle_phase, Voice.withValue_phase]
@[simp] theorem checkTarget_phase (sr : BitVec 20) (st : Timed) (x : Voice) :
    (checkTarget sr st x).phase = x.phase := by
  unfold checkTarget; split <;> simp only [complete_phase]
@[simp] theorem envTick_phase (sr : BitVec 20) (x : Voice) : (envTick sr x).phase = x.phase := by
  unfold envTick; split <;> simp only [checkTarget_phase, envAdvance_phase]
@[simp] theorem complete_noiseSample (sr : BitVec 20) (st : Timed) (x : Voice) :
    (complete sr st x).noiseSample = x.noiseSample := by
  cases st <;> simp only [complete, enter_noiseSample, settle_noiseSample, Voice.withValue_noiseSample]
@[simp] theorem checkTarget_noiseSample (sr : BitVec 20) (st : Timed) (x : Voice) :
    (checkTarget sr st x).noiseSample = x.noiseSample := by
  unfold checkTarget; split <;> simp only [complete_noiseSample]
@[simp] theorem envTick_noiseSample (sr : BitVec 20) (x : Voice) : (envTick sr x).noiseSample = x.noiseSample := by
  unfold envTick; split <;> simp only [checkTarget_noiseSample, envAdvance_noiseSample]
@[simp] theorem complete_arbRd (sr : BitVec 20) (st : Timed) (x : Voice) :
    (complete sr st x).arbRd = x.arbRd := by
  cases st <;> simp only [complete, enter_arbRd, settle_arbRd, Voice.withValue_arbRd]
@[simp] theorem checkTarget_arbRd (sr : BitVec 20) (st : Timed) (x : Voice) :
    (checkTarget sr st x).arbRd = x.arbRd := by
  unfold checkTarget; split <;> simp only [complete_arbRd]
@[simp] theorem envTick_arbRd (sr : BitVec 20) (x : Voice) : (envTick sr x).arbRd = x.arbRd := by
  unfold envTick; split <;> simp only [checkTarget_arbRd, envAdvance_arbRd]
@[simp] theorem complete_arb (sr : BitVec 20) (st : Timed) (x : Voice) :
    (complete sr st x).arb = x.arb := by
  cases st <;> simp only [complete, enter_arb, settle_arb, Voice.withValue_arb]
@[simp] theorem checkTarget_arb (sr : BitVec 20) (st : Timed) (x : Voice) :
    (checkTarget sr st x).arb = x.arb := by
  unfold checkTarget; split <;> simp only [complete_arb]
@[simp] theorem envTick_arb (sr : BitVec 20) (x : Voice) : (envTick sr x).arb = x.arb := by
  unfold envTick; split <;> simp only [checkTarget_arb, envAdvance_arb]

/-- A tick leaves the latched sustain level, or latches SUSTAIN. -/
theorem envTick_decayLevel (sr : BitVec 20) (x : Voice) :
    (envTick sr x).decayLevel = x.decayLevel ∨ (envTick sr x).decayLevel = x.sustain := by
  have hc : ∀ st y, (complete sr st y).decayLevel = y.decayLevel ∨
      (complete sr st y).decayLevel = y.sustain := by
    intro st y
    cases st <;> simp [complete]
  have ht : ∀ st, (checkTarget sr st (envAdvance x)).decayLevel = x.decayLevel ∨
      (checkTarget sr st (envAdvance x)).decayLevel = x.sustain := by
    intro st
    unfold checkTarget
    split
    · simpa using hc st (envAdvance x)
    · exact .inl (envAdvance_decayLevel x)
  unfold envTick
  split
  · exact ht _
  · exact ht _
  · exact ht _
  · exact .inl (envAdvance_decayLevel x)
  · exact .inl rfl

/-! ## The invariant -/

/-- Entering a timed phase keeps the envelope's invariant. -/
theorem envInv_enter (sr : BitVec 20) (st : Timed) (ms : Half) (x : Voice)
    (he : x.envValue.toNat ≤ envOne) (hs : x.sustain.toNat ≤ 256) : envInv (enter sr st ms x) := by
  obtain ⟨h1, h2, h3⟩ := stepOf_bounds (level x st) x.envValue.toNat (frames sr ms) (frames_pos sr ms)
    (level_le x st hs) he
  have hst : timedState st ≠ .off ∧ timedState st ≠ .sustain := by cases st <;> decide
  refine ⟨he, ?_, fun h => absurd h hst.1, fun h => absurd h hst.2, fun _ => ?_⟩
  · rw [enter_envStep, step_toInt _ h3]; exact h3
  · rw [timedOk, enter_envTarget, enter_envStep, enter_envValue, enter_envElapsed, frames_toNat,
      step_toInt _ h3]
    have hp := frames_pos sr ms
    refine ⟨hp, by simp; omega, by simpa using h1, by simpa using h2⟩

/-- Silence keeps the envelope's invariant. -/
theorem envInv_silence (x : Voice) : envInv (silence x) := by
  refine ⟨by simp [envOne], by simp [envOne], fun _ => ⟨rfl, rfl, rfl⟩, fun h => ?_, fun h => ?_⟩
  · simp at h
  · simp at h

/-- What one tick adds, and what the rest of the phase would then lead to. -/
theorem envAdvance_timed (x : Voice) (hv : x.envValue.toNat ≤ envOne)
    (hx : timedOk x) :
    (envAdvance x).envValue.toNat ≤ envOne ∧
      ((envAdvance x).envValue.toNat : Int) = x.envValue.toNat + x.envStep.toInt ∧
      (envAdvance x).envElapsed.toNat = x.envElapsed.toNat + 1 := by
  obtain ⟨h1, h2, h3, h4⟩ := hx
  have hone : envOne = 1073741824 := rfl
  have hlt := x.envTarget.isLt
  have hb : 0 ≤ (x.envValue.toNat : Int) + x.envStep.toInt ∧
      (x.envValue.toNat : Int) + x.envStep.toInt ≤ envOne := by
    have hr : (1 : Int) ≤ (x.envTarget.toNat : Int) - x.envElapsed.toNat := by omega
    generalize (x.envTarget.toNat : Int) - x.envElapsed.toNat = r at *
    have hv' : (x.envValue.toNat : Int) ≤ envOne := by exact_mod_cast hv
    rcases le_total 0 x.envStep.toInt with hs | hs
    · exact ⟨by positivity, by nlinarith⟩
    · exact ⟨by nlinarith, by linarith⟩
  have hval : ((envAdvance x).envValue.toNat : Int) = x.envValue.toNat + x.envStep.toInt := by
    rw [envAdvance_envValue, BitVec.toNat_ofInt, Int.toNat_of_nonneg (Int.emod_nonneg _ (by decide))]
    exact Int.emod_eq_of_lt hb.1 (by rw [hone] at hb; push_cast; omega)
  refine ⟨by omega, hval, ?_⟩
  rw [envAdvance_envElapsed, BitVec.toNat_add]
  have : (1 : Word).toNat = 1 := rfl
  omega

/-- Before its last frame a timed phase goes on. -/
theorem timedOk_envAdvance (x : Voice) (hv : x.envValue.toNat ≤ envOne) (hx : timedOk x)
    (hne : (envAdvance x).envElapsed ≠ (envAdvance x).envTarget) : timedOk (envAdvance x) := by
  obtain ⟨-, hval, hel⟩ := envAdvance_timed x hv hx
  obtain ⟨h1, h2, h3, h4⟩ := hx
  have hne' : (envAdvance x).envElapsed.toNat ≠ x.envTarget.toNat := fun h =>
    hne (BitVec.eq_of_toNat_eq h)
  rw [timedOk, hval, hel, envAdvance_envTarget, envAdvance_envStep]
  rw [hel] at hne'
  refine ⟨h1, by omega, ?_, ?_⟩
  · push_cast; linarith
  · push_cast; linarith

theorem sustainLevel_le (l : BitVec 9) (h : l.toNat ≤ 256) : sustainLevel l ≤ envOne := by
  have : envOne = 256 * 2 ^ 22 := rfl
  exact this ▸ Nat.mul_le_mul_right _ h

theorem decayLanding_eq (x : Voice) : decayLanding x = x.decayLevel := rfl

theorem decayLanding_le (x : Voice) (hd : x.decayLevel.toNat ≤ 256) : (decayLanding x).toNat ≤ 256 := hd

/-- In a DECAY of at most 2^22 frames the named registers ENV_STEP and ENV_TARGET determine the sustain setting
it was entered with: two settings with one step are equal (R117, R122; log 5). Longer ones do not
(`Tests.test_no_function_of_the_named_registers_gives_the_decay_level`). -/
theorem decay_level_unique (n : Nat) (hn : 1 ≤ n) (hn' : n ≤ 2 ^ 22) (a b : BitVec 9) (ha : a.toNat ≤ 256)
    (hb : b.toNat ≤ 256)
    (h : stepOf (sustainLevel a) envOne n = stepOf (sustainLevel b) envOne n) : a = b := by
  have hone : envOne = 256 * 2 ^ 22 := rfl
  have hpos : (0 : Int) < n := by omega
  have quotient : ∀ l : BitVec 9, l.toNat ≤ 256 → stepOf (sustainLevel l) envOne n =
      -(((256 - (l.toNat : Int)) * 2 ^ 22) / n) := by
    intro l hl
    have hd : ((sustainLevel l : Nat) : Int) - (envOne : Nat) = -((256 - (l.toNat : Int)) * 2 ^ 22) := by
      rw [hone, sustainLevel]; push_cast; ring
    rw [stepOf, quot, hd, Int.neg_tdiv, Int.tdiv_eq_ediv_of_nonneg]
    have : (l.toNat : Int) ≤ 256 := by exact_mod_cast hl
    nlinarith
  rw [quotient a ha, quotient b hb, neg_inj] at h
  have h1 := Int.emod_nonneg ((256 - (a.toNat : Int)) * 2 ^ 22) (ne_of_gt hpos)
  have h2 := Int.emod_lt_of_pos ((256 - (a.toNat : Int)) * 2 ^ 22) hpos
  have h3 := Int.emod_nonneg ((256 - (b.toNat : Int)) * 2 ^ 22) (ne_of_gt hpos)
  have h4 := Int.emod_lt_of_pos ((256 - (b.toNat : Int)) * 2 ^ 22) hpos
  have h5 := Int.mul_ediv_add_emod ((256 - (a.toNat : Int)) * 2 ^ 22) n
  have h6 := Int.mul_ediv_add_emod ((256 - (b.toNat : Int)) * 2 ^ 22) n
  rw [h] at h5
  exact BitVec.eq_of_toNat_eq (by omega)

/-- A value up to full scale is stored exactly (R36). -/
theorem value_toNat (n : Nat) (h : n ≤ envOne) : (BitVec.ofNat 31 n).toNat = n := by
  have : envOne = 1073741824 := rfl
  rw [BitVec.toNat_ofNat]
  exact Nat.mod_eq_of_lt (by omega)

/-- The completion frame keeps the envelope's invariant. -/
theorem envInv_complete (sr : BitVec 20) (st : Timed) (x : Voice) (hs : x.sustain.toNat ≤ 256)
    (hd : x.decayLevel.toNat ≤ 256) : envInv (complete sr st x) := by
  cases st with
  | attack =>
    exact envInv_enter sr .decay _ _ (by rw [Voice.withValue_envValue, value_toNat _ le_rfl])
      (by rw [Voice.withValue_sustain]; exact hs)
  | decay =>
    have hl := sustainLevel_le _ (decayLanding_le x hd)
    refine ⟨?_, by simp [complete, envOne], ?_, fun _ => ⟨rfl, rfl⟩, ?_⟩
    · simp only [complete, settle_envValue, Voice.withValue_envValue, value_toNat _ hl]; exact hl
    · intro h; simp [complete] at h
    · intro h; simp [complete] at h
  | release =>
    refine ⟨by simp [complete, envOne], by simp [complete, envOne], fun _ => ⟨rfl, rfl, rfl⟩, ?_, ?_⟩
    · intro h; simp [complete] at h
    · intro h; simp [complete] at h

/-- A tick of a timed phase keeps the envelope's invariant. -/
theorem envInv_checkTarget (sr : BitVec 20) (st : Timed) (x : Voice) (hx : envInv x)
    (hst : x.envState = timedState st) (hs : x.sustain.toNat ≤ 256) (hd : x.decayLevel.toNat ≤ 256) :
    envInv (checkTarget sr st (envAdvance x)) := by
  obtain ⟨h1, h2, -, -, h5⟩ := hx
  have ht : timedOk x := h5 (by cases st <;> simp_all [timedState])
  unfold checkTarget
  split
  · exact envInv_complete sr st _ (by simpa using hs) (by simpa using hd)
  · next hne =>
    refine ⟨(envAdvance_timed x h1 ht).1, by simpa using h2, fun h => ?_, fun h => ?_,
      fun _ => timedOk_envAdvance x h1 ht hne⟩
    · rw [envAdvance_envState, hst] at h; cases st <;> simp [timedState] at h
    · rw [envAdvance_envState, hst] at h; cases st <;> simp [timedState] at h

/-- `env_tick` keeps the envelope's invariant (R130). -/
theorem envInv_envTick (sr : BitVec 20) (x : Voice) (hx : envInv x) (hs : x.sustain.toNat ≤ 256)
    (hd : x.decayLevel.toNat ≤ 256) : envInv (envTick sr x) := by
  unfold envTick
  cases hst : x.envState with
  | off => exact hx
  | attack => exact envInv_checkTarget sr .attack x hx hst hs hd
  | decay => exact envInv_checkTarget sr .decay x hx hst hs hd
  | release => exact envInv_checkTarget sr .release x hx hst hs hd
  | sustain =>
    obtain ⟨h1, h2, -, h4, -⟩ := hx
    obtain ⟨hstep, htg⟩ := h4 hst
    have hval : (envAdvance x).envValue = x.envValue := by
      rw [envAdvance_envValue, hstep]
      simp
    refine ⟨by rw [hval]; exact h1, by simpa using h2, fun h => ?_, fun _ => ⟨hstep, htg⟩, fun h => ?_⟩
    · simp [hst] at h
    · simp [hst] at h

end Sys2Proof.Machine
end

