-- ==== Sys2Proof/Laws/Ops.lean ====
section
/-! SUPPORT. What the shared operations can do: checks, voice commands, loops over slots, one step. -/

namespace Sys2Proof.Machine

/-! ## Checks -/

@[simp] theorem rejectIf_true (c : ErrCode) (s : State) (k : Result) :
    rejectIf true c s k = .next (s.reject c) := rfl

@[simp] theorem rejectIf_false (c : ErrCode) (s : State) (k : Result) : rejectIf false c s k = k := rfl

/-- A check answers the rejection, or what follows it. -/
theorem rejectIf_cases {bad : Bool} {c : ErrCode} {s : State} {k : Result} {r : Result}
    (h : rejectIf bad c s k = r) : bad = true ∧ r = .next (s.reject c) ∨ bad = false ∧ r = k := by
  cases bad
  · exact .inr ⟨rfl, h.symm⟩
  · exact .inl ⟨rfl, h.symm⟩

/-- A voice command always answers a next state: the rejection, or the one voice changed. -/
theorem voiceCommand_cases (v : Byte) (f : Voice → Voice) (s : State) :
    s.g.nva.toNat ≤ v.toNat ∧ voiceCommand v f s = .next (s.reject .badVoice) ∨
      v.toNat < s.g.nva.toNat ∧ voiceCommand v f s = .next (s.begin.setVoice v.toNat f) := by
  unfold voiceCommand voiceOk
  by_cases h : v.toNat < s.g.nva.toNat
  · exact .inr ⟨h, by simp [h]⟩
  · exact .inl ⟨by omega, by simp [h]⟩

/-! ## Slots -/

theorem voice_of_getElem? {s : State} {v : Nat} {x : Voice} (h : s.voices[v]? = some x) :
    s.voice v = x := by
  simp [State.voice, List.getD_eq_getElem?_getD, h]

/-- Slot `i` after a loop over the `n` slots from index 0 on. -/
theorem mapSlots_getElem? (f : Nat → Voice → Voice) (v n : Nat) (xs : List Voice) (i : Nat) :
    (mapSlots f v n xs)[i]? = if i < n then (xs[i]?).map (f (v + i)) else xs[i]? := by
  induction n generalizing v xs i with
  | zero => simp [mapSlots]
  | succ n ih =>
    cases xs with
    | nil => simp [mapSlots]
    | cons x xs =>
      cases i with
      | zero => simp [mapSlots]
      | succ i =>
        simp only [mapSlots, List.getElem?_cons_succ, ih, Nat.add_lt_add_iff_right]
        rw [show v + 1 + i = v + (i + 1) by omega]

@[simp] theorem mapSlots_length (f : Nat → Voice → Voice) (v n : Nat) (xs : List Voice) :
    (mapSlots f v n xs).length = xs.length := by
  induction n generalizing v xs with
  | zero => rfl
  | succ n ih => cases xs <;> simp [mapSlots, ih]

/-- A property that the body of a loop keeps holds of every slot after it. -/
theorem forall_mapSlots {P : Voice → Prop} {f : Nat → Voice → Voice} {xs : List Voice}
    (hf : ∀ i x, P x → P (f i x)) (h : ∀ x ∈ xs, P x) (v n : Nat) : ∀ x ∈ mapSlots f v n xs, P x := by
  induction n generalizing v xs with
  | zero => exact h
  | succ n ih =>
    cases xs with
    | nil => simp [mapSlots]
    | cons x xs =>
      intro y hy
      rcases List.mem_cons.mp hy with rfl | hy
      · exact hf v x (h x List.mem_cons_self)
      · exact ih (fun z hz => h z (List.mem_cons_of_mem _ hz)) _ y hy

/-- A property that the update keeps holds of every slot after one slot is changed. -/
theorem forall_modify {P : Voice → Prop} {f : Voice → Voice} {xs : List Voice}
    (hf : ∀ x, P x → P (f x)) (h : ∀ x ∈ xs, P x) (v : Nat) : ∀ x ∈ xs.modify v f, P x := by
  intro x hx
  obtain ⟨i, hi⟩ := List.mem_iff_getElem?.mp hx
  rw [List.getElem?_modify] at hi
  obtain ⟨y, hy, rfl⟩ := Option.map_eq_some_iff.mp hi
  have hy' := h y (List.mem_iff_getElem?.mpr ⟨i, hy⟩)
  split
  · exact hf y hy'
  · exact hy'

/-- Slot `w` after V[v] alone is changed. -/
theorem setVoice_getElem? (s : State) (v : Nat) (f : Voice → Voice) (w : Nat) :
    (s.setVoice v f).voices[w]? = (s.voices[w]?).map fun x => if v = w then f x else x := by
  rw [State.setVoice_voices, List.getElem?_modify]
  rfl

/-! ## One step -/

/-- Everything a step can be. -/
theorem step_cases (s : State) :
    s.isInstance = false ∧ step s = .refused .illegalInstance ∨
      s.isInstance = true ∧
        (s.port.pending = [] ∧ step s = .next s ∨
          (∃ rest, s.port.pending = .reset :: rest ∧
            step s = .next (s.withPending rest).hardReset) ∨
          (∃ cmd arg rest c, s.port.pending = .command cmd arg :: rest ∧
            decode cmd arg = .error c ∧ step s = .next ((s.withPending rest).reject c)) ∨
          ∃ cmd arg rest i, s.port.pending = .command cmd arg :: rest ∧
            decode cmd arg = .ok i ∧ step s = exec i (s.withPending rest)) := by
  unfold step
  by_cases h : s.isInstance = true
  · rw [if_pos h]
    refine .inr ⟨h, ?_⟩
    cases hp : s.port.pending with
    | nil => exact .inl ⟨rfl, rfl⟩
    | cons a rest =>
      cases a with
      | reset => exact .inr (.inl ⟨rest, rfl, rfl⟩)
      | command cmd arg =>
        refine .inr (.inr ?_)
        cases hd : decode cmd arg with
        | error c => exact .inl ⟨cmd, arg, rest, c, rfl, hd, by simp [runTransfer, hd]⟩
        | ok i => exact .inr ⟨cmd, arg, rest, i, rfl, hd, by simp [runTransfer, hd]⟩
  · rw [if_neg h]
    exact .inl ⟨by simpa using h, rfl⟩

end Sys2Proof.Machine
end

