-- ==== Sys2Proof/Laws/Invariant.lean ====
section
/-! SUPPORT. What the shared operations do to the invariant of spec/10_state.md R46: a rejection, a check,
a change of one voice, entering a phase, silence and dispatch keep it. -/

namespace Sys2Proof.Machine

/-- A rejection keeps the invariant (R163). -/
theorem inv_reject {s : State} (h : Inv s) {c : ErrCode} (hc : c ≠ .none) : Inv (s.reject c) := by
  obtain ⟨h1, h2, ⟨a, b, c', d, e⟩, h4, h5, h6, h7⟩ := h
  refine ⟨h1, h2, ⟨a, b, c', d, ?_⟩, h4, h5, h6, h7⟩
  simp only [State.reject_g_err, State.reject_g_errcode]
  cases he : s.g.err <;> simp_all

/-- A check is safe if what follows it is. -/
theorem safe_rejectIf {b : Bool} {c : ErrCode} {s : State} {k : Result} (h : Inv s) (hc : c ≠ .none)
    (hk : b = false → Safe k) : Safe (rejectIf b c s k) := by
  cases b
  · exact hk rfl
  · exact ⟨_, rfl, inv_reject h hc⟩

/-- Changing one voice keeps the invariant if the change keeps the voice's. -/
theorem inv_setVoice {s : State} (h : Inv s) (v : Nat) (f : Voice → Voice)
    (hf : ∀ x, voiceInv s.params x → voiceInv s.params (f x)) : Inv (s.setVoice v f) := by
  obtain ⟨h1, h2, h3, h4, h5, h6, h7⟩ := h
  exact ⟨h1, by simpa using h2, h3, forall_modify hf h4 v, h5, h6, h7⟩

/-- A voice command is safe if its change keeps the voice's invariant. -/
theorem safe_voiceCommand {s : State} (h : Inv s) (v : Byte) (f : Voice → Voice)
    (hf : ∀ x, voiceInv s.params x → voiceInv s.params (f x)) : Safe (voiceCommand v f s) :=
  safe_rejectIf h (by decide) fun _ => ⟨_, rfl, inv_setVoice (s := s.begin) h _ _ hf⟩

/-- Entering a phase keeps the voice's invariant (R122, R130). -/
theorem voiceInv_enter {p : Params} {sr : BitVec 20} {st : Timed} {ms : Half} {x : Voice}
    (h : voiceInv p x) : voiceInv p (enter sr st ms x) := by
  obtain ⟨he, hs, hd, hr, hw, hc⟩ := h
  refine ⟨envInv_enter sr st ms x he.1 hs, hs, ?_, hr, hw, hc⟩
  rw [enter_decayLevel]
  split <;> assumption

/-- Silence keeps the voice's invariant (R144). -/
theorem voiceInv_silence {p : Params} {x : Voice} (h : voiceInv p x) : voiceInv p (silence x) := by
  obtain ⟨-, hs, hd, hr, hw, hc⟩ := h
  exact ⟨envInv_silence x, hs, hd, hr, hw, hc⟩

/-- Silencing every active voice keeps the invariant (R144). -/
theorem inv_silenceAll {s : State} (h : Inv s) : Inv (silenceAll s) := by
  obtain ⟨h1, h2, h3, h4, h5, h6, h7⟩ := h
  exact ⟨h1, by simpa using h2, h3,
    forall_mapSlots (P := voiceInv s.params) (fun _ _ => voiceInv_silence) h4 _ _, h5, h6, h7⟩

/-- Dispatching one note keeps the voice's invariant (R155). -/
theorem voiceInv_dispatchNote {p : Params} {sr : BitVec 20} {n : Half} {x : Voice} (h : voiceInv p x) :
    voiceInv p (dispatchNote sr n x) := by
  unfold dispatchNote
  split
  · exact voiceInv_enter (x := x.withFreq _) h
  · split
    · exact voiceInv_enter h
    · exact h

/-- Dispatching a column keeps the invariant (R155). -/
theorem inv_dispatch {s : State} (h : Inv s) (col : Nat) : Inv (dispatch col s) := by
  obtain ⟨h1, h2, h3, h4, h5, h6, h7⟩ := h
  refine ⟨h1, by simpa [dispatch] using h2, h3, ?_, h5, h6, h7⟩
  simp only [dispatch, State.withVoices_voices]
  exact forall_mapSlots (P := voiceInv s.params) (fun _ _ hx => voiceInv_dispatchNote hx) h4 _ _

end Sys2Proof.Machine
end

