-- ==== Sys2Proof/Laws/Memory.lean ====
section
/-! SUPPORT. The laws of memories: a read after a write, and that every memory operation keeps the
canonical form and the capacity. -/

namespace Sys2Proof.Machine.Memory

theorem read_consCell (a : Nat) (x : Half) (rest : Memory) (b : Nat)
    (h : b = a → Memory.read rest b = unlisted) :
    Memory.read (consCell a x rest) b = if b = a then x else Memory.read rest b := by
  unfold consCell
  split
  · split
    · next hx hb => rw [h hb, hx]
    · rfl
  · simp only [Memory.read, eq_comm]

/-- An index below every listed one reads as unlisted. -/
theorem read_of_lt (m : Memory) (a : Nat) (h : ∀ c ∈ m, a < c.1) : Memory.read m a = unlisted := by
  induction m with
  | nil => rfl
  | cons c rest ih =>
    have hc := h c List.mem_cons_self
    simp only [Memory.read]
    rw [if_neg (by omega)]
    exact ih fun d hd => h d (List.mem_cons_of_mem _ hd)

/-- Reading after a write: the written index reads as the written element, every other as before. -/
theorem read_write (m : Memory) (hm : m.wf) (a : Nat) (x : Half) (b : Nat) :
    Memory.read (Memory.write m a x) b = if b = a then x else Memory.read m b := by
  induction m with
  | nil => exact read_consCell a x [] b fun _ => rfl
  | cons c rest ih =>
    obtain ⟨k, y⟩ := c
    have hk : ∀ d ∈ rest, k < d.1 := (List.pairwise_cons.mp hm.1).1
    simp only [Memory.write]
    split
    · next hak =>
      refine read_consCell a x _ b fun hb => read_of_lt _ _ ?_
      rintro d hd
      rcases List.mem_cons.mp hd with rfl | hd
      · omega
      · have := hk d hd; omega
    · split
      · next hak =>
        subst hak
        rw [read_consCell a x rest b fun hb => read_of_lt _ _ fun d hd => hb ▸ hk d hd]
        split
        · rfl
        · next hb => simp only [Memory.read]; rw [if_neg (Ne.symm hb)]
      · next h1 h2 =>
        simp only [Memory.read]
        rw [ih ⟨(List.pairwise_cons.mp hm.1).2, fun d hd => hm.2 d (List.mem_cons_of_mem _ hd)⟩]
        split
        · next hkb => rw [if_neg (by omega)]
        · rfl

theorem read_write_same (m : Memory) (hm : m.wf) (a : Nat) (x : Half) :
    Memory.read (Memory.write m a x) a = x := by rw [read_write m hm, if_pos rfl]

theorem read_write_other (m : Memory) (hm : m.wf) (a : Nat) (x : Half) (b : Nat) (h : b ≠ a) :
    Memory.read (Memory.write m a x) b = Memory.read m b := by rw [read_write m hm, if_neg h]

theorem mem_consCell {a : Nat} {x : Half} {rest : Memory} {c : Nat × Half}
    (h : c ∈ consCell a x rest) : c = (a, x) ∧ x ≠ unlisted ∨ c ∈ rest := by
  unfold consCell at h
  split at h
  · exact .inr h
  · next hx =>
    rcases List.mem_cons.mp h with rfl | h
    · exact .inl ⟨rfl, hx⟩
    · exact .inr h

/-- What a write can list: the written element, if it is not the unlisted value, and what was listed. -/
theorem mem_write {m : Memory} {a : Nat} {x : Half} {c : Nat × Half} (h : c ∈ Memory.write m a x) :
    c = (a, x) ∧ x ≠ unlisted ∨ c ∈ m := by
  induction m with
  | nil => exact mem_consCell h
  | cons d rest ih =>
    obtain ⟨k, y⟩ := d
    simp only [Memory.write] at h
    split at h
    · exact mem_consCell h
    · split at h
      · rcases mem_consCell h with h | h
        · exact .inl h
        · exact .inr (List.mem_cons_of_mem _ h)
      · rcases List.mem_cons.mp h with rfl | h
        · exact .inr List.mem_cons_self
        · rcases ih h with h | h
          · exact .inl h
          · exact .inr (List.mem_cons_of_mem _ h)

theorem pairwise_consCell {a : Nat} {x : Half} {rest : Memory}
    (hr : rest.Pairwise fun c d => c.1 < d.1) (ha : ∀ d ∈ rest, a < d.1) :
    (consCell a x rest).Pairwise fun c d => c.1 < d.1 := by
  unfold consCell
  split
  · exact hr
  · exact List.pairwise_cons.mpr ⟨ha, hr⟩

theorem pairwise_write {m : Memory} (hm : m.Pairwise fun c d => c.1 < d.1) (a : Nat) (x : Half) :
    (Memory.write m a x).Pairwise fun c d => c.1 < d.1 := by
  induction m with
  | nil => exact pairwise_consCell hm (by simp)
  | cons d rest ih =>
    obtain ⟨k, y⟩ := d
    obtain ⟨hk, hr⟩ := List.pairwise_cons.mp hm
    simp only [Memory.write]
    split
    · refine pairwise_consCell hm fun d hd => ?_
      rcases List.mem_cons.mp hd with rfl | hd
      · assumption
      · have := hk d hd; simp only at this; omega
    · split
      · next h => exact pairwise_consCell hr fun d hd => h ▸ hk d hd
      · refine List.pairwise_cons.mpr ⟨fun d hd => ?_, ih hr⟩
        rcases mem_write hd with ⟨rfl, -⟩ | hd
        · simp only; omega
        · exact hk d hd

/-- A write keeps the canonical form. -/
theorem wf_write {m : Memory} (hm : m.wf) (a : Nat) (x : Half) : (Memory.write m a x).wf :=
  ⟨pairwise_write hm.1 a x, fun c hc => by
    rcases mem_write hc with ⟨rfl, hx⟩ | hc
    · exact hx
    · exact hm.2 c hc⟩

/-- A write inside the capacity stays inside it. -/
theorem within_write {m : Memory} {n : Nat} (hm : m.within n) {a : Nat} (ha : a < n) (x : Half) :
    (Memory.write m a x).within n := fun c hc => by
  rcases mem_write hc with ⟨rfl, -⟩ | hc
  · exact ha
  · exact hm c hc

/-- Filling keeps the canonical form. -/
theorem wf_fill {m : Memory} (hm : m.wf) (f : Nat → Half) (n : Nat) : (Memory.fill m f n).wf := by
  induction n with
  | zero => exact hm
  | succ n ih => exact wf_write ih n (f n)

/-- Filling `n` elements of a memory of capacity at least `n` stays inside it. -/
theorem within_fill {m : Memory} {k : Nat} (hm : m.within k) (f : Nat → Half) {n : Nat} (hn : n ≤ k) :
    (Memory.fill m f n).within k := by
  induction n with
  | zero => exact hm
  | succ n ih => exact within_write (ih (by omega)) (by omega) _

/-- After filling, every index below `n` reads as `f` says, every other as before. -/
theorem read_fill (m : Memory) (hm : m.wf) (f : Nat → Half) (n b : Nat) :
    Memory.read (Memory.fill m f n) b = if b < n then f b else Memory.read m b := by
  induction n with
  | zero => simp [Memory.fill]
  | succ n ih =>
    simp only [Memory.fill]
    rw [read_write _ (wf_fill hm f n), ih]
    by_cases hb : b = n
    · subst hb; simp
    · rw [if_neg hb]
      by_cases h2 : b < n
      · rw [if_pos h2, if_pos (by omega)]
      · rw [if_neg h2, if_neg (by omega)]

/-- The empty memory is canonical and inside every capacity. -/
theorem wf_nil : Memory.wf [] := ⟨List.Pairwise.nil, by simp⟩

theorem within_nil (n : Nat) : Memory.within [] n := by simp

end Sys2Proof.Machine.Memory
end

