-- ==== Sys2Proof/Laws/Oscillator.lean ====
section
/-! SUPPORT. The noise generator never reaches 0 (spec/10_state.md R25), and the waveform kinds keep the
buffer's and ARB_RD's invariant. -/

namespace Sys2Proof.Machine

/-! ## Noise (R25, R91) -/

theorem eq_zero_of_eq_shiftLeft {x : Word} {k : Nat} (hk : 0 < k) (h : x = x <<< k) : x = 0 := by
  have hb : ∀ i, x.getLsbD i = false := by
    intro i
    induction i using Nat.strong_induction_on with
    | _ i ih =>
      rw [h, BitVec.getLsbD_shiftLeft]
      by_cases hi : i < k
      · simp [hi]
      · rw [ih (i - k) (by omega)]
        simp
  exact BitVec.eq_of_getLsbD_eq fun i _ => by simp [hb i]

theorem eq_zero_of_eq_shiftRight {x : Word} {k : Nat} (hk : 0 < k) (h : x = x >>> k) : x = 0 := by
  have hb : ∀ n i, 32 - i ≤ n → x.getLsbD i = false := by
    intro n
    induction n with
    | zero => intro i hi; exact BitVec.getLsbD_of_ge x i (by omega)
    | succ n ih =>
      intro i hi
      rw [h, BitVec.getLsbD_ushiftRight]
      by_cases h32 : 32 ≤ i
      · exact BitVec.getLsbD_of_ge x _ (by omega)
      · exact ih _ (by omega)
  exact BitVec.eq_of_getLsbD_eq fun i _ => by simp [hb _ i le_rfl]

theorem xor_shiftLeft_ne_zero {x : Word} {k : Nat} (hk : 0 < k) (h : x ≠ 0) : x ^^^ (x <<< k) ≠ 0 :=
  fun he => h (eq_zero_of_eq_shiftLeft hk (BitVec.xor_eq_zero_iff.mp he))

theorem xor_shiftRight_ne_zero {x : Word} {k : Nat} (hk : 0 < k) (h : x ≠ 0) : x ^^^ (x >>> k) ≠ 0 :=
  fun he => h (eq_zero_of_eq_shiftRight hk (BitVec.xor_eq_zero_iff.mp he))

/-- A nonzero generator stays nonzero (R25, R91). -/
theorem noiseNext_ne_zero {x : Word} (h : x ≠ 0) : noiseNext x ≠ 0 :=
  xor_shiftLeft_ne_zero (by decide) (xor_shiftRight_ne_zero (by decide)
    (xor_shiftLeft_ne_zero (by decide) h))

/-! ## The kinds (R100, R102) -/

/-- What the noise kind can do: nothing to the voice but NOISE_SAMPLE, and one draw at most. -/
theorem noiseKind_cases (wrap : Bool) (x : Voice) (m : Mix) :
    ((noiseKind wrap x m).1 = x ∧ (noiseKind wrap x m).2.1 = m) ∨
      ((noiseKind wrap x m).1 = x.withNoiseSample ((noiseNext m.noise).extractLsb' 16 16) ∧
        (noiseKind wrap x m).2.1 = { m with noise := noiseNext m.noise }) := by
  unfold noiseKind
  split
  · split
    · exact .inr ⟨rfl, rfl⟩
    · exact .inl ⟨rfl, rfl⟩
  · exact .inl ⟨rfl, rfl⟩

/-- What the ARB kind can do to the voice and the shared state. -/
theorem arbKind_cases (p : Params) (v : Nat) (x : Voice) (m : Mix) :
    (x.wave.getLsbD 5 = false ∧ arbKind p v x m = (x, m, 0)) ∨
      (x.wave.getLsbD 5 = true ∧ x.arbRd.toNat ≠ p.arbLen ∧
        (arbKind p v x m).1 = x.withArb x.arb (x.arbRd + 1) ∧ (arbKind p v x m).2.1 = m ∧
        (arbKind p v x m).2.2 = tc16 (Memory.read x.arb x.arbRd.toNat)) ∨
      (x.wave.getLsbD 5 = true ∧ x.arbRd.toNat = p.arbLen ∧
        (arbKind p v x m).1 = x.withArb (Memory.fill x.arb (refillAnswer v m) p.arbLen) 1 ∧
        (arbKind p v x m).2.1 = (refillBuffer p v x m).2 ∧
        (arbKind p v x m).2.2 =
          tc16 (Memory.read (Memory.fill x.arb (refillAnswer v m) p.arbLen) 0)) := by
  unfold arbKind arbReady arbExhausted
  by_cases hw : x.wave.getLsbD 5 = true
  · rw [if_pos hw]
    by_cases he : x.arbRd.toNat = p.arbLen
    · exact .inr (.inr ⟨hw, he, by simp [he, refillBuffer, Voice.withArb],
        by simp [he], by simp [he, refillBuffer, Voice.withArb]⟩)
    · exact .inr (.inl ⟨hw, he, by simp [he], by simp [he], by simp [he]⟩)
  · rw [if_neg hw]
    exact .inl ⟨by simpa using hw, rfl⟩

/-- The buffer's part of one voice's invariant: R46 (5), and the buffer canonical and in its capacity. -/
theorem arbKind_keeps (p : Params) (hp : p.legal) (v : Nat) (x : Voice) (m : Mix)
    (hr : x.arbRd.toNat ≤ p.arbLen) (hw : Memory.wf x.arb) (hc : Memory.within x.arb p.arbLen) :
    (arbKind p v x m).1.arbRd.toNat ≤ p.arbLen ∧ Memory.wf (arbKind p v x m).1.arb ∧
      Memory.within (arbKind p v x m).1.arb p.arbLen := by
  obtain ⟨-, -, h1, h2, -⟩ := hp
  rcases arbKind_cases p v x m with ⟨-, h⟩ | ⟨-, hne, h, -⟩ | ⟨-, -, h, -⟩
  · rw [h]; exact ⟨hr, hw, hc⟩
  · rw [h]
    refine ⟨?_, hw, hc⟩
    rw [Voice.withArb_arbRd, BitVec.toNat_add]
    have : (1 : BitVec 9).toNat = 1 := rfl
    omega
  · rw [h]
    refine ⟨?_, Memory.wf_fill hw _ _, Memory.within_fill hc _ le_rfl⟩
    rw [Voice.withArb_arbRd]
    exact h1

end Sys2Proof.Machine
end

