-- ==== Sys2Proof/Laws/Mixer.lean ====
section
/-! SUPPORT. SAMPLE's loop (spec/43_mixer.md R134): what one voice's pass leaves alone, and the invariant
through the loop. -/

namespace Sys2Proof.Machine

/-! ## The kinds change NOISE_SAMPLE, ARB_RD and the buffer of their voice, and nothing else of it -/

theorem noiseKind_wave (w : Bool) (x : Voice) (m : Mix) :
    (noiseKind w x m).1.wave = x.wave := by
  rcases noiseKind_cases w x m with ⟨h, -⟩ | ⟨h, -⟩ <;> simp only [h, Voice.withNoiseSample_wave]
theorem noiseKind_freq (w : Bool) (x : Voice) (m : Mix) :
    (noiseKind w x m).1.freq = x.freq := by
  rcases noiseKind_cases w x m with ⟨h, -⟩ | ⟨h, -⟩ <;> simp only [h, Voice.withNoiseSample_freq]
theorem noiseKind_vol (w : Bool) (x : Voice) (m : Mix) :
    (noiseKind w x m).1.vol = x.vol := by
  rcases noiseKind_cases w x m with ⟨h, -⟩ | ⟨h, -⟩ <;> simp only [h, Voice.withNoiseSample_vol]
theorem noiseKind_pw (w : Bool) (x : Voice) (m : Mix) :
    (noiseKind w x m).1.pw = x.pw := by
  rcases noiseKind_cases w x m with ⟨h, -⟩ | ⟨h, -⟩ <;> simp only [h, Voice.withNoiseSample_pw]
theorem noiseKind_attack (w : Bool) (x : Voice) (m : Mix) :
    (noiseKind w x m).1.attack = x.attack := by
  rcases noiseKind_cases w x m with ⟨h, -⟩ | ⟨h, -⟩ <;> simp only [h, Voice.withNoiseSample_attack]
theorem noiseKind_decay (w : Bool) (x : Voice) (m : Mix) :
    (noiseKind w x m).1.decay = x.decay := by
  rcases noiseKind_cases w x m with ⟨h, -⟩ | ⟨h, -⟩ <;> simp only [h, Voice.withNoiseSample_decay]
theorem noiseKind_release (w : Bool) (x : Voice) (m : Mix) :
    (noiseKind w x m).1.release = x.release := by
  rcases noiseKind_cases w x m with ⟨h, -⟩ | ⟨h, -⟩ <;> simp only [h, Voice.withNoiseSample_release]
theorem noiseKind_sustain (w : Bool) (x : Voice) (m : Mix) :
    (noiseKind w x m).1.sustain = x.sustain := by
  rcases noiseKind_cases w x m with ⟨h, -⟩ | ⟨h, -⟩ <;> simp only [h, Voice.withNoiseSample_sustain]
theorem noiseKind_phase (w : Bool) (x : Voice) (m : Mix) :
    (noiseKind w x m).1.phase = x.phase := by
  rcases noiseKind_cases w x m with ⟨h, -⟩ | ⟨h, -⟩ <;> simp only [h, Voice.withNoiseSample_phase]
theorem noiseKind_envState (w : Bool) (x : Voice) (m : Mix) :
    (noiseKind w x m).1.envState = x.envState := by
  rcases noiseKind_cases w x m with ⟨h, -⟩ | ⟨h, -⟩ <;> simp only [h, Voice.withNoiseSample_envState]
theorem noiseKind_envValue (w : Bool) (x : Voice) (m : Mix) :
    (noiseKind w x m).1.envValue = x.envValue := by
  rcases noiseKind_cases w x m with ⟨h, -⟩ | ⟨h, -⟩ <;> simp only [h, Voice.withNoiseSample_envValue]
theorem noiseKind_envStep (w : Bool) (x : Voice) (m : Mix) :
    (noiseKind w x m).1.envStep = x.envStep := by
  rcases noiseKind_cases w x m with ⟨h, -⟩ | ⟨h, -⟩ <;> simp only [h, Voice.withNoiseSample_envStep]
theorem noiseKind_envElapsed (w : Bool) (x : Voice) (m : Mix) :
    (noiseKind w x m).1.envElapsed = x.envElapsed := by
  rcases noiseKind_cases w x m with ⟨h, -⟩ | ⟨h, -⟩ <;> simp only [h, Voice.withNoiseSample_envElapsed]
theorem noiseKind_envTarget (w : Bool) (x : Voice) (m : Mix) :
    (noiseKind w x m).1.envTarget = x.envTarget := by
  rcases noiseKind_cases w x m with ⟨h, -⟩ | ⟨h, -⟩ <;> simp only [h, Voice.withNoiseSample_envTarget]
theorem noiseKind_decayLevel (w : Bool) (x : Voice) (m : Mix) :
    (noiseKind w x m).1.decayLevel = x.decayLevel := by
  rcases noiseKind_cases w x m with ⟨h, -⟩ | ⟨h, -⟩ <;> simp only [h, Voice.withNoiseSample_decayLevel]
theorem arbKind_wave (p : Params) (v : Nat) (x : Voice) (m : Mix) :
    (arbKind p v x m).1.wave = x.wave := by
  rcases arbKind_cases p v x m with ⟨-, h⟩ | ⟨-, -, h, -⟩ | ⟨-, -, h, -⟩ <;>
    simp only [h, Voice.withArb_wave]
theorem arbKind_freq (p : Params) (v : Nat) (x : Voice) (m : Mix) :
    (arbKind p v x m).1.freq = x.freq := by
  rcases arbKind_cases p v x m with ⟨-, h⟩ | ⟨-, -, h, -⟩ | ⟨-, -, h, -⟩ <;>
    simp only [h, Voice.withArb_freq]
theorem arbKind_vol (p : Params) (v : Nat) (x : Voice) (m : Mix) :
    (arbKind p v x m).1.vol = x.vol := by
  rcases arbKind_cases p v x m with ⟨-, h⟩ | ⟨-, -, h, -⟩ | ⟨-, -, h, -⟩ <;>
    simp only [h, Voice.withArb_vol]
theorem arbKind_pw (p : Params) (v : Nat) (x : Voice) (m : Mix) :
    (arbKind p v x m).1.pw = x.pw := by
  rcases arbKind_cases p v x m with ⟨-, h⟩ | ⟨-, -, h, -⟩ | ⟨-, -, h, -⟩ <;>
    simp only [h, Voice.withArb_pw]
theorem arbKind_attack (p : Params) (v : Nat) (x : Voice) (m : Mix) :
    (arbKind p v x m).1.attack = x.attack := by
  rcases arbKind_cases p v x m with ⟨-, h⟩ | ⟨-, -, h, -⟩ | ⟨-, -, h, -⟩ <;>
    simp only [h, Voice.withArb_attack]
theorem arbKind_decay (p : Params) (v : Nat) (x : Voice) (m : Mix) :
    (arbKind p v x m).1.decay = x.decay := by
  rcases arbKind_cases p v x m with ⟨-, h⟩ | ⟨-, -, h, -⟩ | ⟨-, -, h, -⟩ <;>
    simp only [h, Voice.withArb_decay]
theorem arbKind_release (p : Params) (v : Nat) (x : Voice) (m : Mix) :
    (arbKind p v x m).1.release = x.release := by
  rcases arbKind_cases p v x m with ⟨-, h⟩ | ⟨-, -, h, -⟩ | ⟨-, -, h, -⟩ <;>
    simp only [h, Voice.withArb_release]
theorem arbKind_sustain (p : Params) (v : Nat) (x : Voice) (m : Mix) :
    (arbKind p v x m).1.sustain = x.sustain := by
  rcases arbKind_cases p v x m with ⟨-, h⟩ | ⟨-, -, h, -⟩ | ⟨-, -, h, -⟩ <;>
    simp only [h, Voice.withArb_sustain]
theorem arbKind_phase (p : Params) (v : Nat) (x : Voice) (m : Mix) :
    (arbKind p v x m).1.phase = x.phase := by
  rcases arbKind_cases p v x m with ⟨-, h⟩ | ⟨-, -, h, -⟩ | ⟨-, -, h, -⟩ <;>
    simp only [h, Voice.withArb_phase]
theorem arbKind_envState (p : Params) (v : Nat) (x : Voice) (m : Mix) :
    (arbKind p v x m).1.envState = x.envState := by
  rcases arbKind_cases p v x m with ⟨-, h⟩ | ⟨-, -, h, -⟩ | ⟨-, -, h, -⟩ <;>
    simp only [h, Voice.withArb_envState]
theorem arbKind_envValue (p : Params) (v : Nat) (x : Voice) (m : Mix) :
    (arbKind p v x m).1.envValue = x.envValue := by
  rcases arbKind_cases p v x m with ⟨-, h⟩ | ⟨-, -, h, -⟩ | ⟨-, -, h, -⟩ <;>
    simp only [h, Voice.withArb_envValue]
theorem arbKind_envStep (p : Params) (v : Nat) (x : Voice) (m : Mix) :
    (arbKind p v x m).1.envStep = x.envStep := by
  rcases arbKind_cases p v x m with ⟨-, h⟩ | ⟨-, -, h, -⟩ | ⟨-, -, h, -⟩ <;>
    simp only [h, Voice.withArb_envStep]
theorem arbKind_envElapsed (p : Params) (v : Nat) (x : Voice) (m : Mix) :
    (arbKind p v x m).1.envElapsed = x.envElapsed := by
  rcases arbKind_cases p v x m with ⟨-, h⟩ | ⟨-, -, h, -⟩ | ⟨-, -, h, -⟩ <;>
    simp only [h, Voice.withArb_envElapsed]
theorem arbKind_envTarget (p : Params) (v : Nat) (x : Voice) (m : Mix) :
    (arbKind p v x m).1.envTarget = x.envTarget := by
  rcases arbKind_cases p v x m with ⟨-, h⟩ | ⟨-, -, h, -⟩ | ⟨-, -, h, -⟩ <;>
    simp only [h, Voice.withArb_envTarget]
theorem arbKind_decayLevel (p : Params) (v : Nat) (x : Voice) (m : Mix) :
    (arbKind p v x m).1.decayLevel = x.decayLevel := by
  rcases arbKind_cases p v x m with ⟨-, h⟩ | ⟨-, -, h, -⟩ | ⟨-, -, h, -⟩ <;>
    simp only [h, Voice.withArb_decayLevel]

theorem voiceRaw_voice (p : Params) (v : Nat) (w : Bool) (x : Voice) (m : Mix) :
    (voiceRaw p v w x m).1 = (arbKind p v (noiseKind w x m).1 (noiseKind w x m).2.1).1 := rfl

@[simp] theorem voiceRaw_wave (p : Params) (v : Nat) (w : Bool) (x : Voice) (m : Mix) :
    (voiceRaw p v w x m).1.wave = x.wave := by
  rw [voiceRaw_voice]; simp only [arbKind_wave, noiseKind_wave]
@[simp] theorem voiceRaw_freq (p : Params) (v : Nat) (w : Bool) (x : Voice) (m : Mix) :
    (voiceRaw p v w x m).1.freq = x.freq := by
  rw [voiceRaw_voice]; simp only [arbKind_freq, noiseKind_freq]
@[simp] theorem voiceRaw_vol (p : Params) (v : Nat) (w : Bool) (x : Voice) (m : Mix) :
    (voiceRaw p v w x m).1.vol = x.vol := by
  rw [voiceRaw_voice]; simp only [arbKind_vol, noiseKind_vol]
@[simp] theorem voiceRaw_pw (p : Params) (v : Nat) (w : Bool) (x : Voice) (m : Mix) :
    (voiceRaw p v w x m).1.pw = x.pw := by
  rw [voiceRaw_voice]; simp only [arbKind_pw, noiseKind_pw]
@[simp] theorem voiceRaw_attack (p : Params) (v : Nat) (w : Bool) (x : Voice) (m : Mix) :
    (voiceRaw p v w x m).1.attack = x.attack := by
  rw [voiceRaw_voice]; simp only [arbKind_attack, noiseKind_attack]
@[simp] theorem voiceRaw_decay (p : Params) (v : Nat) (w : Bool) (x : Voice) (m : Mix) :
    (voiceRaw p v w x m).1.decay = x.decay := by
  rw [voiceRaw_voice]; simp only [arbKind_decay, noiseKind_decay]
@[simp] theorem voiceRaw_release (p : Params) (v : Nat) (w : Bool) (x : Voice) (m : Mix) :
    (voiceRaw p v w x m).1.release = x.release := by
  rw [voiceRaw_voice]; simp only [arbKind_release, noiseKind_release]
@[simp] theorem voiceRaw_sustain (p : Params) (v : Nat) (w : Bool) (x : Voice) (m : Mix) :
    (voiceRaw p v w x m).1.sustain = x.sustain := by
  rw [voiceRaw_voice]; simp only [arbKind_sustain, noiseKind_sustain]
@[simp] theorem voiceRaw_phase (p : Params) (v : Nat) (w : Bool) (x : Voice) (m : Mix) :
    (voiceRaw p v w x m).1.phase = x.phase := by
  rw [voiceRaw_voice]; simp only [arbKind_phase, noiseKind_phase]
@[simp] theorem voiceRaw_envState (p : Params) (v : Nat) (w : Bool) (x : Voice) (m : Mix) :
    (voiceRaw p v w x m).1.envState = x.envState := by
  rw [voiceRaw_voice]; simp only [arbKind_envState, noiseKind_envState]
@[simp] theorem voiceRaw_envValue (p : Params) (v : Nat) (w : Bool) (x : Voice) (m : Mix) :
    (voiceRaw p v w x m).1.envValue = x.envValue := by
  rw [voiceRaw_voice]; simp only [arbKind_envValue, noiseKind_envValue]
@[simp] theorem voiceRaw_envStep (p : Params) (v : Nat) (w : Bool) (x : Voice) (m : Mix) :
    (voiceRaw p v w x m).1.envStep = x.envStep := by
  rw [voiceRaw_voice]; simp only [arbKind_envStep, noiseKind_envStep]
@[simp] theorem voiceRaw_envElapsed (p : Params) (v : Nat) (w : Bool) (x : Voice) (m : Mix) :
    (voiceRaw p v w x m).1.envElapsed = x.envElapsed := by
  rw [voiceRaw_voice]; simp only [arbKind_envElapsed, noiseKind_envElapsed]
@[simp] theorem voiceRaw_envTarget (p : Params) (v : Nat) (w : Bool) (x : Voice) (m : Mix) :
    (voiceRaw p v w x m).1.envTarget = x.envTarget := by
  rw [voiceRaw_voice]; simp only [arbKind_envTarget, noiseKind_envTarget]
@[simp] theorem voiceRaw_decayLevel (p : Params) (v : Nat) (w : Bool) (x : Voice) (m : Mix) :
    (voiceRaw p v w x m).1.decayLevel = x.decayLevel := by
  rw [voiceRaw_voice]; simp only [arbKind_decayLevel, noiseKind_decayLevel]

/-! ## One voice -/

/-- What one pass of the loop can be. -/
theorem sampleVoice_cases (p : Params) (sr : BitVec 20) (v : Nat) (x : Voice) (m : Mix) :
    (x.envState = .off ∧ sampleVoice p sr v x m = (advancePhase sr x, m)) ∨
      (x.envState ≠ .off ∧ sampleVoice p sr v x m =
        sampleSounding p sr v (phaseWraps sr x) (advancePhase sr x) m) := by
  unfold sampleVoice
  by_cases h : x.envState = .off
  · exact .inl ⟨h, by simp [h]⟩
  · exact .inr ⟨h, by simp [h]⟩

/-- The shared state's noise stays nonzero through the kinds. -/
theorem voiceRaw_noise_ne_zero (p : Params) (v : Nat) (w : Bool) (x : Voice) (m : Mix)
    (h : m.noise ≠ 0) : (voiceRaw p v w x m).2.1.noise ≠ 0 := by
  have hn : (noiseKind w x m).2.1.noise ≠ 0 := by
    rcases noiseKind_cases w x m with ⟨-, he⟩ | ⟨-, he⟩ <;> rw [he]
    · exact h
    · exact noiseNext_ne_zero h
  have hr : (voiceRaw p v w x m).2.1 = (arbKind p v (noiseKind w x m).1 (noiseKind w x m).2.1).2.1 := rfl
  rw [hr]
  rcases arbKind_cases p v (noiseKind w x m).1 (noiseKind w x m).2.1 with
    ⟨-, he⟩ | ⟨-, -, -, he, -⟩ | ⟨-, -, -, he, -⟩ <;> rw [he]
  · exact hn
  · exact hn
  · exact hn

/-- The kinds keep a voice's invariant. -/
theorem voiceInv_voiceRaw (p : Params) (hp : p.legal) (v : Nat) (w : Bool) (x : Voice) (m : Mix)
    (h : voiceInv p x) : voiceInv p (voiceRaw p v w x m).1 := by
  obtain ⟨he, hs, hd, hr, hw, hc⟩ := h
  have harb : (noiseKind w x m).1.arbRd = x.arbRd ∧ (noiseKind w x m).1.arb = x.arb := by
    rcases noiseKind_cases w x m with ⟨h, -⟩ | ⟨h, -⟩ <;> rw [h] <;> exact ⟨rfl, rfl⟩
  refine ⟨?_, by simpa using hs, by simpa using hd, ?_⟩
  · simpa only [envInv, timedOk, voiceRaw_envValue, voiceRaw_envStep, voiceRaw_envState,
      voiceRaw_envTarget, voiceRaw_envElapsed] using he
  · rw [voiceRaw_voice]
    exact arbKind_keeps p hp v _ _ (harb.1 ▸ hr) (harb.2 ▸ hw) (harb.2 ▸ hc)

/-- A tick keeps a voice's invariant. -/
theorem voiceInv_envTick (p : Params) (sr : BitVec 20) (x : Voice) (h : voiceInv p x) :
    voiceInv p (envTick sr x) := by
  obtain ⟨he, hs, hd, hr, hw, hc⟩ := h
  refine ⟨envInv_envTick sr x he hs hd, by simpa using hs, ?_, by simpa using hr, by simpa using hw,
    by simpa using hc⟩
  rcases envTick_decayLevel sr x with h | h <;> rw [h]
  · exact hd
  · exact hs

/-- The phase advance keeps a voice's invariant. -/
theorem voiceInv_advancePhase (p : Params) (sr : BitVec 20) (x : Voice) (h : voiceInv p x) :
    voiceInv p (advancePhase sr x) := by
  simpa only [voiceInv, envInv, timedOk, advancePhase_envValue, advancePhase_envStep,
    advancePhase_envState, advancePhase_envTarget, advancePhase_envElapsed, advancePhase_sustain,
    advancePhase_decayLevel, advancePhase_arbRd, advancePhase_arb] using h

/-- One pass of the loop keeps the voice's invariant and the generator nonzero. -/
theorem sampleVoice_keeps (p : Params) (hp : p.legal) (sr : BitVec 20) (v : Nat) (x : Voice) (m : Mix)
    (hx : voiceInv p x) (hm : m.noise ≠ 0) :
    voiceInv p (sampleVoice p sr v x m).1 ∧ (sampleVoice p sr v x m).2.noise ≠ 0 := by
  have ha := voiceInv_advancePhase p sr x hx
  rcases sampleVoice_cases p sr v x m with ⟨-, h⟩ | ⟨-, h⟩ <;> rw [h]
  · exact ⟨ha, hm⟩
  · exact ⟨voiceInv_envTick p sr _ (voiceInv_voiceRaw p hp v _ _ m ha),
      voiceRaw_noise_ne_zero p v _ _ m hm⟩

/-! ## The loop -/

@[simp] theorem sampleSlots_length (p : Params) (sr : BitVec 20) (v n : Nat) (xs : List Voice) (m : Mix) :
    (sampleSlots p sr v n xs m).1.length = xs.length := by
  induction n generalizing v xs m with
  | zero => rfl
  | succ n ih => cases xs <;> simp [sampleSlots, ih]

/-- The packaged induction over SAMPLE's loop: a property of voices and one of the shared state that
every pass keeps hold after the loop. -/
theorem sampleSlots_keeps {P : Voice → Prop} {Q : Mix → Prop} (p : Params) (sr : BitVec 20)
    (hstep : ∀ v x m, P x → Q m → P (sampleVoice p sr v x m).1 ∧ Q (sampleVoice p sr v x m).2)
    (v n : Nat) (xs : List Voice) (m : Mix) (hx : ∀ x ∈ xs, P x) (hm : Q m) :
    (∀ x ∈ (sampleSlots p sr v n xs m).1, P x) ∧ Q (sampleSlots p sr v n xs m).2 := by
  induction n generalizing v xs m with
  | zero => exact ⟨hx, hm⟩
  | succ n ih =>
    cases xs with
    | nil => exact ⟨by simp [sampleSlots], hm⟩
    | cons x xs =>
      obtain ⟨h1, h2⟩ := hstep v x m (hx x List.mem_cons_self) hm
      obtain ⟨h3, h4⟩ := ih (v + 1) xs (sampleVoice p sr v x m).2
        (fun y hy => hx y (List.mem_cons_of_mem _ hy)) h2
      refine ⟨fun y hy => ?_, h4⟩
      rcases List.mem_cons.mp hy with rfl | hy
      · exact h1
      · exact h3 y hy

/-- A slot the loop does not reach is unchanged (R22, R111). -/
theorem sampleSlots_beyond (p : Params) (sr : BitVec 20) (v n : Nat) (xs : List Voice) (m : Mix) (i : Nat)
    (h : n ≤ i) : (sampleSlots p sr v n xs m).1[i]? = xs[i]? := by
  induction n generalizing v xs m i with
  | zero => rfl
  | succ n ih =>
    cases xs with
    | nil => rfl
    | cons x xs =>
      cases i with
      | zero => omega
      | succ i =>
        simp only [sampleSlots, List.getElem?_cons_succ]
        exact ih _ _ _ _ (by omega)

/-- A slot the loop reaches is one pass over what it was, for some shared state. -/
theorem sampleSlots_reached (p : Params) (sr : BitVec 20) (v n : Nat) (xs : List Voice) (m : Mix) (i : Nat)
    (x : Voice) (hi : i < n) (hx : xs[i]? = some x) :
    ∃ m', (sampleSlots p sr v n xs m).1[i]? = some (sampleVoice p sr (v + i) x m').1 := by
  induction n generalizing v xs m i with
  | zero => omega
  | succ n ih =>
    cases xs with
    | nil => simp at hx
    | cons y ys =>
      cases i with
      | zero =>
        obtain rfl : y = x := by simpa using hx
        exact ⟨m, by simp [sampleSlots]⟩
      | succ i =>
        obtain ⟨m', h⟩ := ih (v + 1) ys (sampleVoice p sr v y m).2 i (by omega) (by simpa using hx)
        refine ⟨m', ?_⟩
        simp only [sampleSlots, List.getElem?_cons_succ, h]
        rw [show v + 1 + i = v + (i + 1) by omega]

end Sys2Proof.Machine
end

