-- ==== Sys2Proof/Laws/PerInstr.lean ====
section
/-! SUPPORT. One lemma per command: the fields of the encoded word are the fields the command's row gives
(spec/30_encoding.md R67, R70). -/

namespace Sys2Proof.Laws.EncodeFields

/-- The CMD word of an encoded command holds its OP, VF and IMM, and ARG its argument (R67). -/
def Statement (i : Instr) : Prop :=
  opField (encode i).1 = (encodeFields i).1 ∧ vfField (encode i).1 = (encodeFields i).2.1 ∧
    immField (encode i).1 = (encodeFields i).2.2.1 ∧ (encode i).2 = (encodeFields i).2.2.2

theorem all (i : Instr) : Statement i :=
  ⟨opField_cmdWord _ _ _, vfField_cmdWord _ _ _, immField_cmdWord _ _ _, rfl⟩

theorem nop : Statement .nop := all _
theorem init (n : Half) (sr : Word) : Statement (.init n sr) := all _
theorem setSr (sr : Word) : Statement (.setSr sr) := all _
theorem setMvol (pct : Half) : Statement (.setMvol pct) := all _
theorem clrStatus : Statement .clrStatus := all _
theorem read (v : Byte) (sel : Half) : Statement (.read v sel) := all _
theorem setWave (v : Byte) (mask : BitVec 6) : Statement (.setWave v mask) := all _
theorem setFreq (v : Byte) (hz : Half) : Statement (.setFreq v hz) := all _
theorem setPw (v : Byte) (pw : Half) : Statement (.setPw v pw) := all _
theorem arbWrite (v : Byte) (x : Half) (i : Word) : Statement (.arbWrite v x i) := all _
theorem arbRead (v : Byte) (i : Word) : Statement (.arbRead v i) := all _
theorem setAttack (v : Byte) (ms : Half) : Statement (.setAttack v ms) := all _
theorem setDecay (v : Byte) (ms : Half) : Statement (.setDecay v ms) := all _
theorem setSustain (v : Byte) (level : Half) : Statement (.setSustain v level) := all _
theorem setRelease (v : Byte) (ms : Half) : Statement (.setRelease v ms) := all _
theorem trigAttack (v : Byte) : Statement (.trigAttack v) := all _
theorem trigRelease (v : Byte) : Statement (.trigRelease v) := all _
theorem setVol (v : Byte) (vol : Byte) : Statement (.setVol v vol) := all _
theorem sample : Statement .sample := all _
theorem seqInit (n : Byte) (len : Half) (base : Word) : Statement (.seqInit n len base) := all _
theorem seqStart (loop : Bool) (now : Word) : Statement (.seqStart loop now) := all _
theorem seqStop : Statement .seqStop := all _
theorem seqTempo (bpm : Half) : Statement (.seqTempo bpm) := all _
theorem seqCb (en : Bool) : Statement (.seqCb en) := all _
theorem ntWrite (x : Half) (a : Word) : Statement (.ntWrite x a) := all _
theorem ntRead (a : Word) : Statement (.ntRead a) := all _
theorem tick (now : Word) : Statement (.tick now) := all _

end Sys2Proof.Laws.EncodeFields
end

