-- ==== Sys2Proof/Tests/Slice0.lean ====
section
/-! SUPPORT. Tests. Expected values come from the spec: the examples of its rules, or a calculation by
hand from a rule. The second half shows, for every statement with hypotheses, a state and operands that
meet them all. -/

namespace Sys2Proof.Tests

open Sys2Proof.Machine

/-! ## Well-formedness (R72): the one check, refused on an ill-formed term -/

theorem test_wf_refuses_global_read_with_a_voice : Instr.wf (.read 1 0x01) = false := by decide
theorem test_wf_refuses_last_reserved_selector : Instr.wf (.read 1 0x0F) = false := by decide
theorem test_wf_accepts_voice_read : Instr.wf (.read 1 0x10) = true := by decide

/-! ## Decoding: a word for every constructor, written from R67 and R70 or an example of its rule -/

theorem test_decode_nop : decode 0x00000000 0 = .ok .nop := by decide
theorem test_decode_init : decode 0x01000004 0x0000AC44 = .ok (.init 4 44100) := by decide
theorem test_decode_setSr : decode 0x02000000 0x00001F40 = .ok (.setSr 8000) := by decide
theorem test_decode_setMvol : decode 0x03000096 0 = .ok (.setMvol 150) := by decide
theorem test_decode_clrStatus : decode 0x04000000 0 = .ok .clrStatus := by decide
theorem test_decode_read : decode 0x0503001E 0 = .ok (.read 3 0x1E) := by decide
theorem test_decode_setWave : decode 0x1000000A 0 = .ok (.setWave 0 0x0A) := by decide
theorem test_decode_setFreq : decode 0x110101B8 0 = .ok (.setFreq 1 440) := by decide
theorem test_decode_setPw : decode 0x12004000 0 = .ok (.setPw 0 0x4000) := by decide
theorem test_decode_arbWrite : decode 0x1300FFFB 3 = .ok (.arbWrite 0 (-5) 3) := by decide
theorem test_decode_arbRead : decode 0x14020000 3 = .ok (.arbRead 2 3) := by decide
theorem test_decode_setAttack : decode 0x2000000A 0 = .ok (.setAttack 0 10) := by decide
theorem test_decode_setDecay : decode 0x21010002 0 = .ok (.setDecay 1 2) := by decide
theorem test_decode_setSustain : decode 0x22000080 0 = .ok (.setSustain 0 128) := by decide
theorem test_decode_setRelease : decode 0x230201F4 0 = .ok (.setRelease 2 500) := by decide
theorem test_decode_trigAttack : decode 0x24050000 0 = .ok (.trigAttack 5) := by decide
theorem test_decode_trigRelease : decode 0x25060000 0 = .ok (.trigRelease 6) := by decide
theorem test_decode_setVol : decode 0x300000FF 0 = .ok (.setVol 0 255) := by decide
theorem test_decode_sample : decode 0x31000000 0 = .ok .sample := by decide
theorem test_decode_seqInit : decode 0x40010004 9 = .ok (.seqInit 1 4 9) := by decide
theorem test_decode_seqStart : decode 0x41000001 7 = .ok (.seqStart true 7) := by decide
theorem test_decode_seqStop : decode 0x42000000 0 = .ok .seqStop := by decide
theorem test_decode_seqTempo : decode 0x43000096 0 = .ok (.seqTempo 150) := by decide
theorem test_decode_seqCb : decode 0x44000001 0 = .ok (.seqCb true) := by decide
theorem test_decode_ntWrite : decode 0x4500FFFF 1 = .ok (.ntWrite (-1) 1) := by decide
theorem test_decode_ntRead : decode 0x46000000 1 = .ok (.ntRead 1) := by decide
theorem test_decode_tick : decode 0x47000000 0x190 = .ok (.tick 400) := by decide

/-- R165's example, and R72: one reserved bit of IMM, of ARG, of VF. -/
theorem test_decode_rejects :
    decode 0xFF123456 0 = .error .illegalOp ∧ decode 0x10000040 0 = .error .rsvd ∧
      decode 0x31000000 1 = .error .rsvd ∧ decode 0x05010001 0 = .error .rsvd := by decide

/-- R54, R67: `SET_FREQ v1, 440` as the bytes of a link. -/
theorem test_bytes_of_setFreq :
    decodeBytes [0xB8, 0x01, 0x01, 0x11, 0, 0, 0, 0] = some (.ok (.setFreq 1 440), []) := by decide

theorem test_seven_bytes_are_no_transfer : takeTransfer [0xB8, 1, 1, 0x11, 0, 0, 0] = none := by decide

theorem test_table_word : decodeTableWord 32 0x240A0000 = some (.trigAttack 10) := by decide

/-! ## Sub-procedures, by the examples of their rules -/

theorem test_noise_next : noiseNext 1 = 0x00042021 := by decide
theorem test_phase_inc : phaseInc 440 44100 = 42852281 := by decide
theorem test_tri : tri 0x40000000 = 0 ∧ tri 0x80000000 = 32767 ∧ tri 0xC0000000 = -1 := by decide
theorem test_square : square 0x7FFFFFFF 0x8000 = 32767 ∧ square 0x80000000 0x8000 = -32768 := by decide
theorem test_sine_row_80 : sine 0x50000000 = 30273 ∧ sine 0x5F000000 = 23731 := by decide
theorem test_frames : frames 44100 10 = 441 ∧ frames 999 1 = 1 ∧ frames 1048575 65535 = 68718362 := by
  decide
theorem test_bpm : bpmToMs 150 = 100 ∧ bpmToMs 7 = 2142 ∧ bpmToMs 20000 = 1 := by decide
theorem test_env_scale : envScale (-1) 1 = -1 ∧ envScale 1 (2 ^ 30 - 1) = 0 := by decide
theorem test_vol_scale : volScale (-32768) 255 = -32640 ∧ volScale 32767 255 = 32639 := by decide
theorem test_mix : mixOut 65278 100 = 32767 ∧ mixOut 65278 50 = 32639 := by decide
theorem test_quot_asr : quot (-7) 2 = -3 ∧ asr (-1) 8 = -1 := by decide

/-! ## Assembly (R76, R77) -/

theorem test_assemble_mask : assembleWords "SET_WAVE v0, SAW|SQUARE" = some [(0x1000000A, 0)] := by decide
theorem test_assemble_signed : assembleWords "NT_WRITE -1, 1" = some [(0x4500FFFF, 1)] := by decide
theorem test_assemble_refuses : assembleWords "SET_VOL v0, 256" = none := by decide
theorem test_assemble_pseudo :
    assembleWords "NOTE_ON v1, 440" = some [(0x110101B8, 0), (0x24010000, 0)] := by decide

/-! ## One step -/

/-- A voice sounding at full scale: SAW, VOL 255, phase where the rules' example R134 has it. -/
def sounding : Voice :=
  { Voice.defaults 2 with
    wave := 0x08, vol := 255, freq := 0, envState := .sustain, envValue := 2 ^ 30 }

/-- Two active voices of three, a 2-element buffer each, an 8-entry table, playing its beat 1. -/
def demo : State :=
  { State.resetOf { nvMax := 3, arbLen := 2, ntWords := 8, noiseSeed := 1, portMap := 0 } with
    g := { nva := 2, sr := 8000, mvol := 100, noise := 1, done := false, err := false, errcode := .none }
    voices := [sounding, { Voice.defaults 2 with wave := 0x20 }, Voice.defaults 2]
    seq := { playing := true, loop := false, cbEn := true, len := 2, voices := 1, base := 6
             beatMs := 100, start := 0, last := 0, beatValid := true }
    nt := [(6, 100), (7, 0xFFFF)] }

/-- What a test reads of an outcome's state. -/
def after {α : Type} (r : Result) (f : State → α) : Option α :=
  match r with
  | .next t => some (f t)
  | _ => none

/-- R134's example: one voice at full scale, SQUARE high, gives 32639. -/
theorem test_sample_full_scale : after (exec .sample demo) (fun t => t.port.rdata) = some 32639 := by decide

/-- R137: two such voices clip. -/
theorem test_sample_clips :
    after (exec .sample { demo with voices := [sounding, sounding] }) (fun t => t.port.rdata) =
      some 32767 := by decide

/-- R141, SAMPLE 2: SAW at 0x40000000 with E = 2^27. -/
theorem test_sample_saw :
    after (exec .sample { demo with voices :=
      [{ sounding with wave := 2, freq := 1000, phase := 0x20000000, envState := .attack
                       envValue := 2 ^ 27, envStep := 2 ^ 27, envElapsed := 1, envTarget := 8 }] })
      (fun t => (t.port.rdata, t.voices.map fun x => (x.phase, x.envValue))) =
    some (BitVec.ofInt 32 (-2040), [(0x40000000, 2 ^ 28)]) := by decide

/-- R102, R169: an exhausted buffer is refilled from the host's answer, and its first element is used. -/
theorem test_sample_refills :
    after (exec .sample { demo with
        voices := [{ sounding with wave := 0x20 }]
        port := { Port.idle with refills := [[256, 7]] } })
      (fun t => (t.port.rdata, t.port.events,
        t.voices.map fun x => (x.arbRd, Memory.read x.arb 0, Memory.read x.arb 1))) =
    some (255, [.refill 0], [(1, 256, 7)]) := by decide

/-- R100, R114: a wrap draws once, and the high half is held. -/
theorem test_sample_draws_on_a_wrap :
    after (exec .sample { demo with
        voices := [{ sounding with wave := 1, freq := 1000, phase := 0xE0000000 }] })
      (fun t => (t.g.noise, t.voices.map fun x => (x.phase, x.noiseSample))) =
    some (0x00042021, [(0, 4)]) := by decide

/-- R123, R125: the examples' frame counts and steps. -/
theorem test_triggers :
    after (exec (.trigAttack 1) { demo with voices := [sounding, { Voice.defaults 2 with attack := 1 }] })
        (fun t => t.voices.map fun x => (x.envTarget, x.envStep)) =
      some [(0, 0), (8, 134217728)] ∧
    after (exec (.trigRelease 0) { demo with voices := [{ sounding with release := 1, envValue := 2 ^ 29 }] })
        (fun t => t.voices.map fun x => (x.envTarget, x.envStep.toInt)) =
      some [(8, -67108864)] := by decide

/-- R117, R187: SUSTAIN written during DECAY does not move the level DECAY lands on. -/
theorem test_decay_lands_on_the_level_read_at_its_entry :
    after (exec .sample { demo with voices :=
      [{ sounding with sustain := 200, decayLevel := 128, envState := .decay, envElapsed := 0, envTarget := 1 }] })
      (fun t => t.voices.map fun x => (x.envState, x.envValue)) = some [(.sustain, 2 ^ 29)] := by decide

/-- A voice that enters a DECAY of 68718362 frames with SUSTAIN `l`. -/
def longDecay (l : BitVec 9) : Voice :=
  enter 0xFFFFF .decay 0xFFFF { Voice.defaults 2 with sustain := l, decay := 0xFFFF, envValue := 2 ^ 30 }

/-- Why `decayLevel` is a field of its own (log 5): entered with SUSTAIN 255 and with SUSTAIN 256, and SUSTAIN
then written to 256, the two voices have equal named registers, and R117 and R187 give them different
landings. -/
theorem test_named_registers_do_not_hold_the_decay_level :
    ((longDecay 255).withSustain 256).withDecayLevel 0 = ((longDecay 256).withSustain 256).withDecayLevel 0 ∧
      (longDecay 255).decayLevel ≠ (longDecay 256).decayLevel := by
  have h : (longDecay 255).envStep = (longDecay 256).envStep := by decide
  exact ⟨congrArg (fun z => { (longDecay 256) with envStep := z, sustain := 256, decayLevel := 0 }) h,
    by decide⟩

/-- No function `level` of the named registers (one that does not look at `decayLevel`) gives back the SUSTAIN
a long DECAY was entered with, once SUSTAIN has been written again (log 5). -/
theorem test_no_function_of_the_named_registers_gives_the_decay_level :
    ¬∃ level : Voice → BitVec 9, (∀ x l, level (x.withDecayLevel l) = level x) ∧
      ∀ l w, level ((longDecay l).withSustain w) = l := by
  rintro ⟨level, named, entry⟩
  have h := congrArg level test_named_registers_do_not_hold_the_decay_level.1
  rw [named, named, entry, entry] at h
  exact absurd h (by decide)

/-- R151's example: S.START 0, 100 ms, beat 2, then 300 bpm. -/
theorem test_tempo_rebases :
    after (exec (.seqTempo 300) { demo with seq := { demo.seq with last := 2 } })
      (fun t => (t.seq.start, t.seq.beatMs)) = some (100, 50) := by decide

/-- R161: beat 1 of the row releases; the end of the track stops, silences and raises EV_DONE. -/
theorem test_tick_release :
    after (exec (.tick 100) demo) (fun t => (t.seq.last, t.voices.map fun x => x.envState)) =
      some (1, [.release, .off, .off]) := by decide
theorem test_tick_end :
    after (exec (.tick 200) demo)
        (fun t => (t.seq.playing, t.g.done, t.port.events, t.voices.map fun x => x.envState)) =
      some (false, true, [.done], [.off, .off, .off]) := by decide

/-- R53, U3: a note below -1 is no event. -/
theorem test_tick_ignores_minus_two :
    after (exec (.tick 100) { demo with nt := [(7, 0xFFFE)] })
      (fun t => t.voices.map fun x => x.envState) = some [.sustain, .off, .off] := by decide

/-- R43: STATUS while playing with EV_DONE enabled and a beat dispatched. -/
theorem test_read_status : after (exec (.read 0 0) demo) (fun t => t.port.rdata) = some 0x31 := by decide

/-- R87, R154: NT[7] = -1 reads as 0xFFFFFFFF. -/
theorem test_nt_read : after (exec (.ntRead 7) demo) (fun t => t.port.rdata) = some 0xFFFFFFFF := by decide

/-- R165's order: `SEQ_INIT 0, 4, 0` while playing is BAD_VALUE; `ARB_READ v9` is BAD_VOICE. -/
theorem test_check_order :
    after (exec (.seqInit 0 4 0) demo) (fun t => t.g.errcode) = some .badValue ∧
      after (exec (.arbRead 9 1000) demo) (fun t => t.g.errcode) = some .badVoice := by decide

/-- R163: the first error is kept. -/
theorem test_first_error_kept :
    after (exec (.setSr 0) { demo with g := { demo.g with err := true, errcode := .rsvd } })
      (fun t => (t.g.err, t.g.errcode)) = some (true, .rsvd) := by decide

/-- R81, R8: INIT as the first command after reset, through the step. -/
theorem test_step_init :
    after (step (State.reset.present (.command 0x01000004 0x0000AC44)))
      (fun t => (t.g.nva, t.g.sr, t.port.pending)) = some (4, 44100, []) := by decide

/-- A table word as the first command after reset. -/
theorem test_step_table_word :
    after (step (State.reset.withFetchWord 32 0x03000032)) (fun t => t.g.mvol) = some 50 := by decide

/-! ## Witnesses: the hypotheses of each statement are met, clause by clause, at the ends of their ranges -/

/-- `demo` with DONE set and an error recorded. -/
def errored : State :=
  { demo with g := { demo.g with done := true, err := true, errcode := .rsvd } }

/-- `demo` with `inputs` presented. -/
def presented (inputs : List HostInput) : State := demo.withPending inputs

/-- `demo` with every voice OFF. -/
def silent : State := { demo with voices := List.replicate 3 (Voice.defaults 2) }

/-- `demo`, stopped. -/
def stopped : State := { demo with seq := { demo.seq with playing := false } }

/-- `demo` in loop mode. -/
def looping : State := { demo with seq := { demo.seq with loop := true } }

/-- A voice in each state of the envelope, at a frame of its phase. -/
def inPhase (st : EnvState) (elapsed target : Word) : Voice :=
  { Voice.defaults 2 with envState := st, envElapsed := elapsed, envTarget := target }

theorem witness_EncodedCommandDecodesToItself :
    (Instr.read 63 0x1F).wf = true ∧ (Instr.read 0 0x0F).wf = true ∧ (Instr.tick 0xFFFFFFFF).wf = true := by
  decide
theorem witness_DecodedCommandEncodesToItsWords :
    decode 0x053F0010 0 = .ok (.read 63 0x10) ∧ decode 0x47000000 0xFFFFFFFF = .ok (.tick 0xFFFFFFFF) := by
  decide
theorem witness_WrittenOperandsAssembleToTheCommand :
    (∀ v sel, Instr.read 0 0x0F = .read v sel → selTakesVoice sel = false → v = 0) ∧
      selTakesVoice 0x10 = true := by
  refine ⟨?_, by decide⟩
  intro v sel h _
  cases h
  rfl
theorem witness_StepRunsTheDecodedCommand :
    let s := presented [.command 0x31000000 0, .reset]
    s.params.legal ∧ s.voices.length = s.params.nvMax ∧
      s.port.pending = .command 0x31000000 0 :: [.reset] ∧ decode 0x31000000 0 = .ok .sample := by decide
theorem witness_StepRejectsAnUndecodableTransfer :
    let s := presented [.command 0x31000000 1]
    s.params.legal ∧ s.voices.length = s.params.nvMax ∧
      s.port.pending = .command 0x31000000 1 :: [] ∧ decode 0x31000000 1 = .error .rsvd := by decide
/-- R6: each bound is one past the legal range. -/
theorem witness_IllegalInstanceIsRefused :
    ((Params.mk 1 1 1 1 0).legal ∧ (Params.mk 64 256 65536 1 0).legal) ∧
      (State.resetOf (Params.mk 0 2 8 1 0)).params.nvMax < 1 ∧ 64 < (Params.mk 65 2 8 1 0).nvMax ∧
      (Params.mk 3 0 8 1 0).arbLen < 1 ∧ 256 < (Params.mk 3 257 8 1 0).arbLen ∧
      (Params.mk 3 2 0 1 0).ntWords < 1 ∧ 65536 < (Params.mk 3 2 65537 1 0).ntWords ∧
      (Params.mk 3 2 8 0 0).noiseSeed.toNat < 1 := by decide
theorem witness_HardwareResetRestoresEveryRegister :
    let s := presented [.reset]
    s.params.legal ∧ s.voices.length = s.params.nvMax ∧ s.port.pending = .reset :: [] := by decide
theorem witness_ResetHasTheTabledValues : 63 < (Params.mk 64 256 65536 1 0).nvMax := by decide
/-- Also the hypothesis of AccumulatorStaysExact. -/
theorem witness_EveryStepKeepsTheInvariant :
    Inv (presented [.command 0x31000000 0, .command 0x47000000 100]) := by decide
theorem witness_InitDefaultsEverySlot :
    (1 ≤ (3 : Half).toNat ∧ (3 : Half).toNat ≤ demo.params.nvMax ∧ (0xFFFFF : Word).toNat ≤ 0xFFFFF) ∧
      demo.params.nvMax < (4 : Half).toNat ∧ 0xFFFFF < (0x100000 : Word).toNat := by decide
theorem witness_SetSrWritesTheRate :
    1 ≤ (1 : Word).toNat ∧ (0xFFFFF : Word).toNat ≤ 0xFFFFF ∧ 0xFFFFF < (0x100000 : Word).toNat := by decide
/-- The last active voice and the first inactive one: READ's clauses, and those of every `voiceSetter`. -/
theorem witness_ReadReturnsEveryRegister :
    (1 : Byte).toNat < demo.g.nva.toNat ∧ demo.voices[(1 : Byte).toNat]?.isSome = true ∧
      demo.g.nva.toNat ≤ (2 : Byte).toNat ∧ 0x10 ≤ (0x10 : Half).toNat ∧ (0x1F : Half).toNat ≤ 0x1F ∧
      0x0B ≤ (0x0B : Half).toNat ∧ (0x0F : Half).toNat ≤ 0x0F ∧ 0x20 ≤ (0x20 : Half).toNat := by decide
theorem witness_voiceSetter :
    (1 : Byte).toNat < demo.g.nva.toNat ∧ demo.g.nva.toNat ≤ (2 : Byte).toNat := by decide
/-- The last element of a buffer and the first index past it; for ARB_READ too. -/
theorem witness_ArbWriteStoresOneElement :
    (1 : Byte).toNat < demo.g.nva.toNat ∧ (1 : Word).toNat < demo.params.arbLen ∧
      (demo.voices[(1 : Byte).toNat]?.any fun y => decide (Memory.wf y.arb)) = true ∧
      demo.g.nva.toNat ≤ (2 : Byte).toNat ∧ demo.params.arbLen ≤ (2 : Word).toNat := by decide
/-- The last entry of the note table and the first index past it; for NT_READ too. -/
theorem witness_NtWriteStoresOneEntry :
    (7 : Word).toNat < demo.params.ntWords ∧ Memory.wf demo.nt ∧ demo.params.ntWords ≤ (8 : Word).toNat := by
  decide
theorem witness_NoiseNextIsXorshift : (0xFFFFFFFF : Word) ≠ 0 := by decide
theorem witness_RampAndPulseFormulas :
    (0x7FFFFFFF : Word).toNat < 2 ^ 31 ∧ 2 ^ 31 ≤ (0x80000000 : Word).toNat := by decide
theorem witness_NoiseKindDrawsOnlyOnAWrap :
    ({ sounding with wave := 0x01 } : Voice).wave.getLsbD 0 = true ∧ sounding.wave.getLsbD 0 = false := by
  decide
theorem witness_ArbNextConsumesOneSample :
    let x : Voice := { Voice.defaults 2 with wave := 0x20 }
    let m : Mix := { noise := 1, refills := [[1, 2], [3]], refillCount := 0, events := [], acc := 0 }
    demo.params.legal ∧ x.wave.getLsbD 5 = true ∧ Memory.wf x.arb ∧
      ({ x with arbRd := 1 } : Voice).arbRd.toNat < demo.params.arbLen ∧
      x.arbRd.toNat = demo.params.arbLen ∧ m.refills = [1, 2] :: [[3]] ∧
      ([1, 2] : List Half).length = demo.params.arbLen := by decide
theorem witness_EnvTickAdvancesOneFrame :
    (inPhase .sustain 0 0).envState = .sustain ∧
      (inPhase .attack 0 2).envElapsed + 1 ≠ (inPhase .attack 0 2).envTarget ∧
      (inPhase .attack 1 2).envElapsed + 1 = (inPhase .attack 1 2).envTarget ∧
      (inPhase .decay 0 1).envElapsed + 1 = (inPhase .decay 0 1).envTarget ∧
      (inPhase .release 0xFFFFFFFE 0xFFFFFFFF).envElapsed + 1 =
        (inPhase .release 0xFFFFFFFE 0xFFFFFFFF).envTarget := by decide
/-- At 1000 Hz, 2 ms of attack and 2 of decay: k = 1, 2, 3, 4 are one frame in each clause. -/
theorem witness_AttackDecaySustainTimeline :
    let x : Voice := { Voice.defaults 2 with attack := 2, decay := 2, envValue := 2 ^ 30 }
    x.envValue.toNat ≤ 2 ^ 30 ∧ x.sustain.toNat ≤ 256 ∧
      Claim.frameCount 1000 x.attack = 2 ∧ Claim.frameCount 1000 x.decay = 2 := by decide
theorem witness_ReleaseFallsToOff :
    let x : Voice := { Voice.defaults 2 with release := 2, envValue := 2 ^ 30 }
    x.envValue.toNat ≤ 2 ^ 30 ∧ 1 < Claim.frameCount 1000 x.release := by decide
theorem witness_SampleRunsTheVoicesInOrder : Claim.sampleReady demo :=
  ⟨by decide, by decide⟩
theorem witness_SampleOfSilenceAdvancesPhases :
    (silent.g.nva = 0 ∨ silent.g.sr ≠ 0) ∧
      ∀ v x, v < silent.g.nva.toNat → silent.voices[v]? = some x → x.envState = .off := by
  refine ⟨by decide, fun v x _ h => ?_⟩
  have hx := List.mem_of_getElem? h
  rw [List.eq_of_mem_replicate hx]
  rfl
theorem witness_VoiceGainStaysInRange :
    (-32768 : Int) ≤ -32768 ∧ (32767 : Int) ≤ 32767 ∧ (0x40000000 : BitVec 31).toNat = 2 ^ 30 ∧
      (0 : BitVec 31).toNat = 0 ∧ 0 < (1 : BitVec 31).toNat := by decide
theorem witness_SampleOutputIsSixteenBits : ∃ t, exec .sample demo = .next t := ⟨_, rfl⟩
theorem witness_SeqInitBindsTheTable :
    (2 : Byte).toNat ≤ demo.g.nva.toNat ∧
      (2 : Word).toNat + (2 : Byte).toNat * (3 : Half).toNat ≤ demo.params.ntWords ∧
      demo.params.ntWords < (3 : Word).toNat + (2 : Byte).toNat * (3 : Half).toNat ∧
      demo.g.nva.toNat < (3 : Byte).toNat ∧ stopped.seq.playing = false ∧ demo.seq.playing = true := by decide
theorem witness_SeqStartCapturesTheTime :
    (1 ≤ demo.seq.len.toNat ∧ 1 ≤ demo.seq.voices.toNat ∧ demo.seq.voices.toNat ≤ demo.g.nva.toNat) ∧
      ¬1 ≤ State.reset.seq.len.toNat := by decide
theorem witness_SeqStopIsIdempotentAndSilent :
    ∃ t u, exec .seqStop demo = .next t ∧ exec .sample t = .next u ∧ t.voices[1]?.isSome = true :=
  ⟨_, _, rfl, rfl, rfl⟩
theorem witness_SeqTempoRebasesTheStart : (0 : Half).toNat = 0 ∧ 1 ≤ (1 : Half).toNat := by decide
/-- R151's example, at 250 ms: half a beat after beat 2. -/
theorem witness_TempoChangeRefiresNoBeat :
    let s : State := { demo with seq := { demo.seq with last := 2 } }
    ∃ t, exec (.seqTempo 300) s = .next t ∧ 1 ≤ (300 : Half).toNat ∧ s.seq.playing = true ∧
      s.seq.beatValid = true ∧
      (((250 : Word).toNat : Int) - s.seq.start.toNat - s.seq.last.toNat * s.seq.beatMs.toNat) % 2 ^ 32 =
        (50 : Nat) ∧
      50 + s.seq.last.toNat * t.seq.beatMs.toNat < 2 ^ 32 :=
  ⟨_, rfl, by decide, by decide, by decide, by decide, by decide⟩
/-- Stopped; and at the last millisecond of the beat dispatched last. -/
theorem witness_TickWithoutANewBeatChangesNothing :
    stopped.seq.playing = false ∧ 1 ≤ demo.seq.beatMs.toNat ∧ demo.seq.beatValid = true ∧
      Claim.beatAt demo.seq 99 = demo.seq.last.toNat := by decide
/-- The last beat of the track; and in loop mode the first past it. -/
theorem witness_TickDispatchesTheBeatsColumn :
    (Claim.beatDue 100 demo ∧ Claim.tableFits demo ∧ Claim.beatAt demo.seq 100 < demo.seq.len.toNat) ∧
      Claim.beatDue 200 looping ∧ Claim.tableFits looping ∧ looping.seq.loop = true :=
  ⟨⟨⟨by decide, by decide, by decide⟩, ⟨by decide, by decide⟩, by decide⟩,
    ⟨by decide, by decide, by decide⟩, ⟨by decide, by decide⟩, by decide⟩
theorem witness_TickEndsAOneShotTrack :
    Claim.beatDue 200 demo ∧ demo.seq.loop = false ∧ demo.seq.len.toNat ≤ Claim.beatAt demo.seq 200 :=
  ⟨⟨by decide, by decide, by decide⟩, by decide, by decide⟩
theorem witness_TickAgainAtTheSameTimeChangesNothing :
    (∃ t, exec (.tick 100) demo = .next t) ∧ ∃ t, exec (.tick 200) demo = .next t :=
  ⟨⟨_, rfl⟩, ⟨_, rfl⟩⟩
theorem witness_OnlyClrStatusClearsTheStickyFlags :
    (∃ t, exec (.tick 200) errored = .next t) ∧ mnemonicOf (.tick 200) ≠ .clrStatus ∧
      errored.g.err = true ∧ errored.g.done = true :=
  ⟨⟨_, rfl⟩, by decide, by decide, by decide⟩
theorem witness_OnlyTheListedCommandsWriteEachRegister :
    ∃ t x y, exec (.tick 100) demo = .next t ∧ demo.voices[0]? = some x ∧ t.voices[0]? = some y :=
  ⟨_, _, _, rfl, rfl, rfl⟩
/-- Both kinds of event do occur. -/
theorem witness_EventsComeOnlyFromSampleAndTick :
    after (exec (.tick 200) demo) (fun t => t.port.events) = some [.done] ∧
      after (exec .sample { demo with voices := [{ sounding with wave := 0x20 }] })
        (fun t => t.port.events) = some [.refill 0] := by decide
theorem witness_InactiveSlotsKeepTheirState :
    (∃ t, exec .seqStop demo = .next t) ∧ mnemonicOf .seqStop ≠ .init ∧
      demo.seq.voices.toNat ≤ demo.g.nva.toNat ∧ demo.g.nva.toNat ≤ 2 :=
  ⟨⟨_, rfl⟩, by decide, by decide, by decide⟩

end Sys2Proof.Tests
end

section
/-! PROOFS. What one step of the machine is (spec/00_scope.md R6, R8, R79): an instance outside the legal
ranges is refused, and a transfer that decodes is run. -/

namespace Sys2Proof

/-- The complement of R6's ranges: some parameter lies below or above its own. -/
theorem Params.not_legal_iff (p : Params) :
    ¬p.legal ↔ p.nvMax < 1 ∨ 64 < p.nvMax ∨ p.arbLen < 1 ∨ 256 < p.arbLen ∨
      p.ntWords < 1 ∨ 65536 < p.ntWords ∨ p.noiseSeed.toNat < 1 := by
  have hseed : p.noiseSeed = 0 ↔ p.noiseSeed.toNat < 1 := BitVec.toNat_eq.trans Nat.lt_one_iff.symm
  simp only [Params.legal, not_and_or, not_le, not_not, hseed]

end Sys2Proof

namespace Sys2Proof.Machine

/-- What it is to be a state of an instance of the hardware (R6). -/
theorem State.isInstance_iff (s : State) :
    s.isInstance = true ↔ s.params.legal ∧ s.voices.length = s.params.nvMax := by
  simp only [State.isInstance, Bool.and_eq_true, decide_eq_true_eq]

/-- Illegal parameters alone make the step refuse, whatever the host has presented (R6). -/
theorem step_of_not_legal {s : State} (h : ¬s.params.legal) : step s = .refused .illegalInstance := by
  rcases step_cases s with ⟨-, hstep⟩ | ⟨hinst, -⟩
  · exact hstep
  · exact absurd (s.isInstance_iff.mp hinst).1 h

/-- A transfer presented to an instance is taken from the port and run (R8). -/
theorem step_of_command {s : State} {cmd arg : Word} {rest : List HostInput}
    (hinst : s.isInstance = true) (hp : s.port.pending = .command cmd arg :: rest) :
    step s = runTransfer cmd arg (s.withPending rest) := by
  simp only [step, hinst, hp, if_true]

/-- A transfer that decodes is executed (R79). -/
theorem runTransfer_of_ok {cmd arg : Word} {i : Instr} (hd : decode cmd arg = .ok i) (s : State) :
    runTransfer cmd arg s = exec i s := by
  simp only [runTransfer, hd]

/-- Settles O7: the step takes the transfer, and the transfer runs as what it decodes to. -/
theorem stepRunsTheDecodedCommand : Obligations.StepRunsTheDecodedCommand := by
  intro s cmd arg rest i hlegal hlen hp hd
  calc step s
    _ = runTransfer cmd arg (s.withPending rest) :=
      step_of_command (s.isInstance_iff.mpr ⟨hlegal, hlen⟩) hp
    _ = exec i (s.withPending rest) := runTransfer_of_ok hd _
    _ = exec i { s with port := { s.port with pending := rest } } := rfl

/-- Settles O9: a parameter outside its range makes the parameters illegal, and the step refuses those. -/
theorem illegalInstanceIsRefused : Obligations.IllegalInstanceIsRefused := by
  intro s hout
  exact step_of_not_legal (s.params.not_legal_iff.mpr hout)

end Sys2Proof.Machine
end

section
/-! PROOFS. Every step keeps the invariant of spec/10_state.md R46: each group of registers, then each
command, then the step. -/

namespace Sys2Proof.Machine

/-! ## The parts of the invariant -/

theorem Inv.legal {s : State} (h : Inv s) : s.params.legal := h.1

theorem Inv.slots {s : State} (h : Inv s) : s.voices.length = s.params.nvMax := h.2.1

theorem Inv.master {s : State} (h : Inv s) : masterInv s.params s.g := h.2.2.1

theorem Inv.seq {s : State} (h : Inv s) : seqInv s.params s.g.nva s.seq := h.2.2.2.2.1

/-! ## One group of state at a time -/

/-- The invariant does not read the response. -/
theorem inv_begin {s : State} (h : Inv s) : Inv s.begin := h

theorem inv_respond {s : State} (h : Inv s) (x : Word) : Inv (s.respond x) := h

theorem inv_emit {s : State} (h : Inv s) (e : Event) : Inv (s.emit e) := h

theorem inv_withPending {s : State} (h : Inv s) (l : List HostInput) : Inv (s.withPending l) := h

/-- New master registers that leave G.NVA keep the invariant if they meet their own part of it. -/
theorem inv_withG {s : State} (h : Inv s) {g : Master} (hnva : g.nva = s.g.nva)
    (hg : masterInv s.params g) : Inv (s.withG g) := by
  obtain ⟨hp, hlen, -, hvoices, hseq, hnt⟩ := h
  exact ⟨hp, hlen, hg, hvoices, by rw [State.withG_g, hnva]; exact hseq, hnt⟩

theorem inv_withSeq {s : State} (h : Inv s) {q : Sequencer} (hq : seqInv s.params s.g.nva q) :
    Inv (s.withSeq q) := by
  obtain ⟨hp, hlen, hg, hvoices, -, hnt⟩ := h
  exact ⟨hp, hlen, hg, hvoices, hq, hnt⟩

/-! ## Reset (R47, R48) -/

/-- The defaults of a voice meet its invariant. -/
theorem voiceInv_defaults (p : Params) : voiceInv p (voiceDefaults p) := by
  have henv : envInv (voiceDefaults p) :=
    ⟨Nat.zero_le _, Nat.zero_le _, fun _ => ⟨rfl, rfl, rfl⟩, nofun, nofun⟩
  have hrd : (BitVec.ofNat 9 p.arbLen).toNat ≤ p.arbLen :=
    (BitVec.toNat_ofNat ..).trans_le (Nat.mod_le ..)
  exact ⟨henv, le_refl 256, le_refl 256, hrd, Memory.wf_nil, Memory.within_nil _⟩

theorem masterInv_reset {p : Params} (hseed : p.noiseSeed ≠ 0) :
    masterInv p (Master.reset p.noiseSeed) :=
  ⟨Nat.zero_le _, (by decide : (44100 : BitVec 20) ≠ 0), le_refl 100, hseed, fun _ => rfl, fun _ => rfl⟩

theorem seqInv_reset (p : Params) (nva : BitVec 7) : seqInv p nva Sequencer.reset :=
  ⟨(by decide : 1 ≤ 125), (by decide : 125 ≤ 15000), Nat.zero_le _, nofun⟩

/-- The reset state of every legal instance meets the invariant. -/
theorem inv_resetOf {p : Params} (hp : p.legal) : Inv (State.resetOf p) := by
  obtain ⟨-, -, -, -, -, -, hseed⟩ := id hp
  refine ⟨hp, List.length_replicate, masterInv_reset hseed, ?_, seqInv_reset p _, Memory.wf_nil,
    Memory.within_nil _⟩
  intro x hx
  rw [List.eq_of_mem_replicate hx]
  exact voiceInv_defaults _

/-! ## The sequencer's registers (R42, R46 (8)) -/

/-- A stopped sequencer owes nothing to the number of active voices (R46 (8)). -/
theorem seqInv_withRun_stopped {p : Params} {nva nva' : BitVec 7} {q : Sequencer} (h : seqInv p nva q)
    (bv : Bool) : seqInv p nva' (q.withRun false bv) := by
  obtain ⟨hlo, hhi, htab, -⟩ := h
  exact ⟨hlo, hhi, htab, nofun⟩

/-- SEQ_INIT's checks are what the invariant asks of the table (R146). -/
theorem seqInv_withTable {s : State} (h : Inv s) {n : Byte} {len : Half} {base : Word}
    (hok : seqInitBad n len base s = false) (hstop : s.seq.playing = false) :
    seqInv s.params s.g.nva (s.seq.withTable (n.setWidth 7) len (base.setWidth 16)) := by
  obtain ⟨⟨-, -, -, -, -, hwords, -⟩, -, -, -, ⟨hlo, hhi, -, -⟩, -⟩ := h
  have hnva := s.g.nva.isLt
  simp only [seqInitBad, decide_eq_false_iff_not, not_or, not_lt] at hok
  obtain ⟨hn, hnmax, hlen, hfit⟩ := hok
  have hprod : 1 ≤ n.toNat * len.toNat := Nat.mul_pos (by omega) (by omega)
  have hn7 : (n.setWidth 7).toNat = n.toNat := by
    rw [BitVec.toNat_setWidth]; exact Nat.mod_eq_of_lt (by omega)
  have hbase : (base.setWidth 16).toNat = base.toNat := by
    rw [BitVec.toNat_setWidth]; exact Nat.mod_eq_of_lt (by omega)
  refine ⟨hlo, hhi, ?_, fun hplay => ?_⟩
  · simp only [Sequencer.withTable_base, Sequencer.withTable_voices, Sequencer.withTable_len, hn7, hbase]
    exact hfit
  · rw [Sequencer.withTable_playing, hstop] at hplay
    cases hplay

/-- SEQ_START's checks are what the invariant asks of a playing sequencer (R147). -/
theorem seqInv_withStart {s : State} (h : Inv s) (hok : seqStartBad s = false) (loop : Bool) (now : Word) :
    seqInv s.params s.g.nva (s.seq.withStart loop now) := by
  obtain ⟨-, -, -, -, ⟨hlo, hhi, htab, -⟩, -⟩ := h
  simp only [seqStartBad, decide_eq_false_iff_not, not_or, not_lt, BitVec.toNat_eq] at hok
  obtain ⟨hlen, hvoices, hactive⟩ := hok
  exact ⟨hlo, hhi, htab, fun _ => ⟨Nat.one_le_iff_ne_zero.mpr hlen,
    Nat.one_le_iff_ne_zero.mpr hvoices, hactive⟩⟩

/-- Every tempo gives 1 to 15000 ms per beat (R143). -/
theorem bpmToMs_range (bpm : Half) : 1 ≤ bpmToMs bpm ∧ bpmToMs bpm ≤ 15000 := by
  have hdiv : 60000 / bpm.toNat ≤ 60000 := Nat.div_le_self ..
  unfold bpmToMs
  omega

/-- A new tempo in range keeps the sequencer's part (R150). -/
theorem seqInv_retime {p : Params} {nva : BitVec 7} {q : Sequencer} (h : seqInv p nva q) {ms : Nat}
    (hms : 1 ≤ ms ∧ ms ≤ 15000) : seqInv p nva (retime ms q) := by
  obtain ⟨-, -, htab, hplay⟩ := h
  have hms14 : (BitVec.ofNat 14 ms).toNat = ms := by
    rw [BitVec.toNat_ofNat]; exact Nat.mod_eq_of_lt (by omega)
  unfold retime
  refine ⟨?_, ?_, htab, hplay⟩
  · rw [Sequencer.withTiming_beatMs, hms14]; exact hms.1
  · rw [Sequencer.withTiming_beatMs, hms14]; exact hms.2

/-! ## INIT (R81) -/

theorem sampleRateOk_iff (sr : Word) : sampleRateOk sr = true ↔ 1 ≤ sr.toNat ∧ sr.toNat ≤ 0xFFFFF :=
  decide_eq_true_iff

/-- An accepted sample rate is stored as a nonzero G.SR (R23). -/
theorem setWidth_sampleRate_ne_zero {sr : Word} (h : sampleRateOk sr = true) :
    sr.setWidth 20 ≠ (0 : BitVec 20) := by
  obtain ⟨hlo, hhi⟩ := (sampleRateOk_iff sr).mp h
  intro h0
  have h0' : (sr.setWidth 20).toNat = 0 := congrArg BitVec.toNat h0
  rw [BitVec.toNat_setWidth, Nat.mod_eq_of_lt (by omega)] at h0'
  omega

theorem inv_initEngine {s : State} (h : Inv s) {n : Half} {sr : Word} (hok : initBad n sr s = false) :
    Inv (initEngine n sr s) := by
  obtain ⟨hp, -, ⟨-, -, hmvol, hnoise, herr⟩, -, hseq, hnt⟩ := h
  simp only [initBad, Bool.or_eq_false_iff, decide_eq_false_iff_not, not_or, not_lt,
    Bool.not_eq_false'] at hok
  obtain ⟨⟨-, hn⟩, hsr⟩ := hok
  have hn7 : (n.setWidth 7).toNat ≤ s.params.nvMax := by
    rw [BitVec.toNat_setWidth]; exact (Nat.mod_le ..).trans hn
  refine ⟨hp, List.length_replicate, ⟨hn7, setWidth_sampleRate_ne_zero hsr, hmvol, hnoise, herr⟩, ?_,
    seqInv_withRun_stopped hseq false, hnt⟩
  intro x hx
  rw [List.eq_of_mem_replicate hx]
  exact voiceInv_defaults _

/-! ## SAMPLE (R134) -/

theorem inv_sampleResult {s : State} (h : Inv s) : Inv (sampleResult s) := by
  obtain ⟨hp, hlen, ⟨hnva, hsr, hmvol, hnoise, herr⟩, hvoices, hseq, hnt⟩ := h
  obtain ⟨hvoices', hnoise'⟩ := sampleSlots_keeps (P := voiceInv s.params) (Q := fun m => m.noise ≠ 0)
    s.params s.g.sr (fun v x m hx hm => sampleVoice_keeps s.params hp s.g.sr v x m hx hm)
    0 s.g.nva.toNat s.voices (mixStart s) hvoices hnoise
  exact ⟨hp, (sampleSlots_length ..).trans hlen, ⟨hnva, hsr, hmvol, hnoise', herr⟩, hvoices', hseq, hnt⟩

/-- No voice of the invariant reads beyond its buffer (R46 (5)). -/
theorem arbBroken_eq_false {p : Params} {x : Voice} (h : voiceInv p x) : arbBroken p x = false := by
  obtain ⟨-, -, -, hrd, -⟩ := h
  simp only [arbBroken, decide_eq_false (not_lt.mpr hrd), Bool.and_false]

/-- SAMPLE faults in no state of the invariant: its rate is not 0 and every read is inside its buffer. -/
theorem execSample_of_inv {s : State} (h : Inv s) : execSample s = .next (sampleResult s) := by
  obtain ⟨-, -, ⟨-, hsr, -⟩, hvoices, -⟩ := h
  have hany : (s.voices.take s.g.nva.toNat).any (arbBroken s.params) = false := by
    rw [List.any_eq_false]
    intro x hx
    simp [arbBroken_eq_false (hvoices x (List.mem_of_mem_take hx))]
  rw [execSample, if_neg (fun hz => hsr hz.2), hany]
  rfl

/-! ## TICK (R155, R156) -/

theorem inv_endTrack {s : State} (h : Inv s) : Inv (endTrack s) := by
  have hstop : Inv (s.withSeq (s.seq.withRun false s.seq.beatValid)) :=
    inv_withSeq h (seqInv_withRun_stopped h.seq _)
  have hdone : Inv ((silenceAll (s.withSeq (s.seq.withRun false s.seq.beatValid))).withG
      (s.g.withDone true)) :=
    inv_withG (inv_silenceAll hstop) rfl h.master
  unfold endTrack
  dsimp only
  split
  · exact inv_emit hdone .done
  · exact hdone

/-- While playing, every column of the bound table lies in the note table (R46 (8)). -/
theorem columnInTable_of_inv {s : State} (h : Inv s) {b : Nat} (hb : b < s.seq.len.toNat) :
    columnInTable b s = true := by
  obtain ⟨-, -, -, -, ⟨-, -, htab, -⟩, -⟩ := h
  simp only [columnInTable, List.all_eq_true, List.mem_range, decide_eq_true_eq]
  intro v hv
  have hrow : (v + 1) * s.seq.len.toNat ≤ s.seq.voices.toNat * s.seq.len.toNat :=
    Nat.mul_le_mul_right _ hv
  rw [Nat.add_mul, Nat.one_mul] at hrow
  unfold ntIndex
  omega

/-- A new beat of a playing sequencer is dispatched or ends the track; it does not fault. -/
theorem safe_newBeat {s : State} (h : Inv s) (hplay : s.seq.playing = true) (cur : Word) :
    Safe (newBeat cur s) := by
  have hbeat : Inv (s.withSeq (s.seq.withBeat cur)) := inv_withSeq h h.seq
  obtain ⟨-, -, -, hplayInv⟩ := h.seq
  have hlen : 1 ≤ s.seq.len.toNat := (hplayInv hplay).1
  have hlen0 : s.seq.len ≠ 0 := fun h0 => by rw [h0] at hlen; exact absurd hlen (by decide)
  unfold newBeat
  dsimp only
  by_cases hend : s.seq.len.toNat ≤ cur.toNat ∧ s.seq.loop = false
  · rw [if_pos hend]
    exact ⟨_, rfl, inv_endTrack hbeat⟩
  · rw [if_neg hend, if_neg hlen0, if_pos (columnInTable_of_inv h (Nat.mod_lt _ hlen))]
    exact ⟨_, rfl, inv_dispatch hbeat _⟩

theorem safe_execTick {s : State} (h : Inv s) (now : Word) : Safe (execTick now s) := by
  have hms : s.seq.beatMs ≠ 0 := fun h0 => by
    obtain ⟨hlo, -⟩ := h.seq
    rw [h0] at hlo
    exact absurd hlo (by decide)
  unfold execTick
  dsimp only
  by_cases hplay : s.seq.playing = false
  · rw [if_pos hplay]
    exact ⟨_, rfl, inv_begin h⟩
  · rw [if_neg hplay, if_neg hms]
    split
    · exact ⟨_, rfl, inv_begin h⟩
    · exact safe_newBeat (inv_begin h) (Bool.of_not_eq_false hplay) _

/-! ## Every command -/

/-- READ answers a register or a rejection; either changes nothing the invariant reads but the error
fields. -/
theorem safe_execRead {s : State} (h : Inv s) (v : Byte) (sel : Half) : Safe (execRead v sel s) := by
  refine safe_rejectIf h (by decide) fun _ => ?_
  split
  · exact ⟨_, rfl, inv_respond (inv_begin h) _⟩
  · exact ⟨_, rfl, inv_reject h (by decide)⟩

/-- A write inside the buffer keeps the voice's invariant (R50). -/
theorem voiceInv_arbWrite {p : Params} {y : Voice} (h : voiceInv p y) {i : Nat} (hi : i < p.arbLen)
    (x : Half) : voiceInv p (y.withArb (Memory.write y.arb i x) y.arbRd) := by
  obtain ⟨henv, hs, hd, hr, hw, hc⟩ := h
  exact ⟨henv, hs, hd, hr, Memory.wf_write hw i x, Memory.within_write hc hi x⟩

theorem safe_execArbWrite {s : State} (h : Inv s) (v : Byte) (x : Half) (i : Word) :
    Safe (execArbWrite v x i s) := by
  refine safe_rejectIf h (by decide) fun _ => safe_rejectIf h (by decide) fun hi => ⟨_, rfl, ?_⟩
  have hi' : i.toNat < s.params.arbLen := by simpa [arbIndexBad] using hi
  exact inv_setVoice (inv_begin h) _ _ fun y hy => voiceInv_arbWrite hy hi' x

/-- The clamp of SET_SUSTAIN keeps SUSTAIN's range (R33, R120). -/
theorem voiceInv_withSustain {p : Params} {x : Voice} (h : voiceInv p x) (lvl : Half) :
    voiceInv p (x.withSustain (BitVec.ofNat 9 (min lvl.toNat 256))) := by
  obtain ⟨henv, -, hrest⟩ := h
  refine ⟨henv, ?_, hrest⟩
  rw [Voice.withSustain_sustain, BitVec.toNat_ofNat]
  exact (Nat.mod_le ..).trans (Nat.min_le_right ..)

theorem inv_withMvol {s : State} (h : Inv s) (pct : Half) :
    Inv (s.withG (s.g.withMvol (BitVec.ofNat 7 (min pct.toNat 100)))) := by
  obtain ⟨hnva, hsr, -, hrest⟩ := h.master
  refine inv_withG h rfl ⟨hnva, hsr, ?_, hrest⟩
  rw [Master.withMvol_mvol, BitVec.toNat_ofNat]
  exact (Nat.mod_le ..).trans (Nat.min_le_right ..)

theorem inv_withSr {s : State} (h : Inv s) {sr : Word} (hok : sampleRateOk sr = true) :
    Inv (s.withG (s.g.withSr (sr.setWidth 20))) := by
  obtain ⟨hnva, -, hrest⟩ := h.master
  exact inv_withG h rfl ⟨hnva, setWidth_sampleRate_ne_zero hok, hrest⟩

theorem inv_clearStatus {s : State} (h : Inv s) :
    Inv (s.withG ((s.g.withDone false).withErr false .none)) := by
  obtain ⟨hnva, hsr, hmvol, hnoise, -⟩ := h.master
  exact inv_withG h rfl ⟨hnva, hsr, hmvol, hnoise, by simp⟩

theorem inv_ntWrite {s : State} (h : Inv s) {a : Nat} (ha : a < s.params.ntWords) (x : Half) :
    Inv (s.withNt (Memory.write s.nt a x)) := by
  obtain ⟨hp, hlen, hg, hvoices, hseq, hw, hc⟩ := h
  exact ⟨hp, hlen, hg, hvoices, hseq, Memory.wf_write hw a x, Memory.within_write hc ha x⟩

/-- Every command answers a next state, and keeps the invariant. -/
theorem safe_exec {s : State} (h : Inv s) (i : Instr) : Safe (exec i s) := by
  have hbegin : Inv s.begin := inv_begin h
  have hseq : seqInv s.params s.g.nva s.seq := h.seq
  cases i with
  | nop => exact ⟨_, rfl, hbegin⟩
  | init n sr =>
    exact safe_rejectIf h (by decide) fun hok => ⟨_, rfl, inv_initEngine hbegin hok⟩
  | setSr sr =>
    exact safe_rejectIf h (by decide) fun hok =>
      ⟨_, rfl, inv_withSr hbegin (by simpa using hok)⟩
  | setMvol pct => exact ⟨_, rfl, inv_withMvol hbegin pct⟩
  | clrStatus => exact ⟨_, rfl, inv_clearStatus hbegin⟩
  | read v sel => exact safe_execRead h v sel
  | setWave v mask => exact safe_voiceCommand h v _ fun _ hx => hx
  | setFreq v hz => exact safe_voiceCommand h v _ fun _ hx => hx
  | setPw v pw => exact safe_voiceCommand h v _ fun _ hx => hx
  | arbWrite v x a => exact safe_execArbWrite h v x a
  | arbRead v a =>
    exact safe_rejectIf h (by decide) fun _ => safe_rejectIf h (by decide) fun _ =>
      ⟨_, rfl, inv_respond hbegin _⟩
  | setAttack v ms => exact safe_voiceCommand h v _ fun _ hx => hx
  | setDecay v ms => exact safe_voiceCommand h v _ fun _ hx => hx
  | setSustain v lvl => exact safe_voiceCommand h v _ fun _ hx => voiceInv_withSustain hx lvl
  | setRelease v ms => exact safe_voiceCommand h v _ fun _ hx => hx
  | trigAttack v => exact safe_voiceCommand h v _ fun _ hx => voiceInv_enter hx
  | trigRelease v => exact safe_voiceCommand h v _ fun _ hx => voiceInv_enter hx
  | setVol v vol => exact safe_voiceCommand h v _ fun _ hx => hx
  | sample => exact ⟨_, execSample_of_inv h, inv_sampleResult h⟩
  | seqInit n len base =>
    exact safe_rejectIf h (by decide) fun hok => safe_rejectIf h (by decide) fun hstop =>
      ⟨_, rfl, inv_withSeq hbegin (seqInv_withTable h hok hstop)⟩
  | seqStart loop now =>
    exact safe_rejectIf h (by decide) fun hok =>
      ⟨_, rfl, inv_withSeq hbegin (seqInv_withStart h hok loop now)⟩
  | seqStop =>
    exact ⟨_, rfl, inv_silenceAll (inv_withSeq hbegin (seqInv_withRun_stopped hseq false))⟩
  | seqTempo bpm =>
    exact safe_rejectIf h (by decide) fun _ =>
      ⟨_, rfl, inv_withSeq hbegin (seqInv_retime hseq (bpmToMs_range bpm))⟩
  | seqCb en => exact ⟨_, rfl, inv_withSeq hbegin hseq⟩
  | ntWrite x a =>
    exact safe_rejectIf h (by decide) fun ha =>
      ⟨_, rfl, inv_ntWrite hbegin (not_le.mp (of_decide_eq_false ha)) x⟩
  | ntRead a => exact safe_rejectIf h (by decide) fun _ => ⟨_, rfl, inv_respond hbegin _⟩
  | tick now => exact safe_execTick h now

/-- The decoder's codes are no NONE (R164). -/
theorem decode_error_ne_none {cmd arg : Word} {c : ErrCode} (h : decode cmd arg = .error c) :
    c ≠ .none := by
  rcases decode_error h with rfl | rfl <;> decide

/-- Settles O13: whatever is next at the port, a step is the wait, the reset, a rejection or a command,
and each of these keeps the invariant. -/
theorem everyStepKeepsTheInvariant : Obligations.EveryStepKeepsTheInvariant := by
  intro s h
  have hinst : s.isInstance = true := s.isInstance_iff.mpr ⟨h.legal, h.slots⟩
  rcases step_cases s with ⟨hnot, -⟩ | ⟨-, hwait | hreset | hbad | hcmd⟩
  · rw [hinst] at hnot
    cases hnot
  · exact ⟨s, hwait.2, h⟩
  · obtain ⟨rest, -, hstep⟩ := hreset
    exact ⟨_, hstep, inv_resetOf h.legal⟩
  · obtain ⟨cmd, arg, rest, c, -, hd, hstep⟩ := hbad
    exact ⟨_, hstep, inv_reject (inv_withPending h rest) (decode_error_ne_none hd)⟩
  · obtain ⟨cmd, arg, rest, i, -, -, hstep⟩ := hcmd
    rw [hstep]
    exact safe_exec (inv_withPending h rest) i

end Sys2Proof.Machine
end

section
/-! PROOFS. Reset (spec/10_state.md R47, R48, R181): every register, slot and memory at the hardware
reset and right after it. -/

namespace Sys2Proof.Machine

/-- A reset request presented to an instance is taken from the port and obeyed (R181). -/
theorem step_of_reset {s : State} {rest : List HostInput} (hinst : s.isInstance = true)
    (hp : s.port.pending = .reset :: rest) : step s = .next (s.withPending rest).hardReset := by
  simp only [step, hinst, hp, if_true]

/-- The model's reset value of a slot is the table's, with 256 in the field the table does not list. -/
theorem voiceDefaults_eq (arbLen : Nat) :
    Voice.defaults arbLen = Claim.defaultVoice arbLen 256 := rfl

/-- Settles O10: the step is the hardware reset, and that is the tabled state of the same instance. -/
theorem hardwareResetRestoresEveryRegister : Obligations.HardwareResetRestoresEveryRegister := by
  intro s rest hlegal hlen hp
  refine ⟨256, ?_⟩
  rw [step_of_reset (s.isInstance_iff.mpr ⟨hlegal, hlen⟩) hp, ← voiceDefaults_eq]
  rfl

/-- Settles O11: each row of the reset table, for every instance. -/
theorem resetHasTheTabledValues : Obligations.ResetHasTheTabledValues := by
  refine ⟨256, fun p => ⟨rfl, List.length_replicate, fun v hv => ?_, fun _ => rfl, rfl, fun _ => rfl⟩⟩
  rw [← voiceDefaults_eq]
  exact List.getElem?_replicate_of_lt hv

/-- Settles O12: the example instance is legal, and every legal instance resets into the invariant. -/
theorem resetMeetsTheInvariant : Obligations.ResetMeetsTheInvariant :=
  ⟨rfl, inv_resetOf (by decide)⟩

end Sys2Proof.Machine
end

section
/-! PROOFS. What a command that answers a next state can have done: rejected, or one of the effects of
`Accepted`; and from that the rules over all commands, the writers of each register (spec/10_state.md
R49), the sticky flags (R26, R27) and the slots that are not active (R22, R111). -/

namespace Sys2Proof.Machine

open Sys2Proof.Claim

/-! ## The effects of the commands -/

/-- The commands on one voice: with V[v] active, command `i` on voice `v` changes that slot by `f`. -/
inductive SlotChange (p : Params) (sr : BitVec 20) : Instr → Byte → (Voice → Voice) → Prop where
  | wave (v : Byte) (mask : BitVec 6) : SlotChange p sr (.setWave v mask) v (fun x => x.withWave mask)
  | freq (v : Byte) (hz : Half) : SlotChange p sr (.setFreq v hz) v (fun x => x.withFreq hz)
  | pw (v : Byte) (pw : Half) : SlotChange p sr (.setPw v pw) v (fun x => x.withPw pw)
  | vol (v vol : Byte) : SlotChange p sr (.setVol v vol) v (fun x => x.withVol vol)
  | attack (v : Byte) (ms : Half) : SlotChange p sr (.setAttack v ms) v (fun x => x.withAttack ms)
  | decay (v : Byte) (ms : Half) : SlotChange p sr (.setDecay v ms) v (fun x => x.withDecay ms)
  | sustain (v : Byte) (lvl : Half) :
    SlotChange p sr (.setSustain v lvl) v (fun x => x.withSustain (BitVec.ofNat 9 (min lvl.toNat 256)))
  | release (v : Byte) (ms : Half) : SlotChange p sr (.setRelease v ms) v (fun x => x.withRelease ms)
  | trigAttack (v : Byte) : SlotChange p sr (.trigAttack v) v (triggerAttack sr)
  | trigRelease (v : Byte) : SlotChange p sr (.trigRelease v) v (triggerRelease sr)
  | arb (v : Byte) (x : Half) (i : Word) (hi : i.toNat < p.arbLen) :
    SlotChange p sr (.arbWrite v x i) v (fun y => y.withArb (Memory.write y.arb i.toNat x) y.arbRd)

/-- The effects of a command that passed its checks: command `i` on `s` answers the state `t`. -/
inductive Accepted (s : State) : Instr → State → Prop where
  | nop : Accepted s .nop s.begin
  | init (n : Half) (sr : Word) (hok : initBad n sr s = false) :
    Accepted s (.init n sr) (initEngine n sr s.begin)
  | setSr (sr : Word) (hok : sampleRateOk sr = true) :
    Accepted s (.setSr sr) (s.begin.withG (s.g.withSr (sr.setWidth 20)))
  | setMvol (pct : Half) :
    Accepted s (.setMvol pct) (s.begin.withG (s.g.withMvol (BitVec.ofNat 7 (min pct.toNat 100))))
  | clrStatus :
    Accepted s .clrStatus (s.begin.withG ((s.g.withDone false).withErr false .none))
  | slot {i : Instr} {v : Byte} {f : Voice → Voice} (hv : v.toNat < s.g.nva.toNat)
    (hf : SlotChange s.params s.g.sr i v f) : Accepted s i (s.begin.setVoice v.toNat f)
  | read (v : Byte) (sel : Half) (x : Word) (hx : readValue s v sel = some x) :
    Accepted s (.read v sel) (s.begin.respond x)
  | arbRead (v : Byte) (i : Word) :
    Accepted s (.arbRead v i) (s.begin.respond (sext32 (Memory.read (s.voice v.toNat).arb i.toNat)))
  | sample : Accepted s .sample (sampleResult s)
  | seqInit (n : Byte) (len : Half) (base : Word) (hok : seqInitBad n len base s = false)
    (hstop : s.seq.playing = false) :
    Accepted s (.seqInit n len base)
      (s.begin.withSeq (s.seq.withTable (n.setWidth 7) len (base.setWidth 16)))
  | seqStart (loop : Bool) (now : Word) (hok : seqStartBad s = false) :
    Accepted s (.seqStart loop now) (s.begin.withSeq (s.seq.withStart loop now))
  | seqStop : Accepted s .seqStop (silenceAll (s.begin.withSeq (s.seq.withRun false false)))
  | seqTempo (bpm : Half) :
    Accepted s (.seqTempo bpm) (s.begin.withSeq (retime (bpmToMs bpm) s.seq))
  | seqCb (en : Bool) : Accepted s (.seqCb en) (s.begin.withSeq (s.seq.withCbEn en))
  | ntWrite (x : Half) (a : Word) (ha : ntIndexBad a s = false) :
    Accepted s (.ntWrite x a) (s.begin.withNt (Memory.write s.nt a.toNat x))
  | ntRead (a : Word) :
    Accepted s (.ntRead a) (s.begin.respond (sext32 (Memory.read s.nt a.toNat)))
  | tickIdle (now : Word) : Accepted s (.tick now) s.begin
  | tickEnd (now cur : Word) (hplay : s.seq.playing = true) :
    Accepted s (.tick now) (endTrack (s.begin.withSeq (s.seq.withBeat cur)))
  | tickBeat (now cur : Word) (col : Nat) (hplay : s.seq.playing = true) :
    Accepted s (.tick now) (dispatch col (s.begin.withSeq (s.seq.withBeat cur)))

/-- What a command that answers a next state can have done: rejected, with a code, or accepted. -/
def Answered (s : State) (i : Instr) (t : State) : Prop :=
  (∃ c, c ≠ .none ∧ t = s.reject c) ∨ Accepted s i t

section

variable {s t : State} {i : Instr}

theorem answered_of_next {u : State} (hu : Accepted s i u) (h : (.next u : Result) = .next t) :
    Answered s i t := by
  cases h
  exact .inr hu

theorem answered_of_rejectIf {bad : Bool} {c : ErrCode} {k : Result} (hc : c ≠ .none)
    (h : rejectIf bad c s k = .next t) (hk : bad = false → k = .next t → Answered s i t) :
    Answered s i t := by
  rcases rejectIf_cases h with ⟨-, hrej⟩ | ⟨hok, hnext⟩
  · cases hrej
    exact .inl ⟨c, hc, rfl⟩
  · exact hk hok hnext.symm

theorem answered_of_voiceCommand {v : Byte} {f : Voice → Voice}
    (hf : SlotChange s.params s.g.sr i v f) (h : voiceCommand v f s = .next t) : Answered s i t := by
  rcases voiceCommand_cases v f s with ⟨-, hrej⟩ | ⟨hv, hrun⟩
  · cases hrej.symm.trans h
    exact .inl ⟨_, by decide, rfl⟩
  · exact answered_of_next (.slot hv hf) (hrun.symm.trans h)

theorem answered_of_execRead {v : Byte} {sel : Half} (h : execRead v sel s = .next t) :
    Answered s (.read v sel) t := by
  refine answered_of_rejectIf (by decide) h fun _ hk => ?_
  cases hx : readValue s v sel with
  | some x =>
    rw [hx] at hk
    exact answered_of_next (.read v sel x hx) hk
  | none =>
    rw [hx] at hk
    cases hk
    exact .inl ⟨_, by decide, rfl⟩

theorem answered_of_execArbWrite {v : Byte} {x : Half} {a : Word}
    (h : execArbWrite v x a s = .next t) : Answered s (.arbWrite v x a) t := by
  refine answered_of_rejectIf (by decide) h fun hv hk =>
    answered_of_rejectIf (by decide) hk fun ha hnext => ?_
  have hv' : v.toNat < s.g.nva.toNat := by simpa [voiceOk] using hv
  have ha' : a.toNat < s.params.arbLen := by simpa [arbIndexBad] using ha
  exact answered_of_next (.slot hv' (.arb v x a ha')) hnext

theorem answered_of_execSample (h : execSample s = .next t) : Answered s .sample t := by
  unfold execSample at h
  split at h
  · cases h
  · split at h
    · cases h
    · exact answered_of_next .sample h

/-- A new beat of a playing sequencer, if it does not fault, ends the track or dispatches a column. -/
theorem answered_of_newBeat {now cur : Word} (hplay : s.seq.playing = true)
    (h : newBeat cur s.begin = .next t) : Answered s (.tick now) t := by
  unfold newBeat at h
  dsimp only at h
  split at h
  · exact answered_of_next (.tickEnd now cur hplay) h
  · split at h
    · cases h
    · split at h
      · exact answered_of_next (.tickBeat now cur _ hplay) h
      · cases h

theorem answered_of_execTick {now : Word} (h : execTick now s = .next t) : Answered s (.tick now) t := by
  unfold execTick at h
  dsimp only at h
  by_cases hplay : s.seq.playing = false
  · rw [if_pos hplay] at h
    exact answered_of_next (.tickIdle now) h
  · rw [if_neg hplay] at h
    split at h
    · cases h
    · split at h
      · exact answered_of_next (.tickIdle now) h
      · exact answered_of_newBeat (Bool.of_not_eq_false hplay) h

/-- The inversion of `exec`: everything a command that answers a next state can have done. -/
theorem exec_answered (h : exec i s = .next t) : Answered s i t := by
  cases i with
  | nop => exact answered_of_next .nop h
  | init n sr =>
    exact answered_of_rejectIf (by decide) h fun hok => answered_of_next (.init n sr hok)
  | setSr sr =>
    exact answered_of_rejectIf (by decide) h fun hok =>
      answered_of_next (.setSr sr (by simpa using hok))
  | setMvol pct => exact answered_of_next (.setMvol pct) h
  | clrStatus => exact answered_of_next .clrStatus h
  | read v sel => exact answered_of_execRead h
  | setWave v mask => exact answered_of_voiceCommand (.wave v mask) h
  | setFreq v hz => exact answered_of_voiceCommand (.freq v hz) h
  | setPw v pw => exact answered_of_voiceCommand (.pw v pw) h
  | arbWrite v x a => exact answered_of_execArbWrite h
  | arbRead v a =>
    exact answered_of_rejectIf (by decide) h fun _ hk =>
      answered_of_rejectIf (by decide) hk fun _ => answered_of_next (.arbRead v a)
  | setAttack v ms => exact answered_of_voiceCommand (.attack v ms) h
  | setDecay v ms => exact answered_of_voiceCommand (.decay v ms) h
  | setSustain v lvl => exact answered_of_voiceCommand (.sustain v lvl) h
  | setRelease v ms => exact answered_of_voiceCommand (.release v ms) h
  | trigAttack v => exact answered_of_voiceCommand (.trigAttack v) h
  | trigRelease v => exact answered_of_voiceCommand (.trigRelease v) h
  | setVol v vol => exact answered_of_voiceCommand (.vol v vol) h
  | sample => exact answered_of_execSample h
  | seqInit n len base =>
    exact answered_of_rejectIf (by decide) h fun hok hk =>
      answered_of_rejectIf (by decide) hk fun hstop => answered_of_next (.seqInit n len base hok hstop)
  | seqStart loop now =>
    exact answered_of_rejectIf (by decide) h fun hok => answered_of_next (.seqStart loop now hok)
  | seqStop => exact answered_of_next .seqStop h
  | seqTempo bpm =>
    exact answered_of_rejectIf (by decide) h fun _ => answered_of_next (.seqTempo bpm)
  | seqCb en => exact answered_of_next (.seqCb en) h
  | ntWrite x a =>
    exact answered_of_rejectIf (by decide) h fun ha => answered_of_next (.ntWrite x a ha)
  | ntRead a => exact answered_of_rejectIf (by decide) h fun _ => answered_of_next (.ntRead a)
  | tick now => exact answered_of_execTick h

end

/-! ## The fields of `initEngine` and `endTrack` -/

@[simp] theorem initEngine_params (n : Half) (sr : Word) (s : State) :
    (initEngine n sr s).params = s.params := by
  simp only [initEngine, State.withG_params, State.withVoices_params, State.withSeq_params]
@[simp] theorem initEngine_g (n : Half) (sr : Word) (s : State) :
    (initEngine n sr s).g = s.g.withEngine (n.setWidth 7) (sr.setWidth 20) := by
  simp only [initEngine, State.withG_g]
@[simp] theorem initEngine_nt (n : Half) (sr : Word) (s : State) :
    (initEngine n sr s).nt = s.nt := by
  simp only [initEngine, State.withG_nt, State.withVoices_nt, State.withSeq_nt]

@[simp] theorem endTrack_params (s : State) : (endTrack s).params = s.params := by
  unfold endTrack; split <;> simp
@[simp] theorem endTrack_g (s : State) : (endTrack s).g = s.g.withDone true := by
  unfold endTrack; split <;> simp
@[simp] theorem endTrack_voices (s : State) : (endTrack s).voices = (silenceAll s).voices := by
  unfold endTrack; split <;> simp
@[simp] theorem endTrack_nt (s : State) : (endTrack s).nt = s.nt := by
  unfold endTrack; split <;> simp

/-! ## The registers outside the slots (R49) -/

/-- The model's rejection is R163's. -/
theorem reject_eq_rejected (c : ErrCode) (s : State) : s.reject c = rejected c s := by
  obtain ⟨p, g, voices, q, nt, port⟩ := s
  cases he : g.err <;> simp [rejected, State.reject, State.begin, State.withG, State.withPort,
    Master.withErr, Port.withResponse, he]

section

variable {s t : State} {i : Instr}

theorem Accepted.params_eq (h : Accepted s i t) : t.params = s.params := by
  cases h <;> simp

theorem Accepted.nva_writers (h : Accepted s i t) : oneOf [.init] i ∨ t.g.nva = s.g.nva := by
  cases h <;> simp [oneOf, mnemonicOf]

theorem Accepted.sr_writers (h : Accepted s i t) : oneOf [.init, .setSr] i ∨ t.g.sr = s.g.sr := by
  cases h <;> simp [oneOf, mnemonicOf]

theorem Accepted.mvol_writers (h : Accepted s i t) : oneOf [.setMvol] i ∨ t.g.mvol = s.g.mvol := by
  cases h <;> simp [oneOf, mnemonicOf]

theorem Accepted.noise_writers (h : Accepted s i t) : oneOf [.sample] i ∨ t.g.noise = s.g.noise := by
  cases h <;> simp [oneOf, mnemonicOf]

theorem Accepted.err_writers (h : Accepted s i t) :
    oneOf [.clrStatus] i ∨ t.g.err = s.g.err ∧ t.g.errcode = s.g.errcode := by
  cases h <;> simp [oneOf, mnemonicOf]

/-- G.DONE is cleared by CLR_STATUS and set by TICK; no other command writes it (R26). -/
theorem Accepted.done_writers (h : Accepted s i t) :
    oneOf [.clrStatus] i ∨ t.g.done = s.g.done ∨ oneOf [.tick] i ∧ t.g.done = true := by
  cases h <;> simp [oneOf, mnemonicOf]

theorem Accepted.seq_writers (h : Accepted s i t) :
    oneOf [.seqInit, .seqStart, .seqStop, .seqTempo, .seqCb, .tick, .init] i ∨ t.seq = s.seq := by
  cases h <;> simp [oneOf, mnemonicOf]

theorem Accepted.nt_writers (h : Accepted s i t) : oneOf [.ntWrite] i ∨ t.nt = s.nt := by
  cases h <;> simp [oneOf, mnemonicOf]

end

/-! ## One slot -/

/-- What command `i` can do to slot `v`, unless it is INIT: the function that takes the slot before to
the slot after. -/
inductive SlotStep (s : State) (i : Instr) (v : Nat) : (Voice → Voice) → Prop where
  | unchanged : SlotStep s i v id
  | changed {w : Byte} {f : Voice → Voice} (hw : w.toNat = v) (hv : v < s.g.nva.toNat)
    (hf : SlotChange s.params s.g.sr i w f) : SlotStep s i v f
  | silenced (hi : oneOf [.seqStop, .tick] i) (hv : v < s.g.nva.toNat) : SlotStep s i v silence
  | dispatched (n : Half) (hi : oneOf [.tick] i) (hplay : s.seq.playing = true)
    (hv : v < s.seq.voices.toNat) : SlotStep s i v (dispatchNote s.g.sr n)
  | sampled (m : Mix) (hi : oneOf [.sample] i) (hv : v < s.g.nva.toNat) :
    SlotStep s i v (fun x => (sampleVoice s.params s.g.sr v x m).1)

/-- `after` is what one `SlotStep` of command `i` on `s` makes of slot `v`. -/
def SlotStepsTo (s : State) (i : Instr) (v : Nat) (after : Option Voice) : Prop :=
  ∃ f, after = (s.voices[v]?).map f ∧ SlotStep s i v f

theorem slotStepsTo_of_eq {s : State} {i : Instr} {v : Nat} {after : Option Voice}
    (h : after = s.voices[v]?) : SlotStepsTo s i v after :=
  ⟨id, by rw [h, Option.map_id_fun, id], .unchanged⟩

/-- A slot after `silence_all` (R144). -/
theorem silenceAll_getElem? (s : State) (v : Nat) :
    (silenceAll s).voices[v]? =
      if v < s.g.nva.toNat then (s.voices[v]?).map silence else s.voices[v]? := by
  rw [silenceAll_voices, mapSlots_getElem?]

/-- A slot after the dispatch of a column (R155). -/
theorem dispatch_getElem? (col : Nat) (s : State) (v : Nat) :
    (dispatch col s).voices[v]? =
      if v < s.seq.voices.toNat then
        (s.voices[v]?).map (dispatchNote s.g.sr (Memory.read s.nt (ntIndex s.seq v col)))
      else s.voices[v]? := by
  rw [dispatch, State.withVoices_voices, mapSlots_getElem?, Nat.zero_add]

/-- A slot after SAMPLE is one pass over what it was, if it is active, and what it was, if not (R134). -/
theorem sampleLoop_getElem? (s : State) (v : Nat) :
    (v < s.g.nva.toNat ∧ ∃ m, (sampleLoop s).1[v]? =
        (s.voices[v]?).map fun x => (sampleVoice s.params s.g.sr v x m).1) ∨
      (sampleLoop s).1[v]? = s.voices[v]? := by
  by_cases hv : v < s.g.nva.toNat
  · cases hx : s.voices[v]? with
    | some x =>
      obtain ⟨m, hm⟩ := sampleSlots_reached s.params s.g.sr 0 _ s.voices (mixStart s) v x hv hx
      rw [Nat.zero_add] at hm
      exact .inl ⟨hv, m, hm⟩
    | none =>
      refine .inr (List.getElem?_eq_none ?_)
      rw [sampleLoop, sampleSlots_length]
      exact List.getElem?_eq_none_iff.mp hx
  · exact .inr (sampleSlots_beyond _ _ _ _ _ _ v (not_lt.mp hv))

section

variable {s t : State} {i : Instr}

theorem slotStepsTo_of_silenceAll {u : State} (hg : u.g = s.g) (hu : u.voices = s.voices)
    (ht : t.voices = (silenceAll u).voices) (hi : oneOf [.seqStop, .tick] i) (v : Nat) :
    SlotStepsTo s i v t.voices[v]? := by
  have hslot := silenceAll_getElem? u v
  rw [← ht, hg, hu] at hslot
  by_cases hv : v < s.g.nva.toNat
  · rw [if_pos hv] at hslot
    exact ⟨silence, hslot, .silenced hi hv⟩
  · rw [if_neg hv] at hslot
    exact slotStepsTo_of_eq hslot

theorem slotStepsTo_of_dispatch (q : Sequencer) (hq : q.voices = s.seq.voices) (col : Nat)
    (hplay : s.seq.playing = true) (hi : oneOf [.tick] i) (v : Nat) :
    SlotStepsTo s i v (dispatch col (s.begin.withSeq q)).voices[v]? := by
  have hslot := dispatch_getElem? col (s.begin.withSeq q) v
  simp only [State.withSeq_seq, State.withSeq_voices, State.withSeq_g, State.begin_voices,
    State.begin_g, hq] at hslot
  by_cases hv : v < s.seq.voices.toNat
  · rw [if_pos hv] at hslot
    exact ⟨_, hslot, .dispatched _ hi hplay hv⟩
  · rw [if_neg hv] at hslot
    exact slotStepsTo_of_eq hslot

theorem slotStepsTo_of_sampleResult (hi : oneOf [.sample] i) (v : Nat) :
    SlotStepsTo s i v (sampleResult s).voices[v]? := by
  rw [sampleResult_voices]
  rcases sampleLoop_getElem? s v with ⟨hv, m, hslot⟩ | hslot
  · exact ⟨_, hslot, .sampled m hi hv⟩
  · exact slotStepsTo_of_eq hslot

theorem slotStepsTo_of_setVoice {w : Byte} {f : Voice → Voice} (hw : w.toNat < s.g.nva.toNat)
    (hf : SlotChange s.params s.g.sr i w f) (v : Nat) :
    SlotStepsTo s i v (s.begin.setVoice w.toNat f).voices[v]? := by
  have hslot := setVoice_getElem? s.begin w.toNat f v
  rw [State.begin_voices] at hslot
  by_cases hwv : w.toNat = v
  · simp only [hwv, if_true] at hslot
    exact ⟨f, hwv ▸ hslot, .changed hwv (hwv ▸ hw) hf⟩
  · simp only [hwv, if_false] at hslot
    rw [Option.map_id'] at hslot
    exact slotStepsTo_of_eq hslot

/-- The inversion for one slot: an accepted command other than INIT takes every slot by a `SlotStep`. -/
theorem Accepted.slotStep (h : Accepted s i t) (hi : mnemonicOf i ≠ .init) (v : Nat) :
    SlotStepsTo s i v t.voices[v]? := by
  cases h with
  | init n sr hok => exact absurd rfl hi
  | slot hv hf => exact slotStepsTo_of_setVoice hv hf v
  | sample => exact slotStepsTo_of_sampleResult (by simp [oneOf, mnemonicOf]) v
  | seqStop =>
    exact slotStepsTo_of_silenceAll (u := s.begin.withSeq (s.seq.withRun false false)) (by simp) (by simp)
      rfl (by simp [oneOf, mnemonicOf]) v
  | tickEnd now cur hplay =>
    exact slotStepsTo_of_silenceAll (u := s.begin.withSeq (s.seq.withBeat cur)) (by simp) (by simp)
      (endTrack_voices _) (by simp [oneOf, mnemonicOf]) v
  | tickBeat now cur col hplay =>
    exact slotStepsTo_of_dispatch _ (by simp) col hplay (by simp [oneOf, mnemonicOf]) v
  | nop | setSr | setMvol | clrStatus | read | arbRead | seqInit | seqStart | seqTempo | seqCb
  | ntWrite | ntRead | tickIdle => exact slotStepsTo_of_eq (by simp)

end

/-! ## The writers of a slot's registers (R49) -/

theorem voiceWriters_refl (i : Instr) (x : Voice) : voiceWriters i x x := by
  simp [voiceWriters]

theorem voiceWriters_init {i : Instr} (hi : mnemonicOf i = .init) (x y : Voice) :
    voiceWriters i x y := by
  simp [voiceWriters, oneOf, hi]

theorem voiceWriters_slotChange {p : Params} {sr : BitVec 20} {i : Instr} {v : Byte}
    {f : Voice → Voice} (h : SlotChange p sr i v f) (x : Voice) : voiceWriters i x (f x) := by
  cases h with
  | trigAttack | trigRelease =>
    simp [voiceWriters, oneOf, mnemonicOf, triggerAttack, triggerRelease]
  | wave | freq | pw | vol | attack | decay | sustain | release | arb =>
    simp [voiceWriters, oneOf, mnemonicOf]

theorem voiceWriters_silence {i : Instr} (hi : oneOf [.seqStop, .tick] i) (x : Voice) :
    voiceWriters i x (silence x) := by
  rcases (by simpa [oneOf] using hi : mnemonicOf i = .seqStop ∨ mnemonicOf i = .tick) with hi | hi <;>
    simp [voiceWriters, oneOf, hi]

theorem voiceWriters_dispatchNote {i : Instr} (hi : oneOf [.tick] i) (sr : BitVec 20) (n : Half)
    (x : Voice) : voiceWriters i x (dispatchNote sr n x) := by
  have hi' : mnemonicOf i = .tick := by simpa [oneOf] using hi
  unfold dispatchNote
  split
  · simp [voiceWriters, oneOf, hi', triggerAttack]
  · split
    · simp [voiceWriters, oneOf, hi', triggerRelease]
    · exact voiceWriters_refl i x

theorem voiceWriters_sampleVoice {i : Instr} (hi : oneOf [.sample] i) (p : Params) (sr : BitVec 20)
    (v : Nat) (x : Voice) (m : Mix) : voiceWriters i x (sampleVoice p sr v x m).1 := by
  have hi' : mnemonicOf i = .sample := by simpa [oneOf] using hi
  rcases sampleVoice_cases p sr v x m with ⟨-, h⟩ | ⟨-, h⟩ <;>
    simp [h, voiceWriters, oneOf, hi', sampleSounding]

theorem SlotStep.voiceWriters {s : State} {i : Instr} {v : Nat} {f : Voice → Voice}
    (h : SlotStep s i v f) (x : Voice) : voiceWriters i x (f x) := by
  cases h with
  | unchanged => exact voiceWriters_refl i x
  | changed _ _ hf => exact voiceWriters_slotChange hf x
  | silenced hi _ => exact voiceWriters_silence hi x
  | dispatched n hi _ _ => exact voiceWriters_dispatchNote hi _ n x
  | sampled m hi _ => exact voiceWriters_sampleVoice hi _ _ v x m

theorem Accepted.slot_writers {s t : State} {i : Instr} (h : Accepted s i t) {v : Nat} {x y : Voice}
    (hx : s.voices[v]? = some x) (hy : t.voices[v]? = some y) : Claim.voiceWriters i x y := by
  by_cases hi : mnemonicOf i = .init
  · exact voiceWriters_init hi x y
  · obtain ⟨f, hf, hstep⟩ := h.slotStep hi v
    obtain rfl : f x = y := by simpa [hx, hy] using hf.symm
    exact hstep.voiceWriters x

/-! ## The rules over all commands -/

/-- Settles O58: a rejection writes ERR and ERRCODE alone, and an accepted command what its effect does. -/
theorem onlyTheListedCommandsWriteEachRegister : Obligations.OnlyTheListedCommandsWriteEachRegister := by
  intro i s t h
  rcases exec_answered h with ⟨c, -, rfl⟩ | hacc
  · refine ⟨by simp, .inr (by simp), .inr (by simp), .inr (by simp), .inr (by simp), .inr (by simp),
      .inr (.inl ⟨c, reject_eq_rejected c s⟩), fun v x y hx hy => ?_, .inr (by simp), .inr (by simp)⟩
    obtain rfl : x = y := by simpa [hx] using hy
    exact voiceWriters_refl i x
  · have hdone : oneOf [.tick, .clrStatus] i ∨ t.g.done = s.g.done := by
      have := hacc.done_writers
      simp only [oneOf, List.mem_cons, List.not_mem_nil, or_false] at this ⊢
      tauto
    exact ⟨hacc.params_eq, hacc.nva_writers, hacc.sr_writers, hacc.mvol_writers, hacc.noise_writers,
      hdone, hacc.err_writers.imp_right .inr, fun v x y hx hy => hacc.slot_writers hx hy,
      hacc.seq_writers, hacc.nt_writers⟩

/-- Settles O57: a rejection keeps the first code, and of the accepted commands only CLR_STATUS clears. -/
theorem onlyClrStatusClearsTheStickyFlags : Obligations.OnlyClrStatusClearsTheStickyFlags := by
  intro i s t h hi
  have hclr : ¬oneOf [.clrStatus] i := by simpa [oneOf] using hi
  rcases exec_answered h with ⟨c, -, rfl⟩ | hacc
  · exact ⟨fun herr => ⟨State.reject_g_err c s, by rw [State.reject_g_errcode, if_pos herr]⟩,
      fun hdone => by rw [State.reject_g_done, hdone]⟩
  · obtain ⟨herr', hcode⟩ := hacc.err_writers.resolve_left hclr
    refine ⟨fun herr => ⟨herr'.trans herr, hcode⟩, fun hdone => ?_⟩
    rcases hacc.done_writers.resolve_left hclr with hkept | ⟨-, hset⟩
    · exact hkept.trans hdone
    · exact hset

/-- A slot from G.NVA up takes no step, while a playing sequencer has no more rows than active voices. -/
theorem SlotStep.eq_id_of_inactive {s : State} {i : Instr} {v : Nat} {f : Voice → Voice}
    (h : SlotStep s i v f) (hrows : s.seq.playing = true → s.seq.voices.toNat ≤ s.g.nva.toNat)
    (hv : s.g.nva.toNat ≤ v) : f = id := by
  cases h with
  | unchanged => rfl
  | dispatched n _ hplay hrow => exact absurd ((hrows hplay).trans hv) (not_le.mpr hrow)
  | changed _ hlt _ | silenced _ hlt | sampled _ _ hlt => exact absurd hv (not_le.mpr hlt)

/-- Settles O60: no effect but INIT's reaches a slot that is not active. -/
theorem inactiveSlotsKeepTheirState : Obligations.InactiveSlotsKeepTheirState := by
  intro i s t h hi hrows v hv
  rcases exec_answered h with ⟨c, -, rfl⟩ | hacc
  · rw [State.reject_voices]
  · obtain ⟨f, hf, hstep⟩ := hacc.slotStep hi v
    rw [hf, hstep.eq_id_of_inactive hrows hv, Option.map_id_fun, id]

end Sys2Proof.Machine
end

section
/-! PROOFS. The bytes of a transfer (spec/20_memory.md R54, spec/30_encoding.md R68): what a byte of a word
and a word of four bytes are as numbers, and what is taken from a byte link. -/

namespace Sys2Proof

/-! ## Words and bytes as numbers (R54) -/

/-- Concatenation as arithmetic: the high part counts in units of the low part's range. -/
theorem toNat_append_eq_add {m n : Nat} (x : BitVec m) (y : BitVec n) :
    (x ++ y).toNat = y.toNat + x.toNat * 2 ^ n := by
  rw [BitVec.toNat_append, ← Nat.shiftLeft_add_eq_or_of_lt y.isLt, Nat.shiftLeft_eq, Nat.add_comm]

/-- Four bytes, the most significant first, are the word with the bytes as its digits to base 256. -/
theorem append_bytes_eq_ofNat (b0 b1 b2 b3 : Byte) :
    (b3 ++ b2 ++ b1 ++ b0 : Word) =
      BitVec.ofNat 32 (b0.toNat + b1.toNat * 2 ^ 8 + b2.toNat * 2 ^ 16 + b3.toNat * 2 ^ 24) := by
  have hnat : (b3 ++ b2 ++ b1 ++ b0 : Word).toNat =
      b0.toNat + b1.toNat * 2 ^ 8 + b2.toNat * 2 ^ 16 + b3.toNat * 2 ^ 24 := by
    simp only [toNat_append_eq_add]
    omega
  rw [← hnat, BitVec.ofNat_toNat, BitVec.setWidth_eq]

/-- The byte of a word at bit `start` is the word's value shifted down, to 8 bits. -/
theorem byte_at_eq_ofNat (w : Word) (start : Nat) :
    w.extractLsb' start 8 = BitVec.ofNat 8 (w.toNat / 2 ^ start) := by
  rw [← Nat.shiftRight_eq_div_pow]
  rfl

theorem wordBytes_eq_ofNat (w : Word) :
    wordBytes w = [BitVec.ofNat 8 w.toNat, BitVec.ofNat 8 (w.toNat / 2 ^ 8),
      BitVec.ofNat 8 (w.toNat / 2 ^ 16), BitVec.ofNat 8 (w.toNat / 2 ^ 24)] := by
  simp only [wordBytes, byte_at_eq_ofNat, pow_zero, Nat.div_one]

/-! ## Taking a transfer from a link (R68) -/

theorem takeTransfer_of_eight (c0 c1 c2 c3 a0 a1 a2 a3 : Byte) (rest : List Byte) :
    takeTransfer (c0 :: c1 :: c2 :: c3 :: a0 :: a1 :: a2 :: a3 :: rest) =
      some ((c3 ++ c2 ++ c1 ++ c0, a3 ++ a2 ++ a1 ++ a0), rest) := rfl

theorem takeTransfer_of_short {bytes : List Byte} (h : bytes.length < 8) : takeTransfer bytes = none := by
  unfold takeTransfer
  split
  next => simp only [List.length_cons] at h; omega
  next => rfl

/-- The bytes of a transfer are taken as that transfer, whatever follows them. -/
theorem takeTransfer_transferBytes (t : Transfer) (rest : List Byte) :
    takeTransfer (transferBytes t ++ rest) = some (t, rest) := by
  simp only [transferBytes, wordBytes, List.cons_append, List.nil_append, takeTransfer_of_eight,
    word_of_bytes]

/-- Settles O5: the bytes and the words as numbers, a list too short, and the round trip. -/
theorem transferSurvivesItsBytes : Obligations.TransferSurvivesItsBytes := by
  refine ⟨fun cmd arg => ?_, fun c0 c1 c2 c3 a0 a1 a2 a3 rest => ?_, fun _ => takeTransfer_of_short,
    takeTransfer_transferBytes⟩
  · rw [transferBytes, wordBytes_eq_ofNat, wordBytes_eq_ofNat]
    rfl
  · rw [takeTransfer_of_eight, append_bytes_eq_ofNat, append_bytes_eq_ofNat]

end Sys2Proof
end

section
/-! PROOFS. The encoding (spec/30_encoding.md R67, R70, R72, R73): what the decoder answers for each opcode,
and that decoding and encoding are inverse to each other. -/

namespace Sys2Proof

/-! ## The fields of an encoded command (R67) -/

/-- A command encodes to a pair of words exactly if its row gives the fields of that pair. -/
theorem encode_eq_iff (i : Instr) (cmd arg : Word) :
    encode i = (cmd, arg) ↔ encodeFields i = (opField cmd, vfField cmd, immField cmd, arg) := by
  constructor
  · intro h
    obtain ⟨hop, hvf, himm, harg⟩ := Laws.EncodeFields.all i
    simp only [h] at hop hvf himm harg
    rw [hop, hvf, himm, harg]
  · intro h
    simp only [encode, h, cmdWord_fields]

/-! ## Immediates of which a command uses only the low bits (R69) -/

/-- The bits of a widened value from its own width up are 0. -/
theorem high_setWidth_eq_zero {w : Nat} (x : BitVec w) (n k : Nat) :
    (x.setWidth n).extractLsb' w k = 0 := by
  refine BitVec.eq_of_getLsbD_eq fun j _ => ?_
  simp

/-- The low bits of a widened value are the value. -/
theorem low_setWidth {w : Nat} (x : BitVec w) {n : Nat} (h : w ≤ n) :
    (x.setWidth n).extractLsb' 0 w = x := by
  refine BitVec.eq_of_getLsbD_eq fun j hj => ?_
  simp [show j < n by omega, hj]

/-- A value none of whose bits from `w` up is set is its low `w` bits, widened. -/
theorem setWidth_low_of_high_eq_zero {n w k : Nat} {x : BitVec n} (hn : n ≤ w + k)
    (h : x.extractLsb' w k = 0) : (x.extractLsb' 0 w).setWidth n = x := by
  refine BitVec.eq_of_getLsbD_eq fun j hj => ?_
  by_cases hw : j < w
  · simp [hw, hj]
  · have hbit := congrArg (fun y => y.getLsbD (j - w)) h
    have hx : x.getLsbD j = false := by
      simpa [show w ≤ j by omega, show j - w < k by omega] using hbit
    simp [hw, hx]

theorem setWidth_low6 {imm : Half} (h : imm.extractLsb' 6 10 = 0) :
    (imm.extractLsb' 0 6).setWidth 16 = imm := setWidth_low_of_high_eq_zero (by omega) h

theorem setWidth_low8 {imm : Half} (h : imm.extractLsb' 8 8 = 0) :
    (imm.extractLsb' 0 8).setWidth 16 = imm := setWidth_low_of_high_eq_zero (by omega) h

/-- The lowest bit as a flag is the field of that one bit. -/
theorem ofBool_getLsbD_zero {n : Nat} (x : BitVec n) :
    BitVec.ofBool (x.getLsbD 0) = x.extractLsb' 0 1 := by
  refine BitVec.eq_of_getLsbD_eq fun j hj => ?_
  obtain rfl : j = 0 := by omega
  simp

theorem setWidth_flag {imm : Half} (h : imm.extractLsb' 1 15 = 0) :
    (BitVec.ofBool (imm.getLsbD 0)).setWidth 16 = imm := by
  rw [ofBool_getLsbD_zero]
  exact setWidth_low_of_high_eq_zero (by omega) h

/-! ## Decoding what was encoded -/

/-- The decoder and the well-formedness check reserve READ's voice field for the same selectors (R72). -/
theorem readVfReserved_eq (sel : Half) : readVfReserved sel = isGlobalSel sel := rfl

@[simp] theorem unlessReserved_true (i : Instr) : unlessReserved true i = .ok i := rfl

/-- Settles O1, command by command: the opcode selects the command's own row, whose reserved fields the
encoder left zero. -/
theorem encodedCommandDecodesToItself : Obligations.EncodedCommandDecodesToItself := by
  intro i hwf
  cases i with
  | read v sel =>
    have hvf : (!readVfReserved sel || v == 0#8) = true := hwf
    simp [decode, encode, encodeFields, hvf]
  | setWave | setVol | seqStart | seqCb =>
    simp [decode, encode, encodeFields, high_setWidth_eq_zero, low_setWidth]
  | _ => simp [decode, encode, encodeFields]

/-! ## What the decoder answers for each opcode (R70, R73) -/

/-- The opcode lies in one of R73's five ranges. -/
def illegalOpcode (op : Byte) : Prop :=
  0x06 ≤ op.toNat ∧ op.toNat ≤ 0x0F ∨ 0x15 ≤ op.toNat ∧ op.toNat ≤ 0x1F ∨
    0x26 ≤ op.toNat ∧ op.toNat ≤ 0x2F ∨ 0x32 ≤ op.toNat ∧ op.toNat ≤ 0x3F ∨ 0x48 ≤ op.toNat

/-- An opcode of R73's ranges is rejected with ILLEGAL_OP; any other selects a command `i` and a check `z` of
its reserved fields, and where that check passes the words are the encoding of `i`. -/
theorem decode_cases (cmd arg : Word) :
    illegalOpcode (opField cmd) ∧ decode cmd arg = .error .illegalOp ∨
      ¬illegalOpcode (opField cmd) ∧ ∃ z i, decode cmd arg = unlessReserved z i ∧
        (z = true → i.wf = true ∧ encode i = (cmd, arg)) := by
  simp only [encode_eq_iff]
  unfold decode
  dsimp only
  split
  case h_28 => -- none of the 27 opcodes of R70
    refine .inl ⟨?_, rfl⟩
    unfold illegalOpcode
    simp only [imp_false, BitVec.toNat_eq, BitVec.toNat_ofNat] at *
    omega
  all_goals -- one opcode of R70, `hop`, with its reserved fields zero, `hz`
    next hop =>
    rw [hop]
    refine .inr ⟨by unfold illegalOpcode; decide, _, _, rfl, fun hz => ?_⟩
    simp only [Bool.and_eq_true, beq_iff_eq, readVfReserved_eq] at hz
    simp only [encodeFields, Instr.wf, hz, setWidth_low6, setWidth_low8, setWidth_flag]
    exact ⟨trivial, rfl⟩

/-- Settles O2: the words decode only where an opcode's reserved fields pass their check. -/
theorem decodedCommandEncodesToItsWords : Obligations.DecodedCommandEncodesToItsWords := by
  intro cmd arg i h
  obtain ⟨-, hd⟩ | ⟨-, z, j, hd, henc⟩ := decode_cases cmd arg
  · cases hd.symm.trans h
  · obtain ⟨hz, hok⟩ | ⟨-, hrsvd⟩ := unlessReserved_cases z j
    · obtain rfl : j = i := Except.ok.inj ((hd.trans hok).symm.trans h)
      exact henc hz
    · cases (hd.trans hrsvd).symm.trans h

/-- Settles O3: outside the five ranges the only rejection is RSVD. -/
theorem illegalOpcodesAreTheListedRanges : Obligations.IllegalOpcodesAreTheListedRanges := by
  intro cmd arg
  change decode cmd arg = .error .illegalOp ↔ illegalOpcode (opField cmd)
  obtain ⟨hillegal, hd⟩ | ⟨hlegal, z, i, hd, -⟩ := decode_cases cmd arg
  · exact ⟨fun _ => hillegal, fun _ => hd⟩
  · exact ⟨fun h => (nomatch unlessReserved_error (hd.symm.trans h)), fun h => absurd h hlegal⟩

end Sys2Proof
end

section
/-! PROOFS. The assembly syntax (spec/30_encoding.md R76, R78): each operand is read back as written, and a
command's written operands assemble to it. -/

namespace Sys2Proof.Machine

/-! ## Each operand is read back as written (R76) -/

@[simp] theorem asVoice_voice (v : Byte) : asVoice (.voice v.toNat) = some v := by
  simp [asVoice, v.isLt]

@[simp] theorem asUnsigned_dec {w : Nat} (x : BitVec w) : asUnsigned w (.dec (x.toNat : Int)) = some x := by
  simp [asUnsigned, x.isLt]

@[simp] theorem asUnsigned_hex {w : Nat} (x : BitVec w) : asUnsigned w (.hex x.toNat) = some x := by
  simp [asUnsigned, x.isLt]

@[simp] theorem asSigned16_dec (x : Half) : asSigned16 (.dec x.toInt) = some x := by
  have hlo : -32768 ≤ x.toInt := BitVec.le_toInt x
  have hhi : x.toInt ≤ 32767 := Int.le_of_lt_add_one (BitVec.toInt_lt (x := x))
  simp [asSigned16, hlo, hhi]

@[simp] theorem asFlag_dec (b : Bool) : asFlag (.dec (b.toNat : Int)) = some b := by
  cases b <;> rfl

@[simp] theorem asMask_kinds (m : BitVec 6) : asMask (.kinds m) = some m := rfl

/-! ## A command's operands assemble to it -/

@[simp] theorem voiceNumber_written {w : Nat} (f : Byte → BitVec w → Instr) (v : Byte) (x : BitVec w) :
    voiceNumber w f [.voice v.toNat, .dec (x.toNat : Int)] = some (f v x) := by
  simp [voiceNumber, form2]

/-- READ's two forms are told apart by the selector: written without a voice, it reads back as voice 0. -/
theorem assembleRead_written (v : Byte) (sel : Half) (h : selTakesVoice sel = false → v = 0) :
    assembleRead (operandsOf (.read v sel)) = some (.read v sel) := by
  cases hsel : selTakesVoice sel with
  | true => simp [operandsOf, assembleRead, onlyIf, hsel]
  | false => simp [operandsOf, assembleRead, onlyIf, hsel, h hsel]

/-- Settles O6, command by command: each operand is read back as written, and READ by its two forms. -/
theorem writtenOperandsAssembleToTheCommand : Obligations.WrittenOperandsAssembleToTheCommand := by
  intro i hread
  cases i with
  | read v sel => exact assembleRead_written v sel (hread v sel rfl)
  | nop | clrStatus | sample | seqStop => rfl
  | setFreq | setPw | arbRead | setAttack | setDecay | setSustain | setRelease | setVol =>
    exact voiceNumber_written _ _ _
  | _ => simp [mnemonicOf, operandsOf, assemble, form1, form2, form3]

/-! ## The examples of R78 -/

/-- A line that assembles to one command gives that command's words, and they decode to it. -/
theorem assembled_words_decode {line : String} {i : Instr} {cmd arg : Word}
    (hline : assembleLine line = some [i]) (hwf : i.wf = true) (henc : encode i = (cmd, arg)) :
    assembleWords line = some [(cmd, arg)] ∧ decode cmd arg = .ok i := by
  constructor
  · simp only [assembleWords, hline, Option.map_some, List.map_cons, List.map_nil, henc]
  · simpa only [henc] using encodedCommandDecodesToItself i hwf

/-- Settles O4: each example's line is assembled and its command encoded, by evaluation. -/
theorem encodingExamplesDecode : Obligations.EncodingExamplesDecode :=
  ⟨assembled_words_decode (by decide) rfl (by decide), assembled_words_decode (by decide) rfl (by decide),
    assembled_words_decode (by decide) rfl (by decide), assembled_words_decode (by decide) rfl (by decide),
    assembled_words_decode (by decide) rfl (by decide), assembled_words_decode (by decide) rfl (by decide)⟩

end Sys2Proof.Machine
end

section
/-! PROOFS. The system and master commands (spec/40_system.md R80 to R86): the row each opcode decodes by,
STATUS and the registers as numbers, and what each command answers and leaves alone. -/

namespace Sys2Proof.Machine

open Sys2Proof.Claim

/-! ## Rows of the opcode table (R70, R72) -/

/-- An encoding may be claimed with any check of the reserved fields that passes on the same fields. -/
theorem encodes_congr {op : Byte} {z fieldsOk : Byte → Half → Word → Bool}
    {i : Byte → Half → Word → Instr} (hrow : encodes op z i)
    (hz : ∀ vf imm arg, z vf imm arg = true ↔ fieldsOk vf imm arg = true) : encodes op fieldsOk i := by
  obtain rfl : z = fieldsOk := funext fun vf => funext fun imm => funext fun arg =>
    Bool.eq_iff_iff.mpr (hz vf imm arg)
  exact hrow

theorem encodes_nop : encodes 0x00 (fun vf imm arg => vf == 0 && imm == 0 && arg == 0)
    (fun _ _ _ => .nop) := by
  intro cmd arg hop
  rw [decode, hop]
  rfl

theorem encodes_init : encodes 0x01 (fun vf _ _ => vf == 0) (fun _ imm arg => .init imm arg) := by
  intro cmd arg hop
  rw [decode, hop]
  rfl

theorem encodes_setSr : encodes 0x02 (fun vf imm _ => vf == 0 && imm == 0) (fun _ _ arg => .setSr arg) := by
  intro cmd arg hop
  rw [decode, hop]
  rfl

theorem encodes_setMvol : encodes 0x03 (fun vf _ arg => vf == 0 && arg == 0)
    (fun _ imm _ => .setMvol imm) := by
  intro cmd arg hop
  rw [decode, hop]
  rfl

theorem encodes_clrStatus : encodes 0x04 (fun vf imm arg => vf == 0 && imm == 0 && arg == 0)
    (fun _ _ _ => .clrStatus) := by
  intro cmd arg hop
  rw [decode, hop]
  rfl

theorem encodes_read : encodes 0x05 (fun vf imm arg => arg == 0 && (!readVfReserved imm || vf == 0))
    (fun vf imm _ => .read vf imm) := by
  intro cmd arg hop
  rw [decode, hop]
  rfl

/-! ## Responses (R8, R14) -/

theorem begin_eq_answering (s : State) : s.begin = answering 0 s := rfl

theorem begin_respond_eq_answering (s : State) (x : Word) : s.begin.respond x = answering x s := rfl

/-- A check that fails answers R163's rejection. -/
theorem rejectIf_eq_rejected {bad : Bool} {c : ErrCode} {s : State} {k : Result} (hbad : bad = true) :
    rejectIf bad c s k = .next (rejected c s) := by
  rw [hbad, rejectIf_true, reject_eq_rejected]

/-- A check that passes answers what follows it. -/
theorem rejectIf_eq_of_ok {bad : Bool} {c : ErrCode} {s : State} {k r : Result} (hok : bad = false)
    (hk : k = r) : rejectIf bad c s k = r := by
  rw [hok, rejectIf_false, hk]

/-! ## NOP, SET_MVOL, CLR_STATUS: no rejection but RSVD -/

/-- Settles O14: NOP's row, and a response of 0 as its whole effect. -/
theorem nopAnswersZero : Obligations.NopAnswersZero :=
  ⟨encodes_congr encodes_nop (by simp [and_assoc]),
    fun s => congrArg Host.Outcome.next (begin_eq_answering s)⟩

/-- Settles O17: SET_MVOL's row, and the clamped volume as its only write. -/
theorem setMvolClampsToOneHundred : Obligations.SetMvolClampsToOneHundred :=
  ⟨encodes_congr encodes_setMvol (by simp), fun _ _ => rfl⟩

/-- Settles O18: CLR_STATUS's row, and the three registers it writes. -/
theorem clrStatusClearsDoneAndErrors : Obligations.ClrStatusClearsDoneAndErrors :=
  ⟨encodes_congr encodes_clrStatus (by simp [and_assoc]), fun _ => rfl⟩

/-! ## SET_SR and INIT: the ranges of R75 -/

theorem sampleRateOk_eq_false_iff (sr : Word) :
    sampleRateOk sr = false ↔ sr.toNat = 0 ∨ 0xFFFFF < sr.toNat := by
  rw [← Bool.not_eq_true, sampleRateOk_iff]
  omega

theorem initBad_iff (n : Half) (sr : Word) (s : State) :
    initBad n sr s = true ↔
      n.toNat = 0 ∨ s.params.nvMax < n.toNat ∨ sr.toNat = 0 ∨ 0xFFFFF < sr.toNat := by
  simp only [initBad, Bool.or_eq_true, decide_eq_true_eq, Bool.not_eq_true', sampleRateOk_eq_false_iff,
    or_assoc]

/-- SET_SR with a legal rate, written as an update of the whole record (R82). -/
theorem exec_setSr_of_ok {sr : Word} (hok : sampleRateOk sr = true) (s : State) :
    exec (.setSr sr) s =
      .next (answering 0 { s with g := { s.g with sr := BitVec.ofNat 20 sr.toNat } }) := by
  rw [BitVec.ofNat_toNat]
  exact rejectIf_eq_of_ok (congrArg not hok) rfl

theorem exec_setSr_of_bad {sr : Word} (hbad : sampleRateOk sr = false) (s : State) :
    exec (.setSr sr) s = .next (rejected .badValue s) :=
  rejectIf_eq_rejected (congrArg not hbad)

/-- Settles O16: SET_SR's row, and the check of the rate decides between the write and BAD_VALUE. -/
theorem setSrWritesTheRate : Obligations.SetSrWritesTheRate :=
  ⟨encodes_congr encodes_setSr (by simp), fun sr s =>
    ⟨fun hlo hhi => exec_setSr_of_ok ((sampleRateOk_iff sr).mpr ⟨hlo, hhi⟩) s,
      fun hbad => exec_setSr_of_bad ((sampleRateOk_eq_false_iff sr).mpr hbad) s⟩⟩

/-- INIT with legal operands, written as updates of whole records (R81). -/
theorem exec_init_of_ok {n : Half} {sr : Word} {s : State} (hok : initBad n sr s = false) :
    exec (.init n sr) s = .next (answering 0
      { s with
        seq := { s.seq with playing := false, beatValid := false }
        voices := List.replicate s.params.nvMax (defaultVoice s.params.arbLen 256)
        g := { s.g with nva := BitVec.ofNat 7 n.toNat, sr := BitVec.ofNat 20 sr.toNat } }) := by
  rw [← voiceDefaults_eq, BitVec.ofNat_toNat, BitVec.ofNat_toNat]
  exact rejectIf_eq_of_ok hok rfl

theorem exec_init_of_bad {n : Half} {sr : Word} {s : State} (hbad : initBad n sr s = true) :
    exec (.init n sr) s = .next (rejected .badValue s) :=
  rejectIf_eq_rejected hbad

/-- Settles O15: INIT's row, and the check of its operands decides between the fresh engine and BAD_VALUE. -/
theorem initDefaultsEverySlot : Obligations.InitDefaultsEverySlot := by
  refine ⟨encodes_congr encodes_init (by simp), 256, fun n sr s =>
    ⟨fun hn hmax hlo hhi => exec_init_of_ok ?_,
      fun hbad => exec_init_of_bad ((initBad_iff n sr s).mpr hbad)⟩⟩
  rw [← Bool.not_eq_true, initBad_iff]
  omega

/-! ## READ: the registers as numbers (R43, R71, R164) -/

/-- A zero-extended register is its value in a word. -/
theorem zext32_eq_ofNat {n : Nat} (v : BitVec n) : zext32 v = BitVec.ofNat 32 v.toNat :=
  (BitVec.ofNat_toNat 32 v).symm

/-- A sign-extended register is its signed value in a word. -/
theorem sext32_eq_ofInt (v : Half) : sext32 v = BitVec.ofInt 32 v.toInt := rfl

theorem errCodeBits_toNat (c : ErrCode) : (errCodeBits c).toNat = errCodeNumber c := by
  cases c <;> rfl

theorem envStateBits_toNat (st : EnvState) : (envStateBits st).toNat = envStateNumber st := by
  cases st <;> rfl

/-- STATUS holds each flag and the error code at its own bits (R43). -/
theorem statusWord_eq_ofNat (s : State) : statusWord s = BitVec.ofNat 32 (statusNumber s) := by
  have hnat : (statusWord s).toNat = statusNumber s := by
    simp only [statusWord, statusNumber, toNat_append_eq_add, errCodeBits_toNat, BitVec.toNat_ofBool,
      BitVec.ofNat_eq_ofNat, BitVec.toNat_ofNat]
    omega
  rw [← hnat, BitVec.ofNat_toNat, BitVec.setWidth_eq]

/-! ## READ: what each selector gives (R71, R86) -/

theorem isVoiceSel_iff (sel : Half) : isVoiceSel sel = true ↔ 0x10 ≤ sel.toNat ∧ sel.toNat ≤ 0x1F :=
  decide_eq_true_iff

/-- Each row of the table of global selectors is what the machine reads there. -/
theorem readValue_of_mem_globalReads (v : Byte) (s : State) :
    ∀ r ∈ globalReads s, isVoiceSel r.1 = false ∧ readValue s v r.1 = some r.2 := by
  simp [globalReads, isVoiceSel, readValue, readGlobal, zext32_eq_ofNat, statusWord_eq_ofNat]

/-- Each row of the table of voice selectors is what the machine reads there. -/
theorem readVoice_of_mem_voiceReads (x : Voice) :
    ∀ r ∈ voiceReads x, isVoiceSel r.1 = true ∧ readVoice x r.1 = some r.2 := by
  simp [voiceReads, isVoiceSel, readVoice, zext32_eq_ofNat, sext32_eq_ofInt, envStateBits_toNat]

/-- Between the last global selector and the first voice selector, and past the last one, nothing is read. -/
theorem readGlobal_of_undefined (s : State) {sel : Half}
    (h : 0x0B ≤ sel.toNat ∧ sel.toNat ≤ 0x0F ∨ 0x20 ≤ sel.toNat) : readGlobal s sel = none := by
  unfold readGlobal
  split
  case h_12 => rfl
  all_goals simp at h

theorem exec_read_of_value {v : Byte} {sel : Half} {s : State} {x : Word}
    (hv : isVoiceSel sel = true → voiceOk s v = true) (hx : readValue s v sel = some x) :
    exec (.read v sel) s = .next (answering x s) := by
  have hpass : (isVoiceSel sel && !voiceOk s v) = false := by
    cases hsel : isVoiceSel sel
    · rfl
    · rw [hv hsel]; rfl
  refine rejectIf_eq_of_ok hpass ?_
  rw [hx]
  exact congrArg Host.Outcome.next (begin_respond_eq_answering s x)

theorem exec_read_of_inactive {v : Byte} {sel : Half} {s : State} (hsel : isVoiceSel sel = true)
    (hv : voiceOk s v = false) : exec (.read v sel) s = .next (rejected .badVoice s) :=
  rejectIf_eq_rejected (by rw [hsel, hv]; rfl)

theorem exec_read_of_undefined {v : Byte} {sel : Half} {s : State} (hsel : isVoiceSel sel = false)
    (hx : readGlobal s sel = none) : exec (.read v sel) s = .next (rejected .badValue s) := by
  have hval : readValue s v sel = none := by rw [readValue, hsel]; exact hx
  refine rejectIf_eq_of_ok (by rw [hsel]; rfl) ?_
  rw [hval, ← reject_eq_rejected]

/-- READ's check of its reserved fields, VF with a selector up to 0x0F among them (R72). -/
theorem readFields_iff (vf : Byte) (imm : Half) (arg : Word) :
    (arg == 0 && (!readVfReserved imm || vf == 0)) = true ↔ arg = 0 ∧ (0x0F < imm.toNat ∨ vf = 0) := by
  simp [readVfReserved]

/-- Settles O19: READ's row, the two tables of selectors, and the two rejections. -/
theorem readReturnsEveryRegister : Obligations.ReadReturnsEveryRegister := by
  refine ⟨encodes_congr encodes_read
      fun vf imm arg => (readFields_iff vf imm arg).trans decide_eq_true_iff.symm,
    fun v s r hr => ?_, fun v s x hv hslot r hr => ?_, fun v sel s hv hlo hhi => ?_, fun v sel s hsel => ?_⟩
  · obtain ⟨hglobal, hval⟩ := readValue_of_mem_globalReads v s r hr
    exact exec_read_of_value (by simp [hglobal]) hval
  · obtain ⟨hvoice, hval⟩ := readVoice_of_mem_voiceReads x r hr
    refine exec_read_of_value (fun _ => decide_eq_true hv) ?_
    rw [readValue, if_pos hvoice, voice_of_getElem? hslot, hval]
  · exact exec_read_of_inactive ((isVoiceSel_iff sel).mpr ⟨hlo, hhi⟩) (decide_eq_false (not_lt.mpr hv))
  · have hglobal : isVoiceSel sel = false := by
      rw [← Bool.not_eq_true, isVoiceSel_iff]
      omega
    exact exec_read_of_undefined hglobal (readGlobal_of_undefined s hsel)

end Sys2Proof.Machine
end

section
/-! PROOFS. The noise generator and the waveform kinds (spec/41_oscillator.md R91, R92, R97 to R103): each
by arithmetic on its operands as numbers. -/

namespace Sys2Proof.Machine

/-! ## A field of a word as a number (R67) -/

/-- A field of a word is its value shifted down, to the field's width. -/
theorem field_eq_ofNat {n : Nat} (x : BitVec n) (start len : Nat) :
    x.extractLsb' start len = BitVec.ofNat len (x.toNat / 2 ^ start) := by
  rw [← Nat.shiftRight_eq_div_pow]
  rfl

theorem toNat_field {n : Nat} (x : BitVec n) (start len : Nat) :
    (x.extractLsb' start len).toNat = x.toNat / 2 ^ start % 2 ^ len := by
  rw [field_eq_ofNat, BitVec.toNat_ofNat]

/-- The field at the top of a value needs no reduction to its width. -/
theorem toNat_top_field {n : Nat} (x : BitVec n) {start len : Nat} (h : n = start + len) :
    (x.extractLsb' start len).toNat = x.toNat / 2 ^ start := by
  rw [toNat_field, Nat.mod_eq_of_lt]
  apply Nat.div_lt_of_lt_mul
  rw [← pow_add, ← h]
  exact x.isLt

/-! ## Noise (R91, R92) -/

theorem toNat_xor_shiftLeft {n : Nat} (x : BitVec n) (k : Nat) :
    (x ^^^ (x <<< k)).toNat = x.toNat ^^^ (x.toNat * 2 ^ k % 2 ^ n) := by
  rw [BitVec.toNat_xor, BitVec.toNat_shiftLeft, Nat.shiftLeft_eq]

theorem toNat_xor_shiftRight {n : Nat} (x : BitVec n) (k : Nat) :
    (x ^^^ (x >>> k)).toNat = x.toNat ^^^ (x.toNat / 2 ^ k) := by
  rw [BitVec.toNat_xor, BitVec.toNat_ushiftRight, Nat.shiftRight_eq_div_pow]

/-- The value of `noise_normal`, of the two draws as numbers (R92). -/
theorem noiseNormal_value (x : Word) :
    (noiseNormal x).2 =
      ((((noiseNext x).toNat / 2 ^ 16 : Nat) : Int) + ((noiseNext (noiseNext x)).toNat % 2 ^ 16 : Nat) -
        65535) / 2 := by
  simp only [noiseNormal, asr, toNat_top_field _ (show 32 = 16 + 16 from rfl), toNat_field, pow_zero,
    Nat.div_one, pow_one]

/-- A half of the sum of two 16-bit numbers, recentred, is an s16 (R92). -/
theorem noiseNormal_range (x : Word) : -32768 ≤ (noiseNormal x).2 ∧ (noiseNormal x).2 ≤ 32767 := by
  have hdraw := (noiseNext x).isLt
  rw [noiseNormal_value]
  omega

/-- Settles O31: each shift as arithmetic, the nonzero generator, and the two draws of `noise_normal`. -/
theorem noiseNextIsXorshift : Obligations.NoiseNextIsXorshift := by
  refine ⟨fun x => ?_, fun x => noiseNext_ne_zero, by decide,
    fun x => ⟨rfl, noiseNormal_value x, noiseNormal_range x⟩⟩
  simp only [noiseNext, toNat_xor_shiftLeft, toNat_xor_shiftRight]

/-! ## Sawtooth, triangle, square (R97 to R99) -/

theorem saw_eq (p : Word) : saw p = ((p.toNat / 2 ^ 16 : Nat) : Int) - 32768 := by
  rw [saw, toNat_top_field p rfl]

/-- The top bit of the phase tells the half cycle (R98). -/
theorem second_half_iff (p : Word) : p.getLsbD 31 = true ↔ 2 ^ 31 ≤ p.toNat :=
  (Bool.eq_iff_iff.mp (BitVec.msb_eq_decide p)).trans decide_eq_true_iff

theorem tri_of_first_half {p : Word} (h : p.toNat < 2 ^ 31) :
    tri p = ((p.toNat / 2 ^ 15 : Nat) : Int) - 32768 := by
  rw [tri, if_neg (mt (second_half_iff p).mp (not_le.mpr h)), toNat_field]
  omega

theorem tri_of_second_half {p : Word} (h : 2 ^ 31 ≤ p.toNat) :
    tri p = 32767 - (((p.toNat - 2 ^ 31) / 2 ^ 15 : Nat) : Int) := by
  have hp := p.isLt
  rw [tri, if_pos ((second_half_iff p).mpr h), toNat_field]
  omega

theorem square_eq (p : Word) (pw : Half) :
    square p pw = if p.toNat / 2 ^ 16 < pw.toNat then 32767 else -32768 := by
  rw [square, toNat_top_field p rfl]

/-- Settles O32: each kind's formula, the triangle's by half cycle. -/
theorem rampAndPulseFormulas : Obligations.RampAndPulseFormulas :=
  fun p pw => ⟨saw_eq p, tri_of_first_half, tri_of_second_half, square_eq p pw⟩

/-! ## Sine (R101, R103) -/

theorem sine_eq (p : Word) : sine p = sineTable.getD (p.toNat / 2 ^ 24) 0 := by
  rw [sine, toNat_top_field p rfl]

theorem sineTable_length : sineTable.length = 256 := by
  simp only [sineTable, List.length_append, List.length_cons, List.length_nil]

/-- What holds of each place in the sixteen rows of the table holds of every index. -/
theorem forall_index_of_rows {P : Nat → Prop} (h : ∀ r < 16, ∀ c < 16, P (16 * r + c)) :
    ∀ i < 256, P i := by
  intro i hi
  have hrow := h (i / 16) (by omega) (i % 16) (by omega)
  rwa [Nat.div_add_mod] at hrow

/-- The second half of the table is the first negated. -/
theorem sineTable_half_cycle :
    ∀ i < 256, sineTable.getD ((i + 128) % 256) 0 = -sineTable.getD i 0 :=
  forall_index_of_rows (by decide)

/-- The first half of the table mirrors about its quarter. -/
theorem sineTable_mirror : ∀ i ≤ 64, sineTable.getD (64 - i) 0 = sineTable.getD (64 + i) 0 := by decide

theorem sineTable_range : ∀ i < 256, -32767 ≤ sineTable.getD i 0 ∧ sineTable.getD i 0 ≤ 32767 :=
  forall_index_of_rows (by decide)

theorem sine_index_lt (p : Word) : p.toNat / 2 ^ 24 < 256 := by
  have hp := p.isLt
  omega

/-- Half a cycle moves the table index by half the table. -/
theorem sine_index_half_cycle (p : Word) :
    (p + 0x80000000).toNat / 2 ^ 24 = (p.toNat / 2 ^ 24 + 128) % 256 := by
  have hhalf : (0x80000000 : Word).toNat = 2 ^ 31 := rfl
  rw [BitVec.toNat_add, hhalf]
  omega

theorem sine_half_cycle (p : Word) : sine (p + 0x80000000) = -sine p := by
  rw [sine_eq, sine_eq, sine_index_half_cycle]
  exact sineTable_half_cycle _ (sine_index_lt p)

theorem sine_range (p : Word) : -32767 ≤ sine p ∧ sine p ≤ 32767 := by
  rw [sine_eq]
  exact sineTable_range _ (sine_index_lt p)

/-- Settles O33: the table's symmetries, carried to every phase by its table index. -/
theorem sineIsSymmetric : Obligations.SineIsSymmetric :=
  ⟨sineTable_length, sine_half_cycle, sineTable_mirror, sine_range, by decide, by decide⟩

/-! ## The noise kind (R100) -/

theorem noiseKind_of_clear {x : Voice} (hw : x.wave.getLsbD 0 = false) (wrap : Bool) (m : Mix) :
    noiseKind wrap x m = (x, m, 0) := by
  simp only [noiseKind, hw, Bool.false_eq_true, if_false]

theorem noiseKind_of_hold {x : Voice} (hw : x.wave.getLsbD 0 = true) (m : Mix) :
    noiseKind false x m = (x, m, x.noiseSample.toInt) := by
  simp only [noiseKind, hw, if_true, Bool.false_eq_true, if_false, tc16]

theorem noiseKind_of_wrap {x : Voice} (hw : x.wave.getLsbD 0 = true) (m : Mix) :
    noiseKind true x m =
      ({ x with noiseSample := BitVec.ofNat 16 ((noiseNext m.noise).toNat / 2 ^ 16) },
        { m with noise := noiseNext m.noise },
        (BitVec.ofNat 16 ((noiseNext m.noise).toNat / 2 ^ 16)).toInt) := by
  simp only [noiseKind, hw, if_true, tc16, field_eq_ofNat, Voice.withNoiseSample]

/-- Settles O34, case by case. -/
theorem noiseKindDrawsOnlyOnAWrap : Obligations.NoiseKindDrawsOnlyOnAWrap := fun _ m =>
  ⟨fun hw => ⟨noiseKind_of_wrap hw m, noiseKind_of_hold hw m⟩, fun hw wrap => noiseKind_of_clear hw wrap m⟩

/-! ## The buffer kind (R102) -/

section

variable {p : Params} {x : Voice}

theorem arbReady_of_ne (hrd : x.arbRd.toNat ≠ p.arbLen) (v : Nat) (m : Mix) :
    arbReady p v x m = (x, m) := by
  rw [arbReady, arbExhausted, decide_eq_false hrd, if_neg Bool.false_ne_true]

theorem arbReady_of_exhausted (hrd : x.arbRd.toNat = p.arbLen) (v : Nat) (m : Mix) :
    arbReady p v x m = refillBuffer p v x m := by
  rw [arbReady, arbExhausted, decide_eq_true hrd, if_pos rfl]

theorem arbKind_of_clear (hw : x.wave.getLsbD 5 = false) (v : Nat) (m : Mix) :
    arbKind p v x m = (x, m, 0) := by
  simp only [arbKind, hw, Bool.false_eq_true, if_false]

/-- With samples left, the one at ARB_RD is consumed. -/
theorem arbKind_of_ready (hw : x.wave.getLsbD 5 = true) (hrd : x.arbRd.toNat < p.arbLen) (v : Nat)
    (m : Mix) :
    arbKind p v x m =
      ({ x with arbRd := x.arbRd + 1 }, m, (Memory.read x.arb x.arbRd.toNat).toInt) := by
  rw [arbKind, if_pos hw, arbReady_of_ne hrd.ne]
  rfl

/-- With none left, the buffer is filled with the host's answer and its first element is consumed. -/
theorem arbKind_of_exhausted (hw : x.wave.getLsbD 5 = true) (hrd : x.arbRd.toNat = p.arbLen) (v : Nat)
    (m : Mix) :
    arbKind p v x m =
      ({ x with arb := Memory.fill x.arb (refillAnswer v m) p.arbLen, arbRd := 1 },
        { m with refills := m.refills.tail, refillCount := m.refillCount + 1
                 events := m.events ++ [.refill v] },
        (Memory.read (Memory.fill x.arb (refillAnswer v m) p.arbLen) 0).toInt) := by
  rw [arbKind, if_pos hw, arbReady_of_exhausted hrd]
  rfl

end

/-- Where the host's answer reaches, the refill takes its elements. -/
theorem refillAnswer_of_lt {m : Mix} {answer : List Half} {rest : List (List Half)}
    (hm : m.refills = answer :: rest) {i : Nat} (hi : i < answer.length) (v : Nat) :
    refillAnswer v m i = answer.getD i 0 := by
  simp only [refillAnswer, hm, List.head?_cons, List.getD_eq_getElem _ _ hi]

/-- What a buffer reads as after a refill from an answer of ARB_LEN samples (R102). -/
theorem read_refilled {m : Mix} {answer : List Half} {rest : List (List Half)} {arb : Memory}
    (hwf : Memory.wf arb) (hm : m.refills = answer :: rest) (v i : Nat) :
    Memory.read (Memory.fill arb (refillAnswer v m) answer.length) i =
      if i < answer.length then answer.getD i 0 else Memory.read arb i := by
  rw [Memory.read_fill _ hwf]
  split
  · next hi => exact refillAnswer_of_lt hm hi v
  · rfl

/-- Settles O35: with samples left and with none, where what the filled buffer reads as is the answer. -/
theorem arbNextConsumesOneSample : Obligations.ArbNextConsumesOneSample := by
  intro p v x m ⟨_, _, hpos, _⟩ hw hwf
  refine ⟨fun hrd => arbKind_of_ready hw hrd v m, fun answer rest hrd hm hlen => ?_⟩
  have hread := read_refilled hwf hm v
  rw [hlen] at hread
  refine ⟨_, ?_, hread⟩
  rw [arbKind_of_exhausted hw hrd, hread, if_pos (Nat.lt_of_succ_le hpos), hm, List.tail_cons]

/-! ## The mean of the set kinds (R101, R109) -/

/-- A kind's output if its bit is set. -/
def ifSet (set : Bool) (output : Int) : List Int := if set then [output] else []

theorem sum_ifSet (set : Bool) (output : Int) :
    (ifSet set output).sum = if set then output else 0 := by
  cases set
  · rfl
  · exact List.sum_singleton

theorem length_ifSet (set : Bool) (output : Int) : (ifSet set output).length = set.toNat := by
  cases set <;> rfl

theorem mem_ifSet {set : Bool} {output y : Int} (h : y ∈ ifSet set output) : y = output := by
  cases set
  · cases h
  · exact List.mem_singleton.mp h

/-- The outputs of the set kinds of voice `x`, where NOISE gives `noise` and ARB gives `arb`. -/
def kindOutputs (x : Voice) (noise arb : Int) : List Int :=
  ifSet (x.wave.getLsbD 0) noise ++ ifSet (x.wave.getLsbD 1) (saw x.phase) ++
    ifSet (x.wave.getLsbD 2) (tri x.phase) ++ ifSet (x.wave.getLsbD 3) (square x.phase x.pw) ++
    ifSet (x.wave.getLsbD 4) (sine x.phase) ++ ifSet (x.wave.getLsbD 5) arb

/-- The outputs of the set kinds in one `voice_raw`: NOISE first, and ARB on what NOISE left. -/
def rawOutputs (p : Params) (v : Nat) (wrap : Bool) (x : Voice) (m : Mix) : List Int :=
  let n := noiseKind wrap x m
  kindOutputs x n.2.2 (arbKind p v n.1 n.2.1).2.2

theorem length_kindOutputs (x : Voice) (noise arb : Int) :
    (kindOutputs x noise arb).length = kindCount x.wave := by
  simp only [kindOutputs, List.length_append, length_ifSet, kindCount]

theorem sum_kindOutputs (x : Voice) (noise arb : Int) :
    (kindOutputs x noise arb).sum =
      (if x.wave.getLsbD 0 then noise else 0) + pureKindsSum x +
        (if x.wave.getLsbD 5 then arb else 0) := by
  simp only [kindOutputs, List.sum_append, sum_ifSet, pureKindsSum]
  omega

/-- A noise kind that is not set gives 0. -/
theorem noiseKind_output_ifSet (wrap : Bool) (x : Voice) (m : Mix) :
    (if x.wave.getLsbD 0 then (noiseKind wrap x m).2.2 else 0) = (noiseKind wrap x m).2.2 := by
  cases hw : x.wave.getLsbD 0
  · rw [noiseKind_of_clear hw]; rfl
  · rfl

/-- A buffer kind that is not set gives 0. -/
theorem arbKind_output_ifSet (p : Params) (v : Nat) (x : Voice) (m : Mix) :
    (if x.wave.getLsbD 5 then (arbKind p v x m).2.2 else 0) = (arbKind p v x m).2.2 := by
  cases hw : x.wave.getLsbD 5
  · rw [arbKind_of_clear hw]; rfl
  · rfl

theorem sum_rawOutputs (p : Params) (v : Nat) (wrap : Bool) (x : Voice) (m : Mix) :
    (rawOutputs p v wrap x m).sum =
      (noiseKind wrap x m).2.2 + pureKindsSum x +
        (arbKind p v (noiseKind wrap x m).1 (noiseKind wrap x m).2.1).2.2 := by
  have harb := arbKind_output_ifSet p v (noiseKind wrap x m).1 (noiseKind wrap x m).2.1
  rw [noiseKind_wave] at harb
  rw [rawOutputs, sum_kindOutputs, noiseKind_output_ifSet, harb]

/-- The mean of a list of outputs (R101). -/
theorem meanOf_sum_length (outputs : List Int) :
    meanOf outputs.sum outputs.length =
      if outputs = [] then 0 else outputs.sum.tdiv (outputs.length : Int) := by
  simp only [meanOf, quot, List.length_eq_zero_iff]

/-- `voice_raw` by the list of the set kinds' outputs (R101). -/
theorem voiceRaw_sample (p : Params) (v : Nat) (wrap : Bool) (x : Voice) (m : Mix) :
    (voiceRaw p v wrap x m).2.2 =
      meanOf (rawOutputs p v wrap x m).sum (rawOutputs p v wrap x m).length := by
  rw [sum_rawOutputs, rawOutputs, length_kindOutputs]
  rfl

/-- Settles O36: the voice and the shared state by definition, the sample as the mean of the outputs. -/
theorem rawSampleIsTheMeanOfTheSetKinds : Obligations.RawSampleIsTheMeanOfTheSetKinds := by
  intro p v wrap x m n a outputs
  have houtputs : rawOutputs p v wrap x m = outputs := by
    simp only [rawOutputs, kindOutputs, sine_eq, ifSet, outputs, n, a]
  refine Prod.ext rfl (Prod.ext rfl ?_)
  rw [voiceRaw_sample, meanOf_sum_length, houtputs]

/-- The output is an s16. -/
def isS16 (y : Int) : Prop := -32768 ≤ y ∧ y ≤ 32767

theorem isS16_toInt (h : Half) : isS16 h.toInt :=
  ⟨BitVec.le_toInt h, Int.le_of_lt_add_one (BitVec.toInt_lt (x := h))⟩

theorem isS16_zero : isS16 0 := by unfold isS16; omega

theorem isS16_saw (p : Word) : isS16 (saw p) := by
  have hp := p.isLt
  rw [saw_eq, isS16]
  omega

theorem isS16_tri (p : Word) : isS16 (tri p) := by
  have hp := p.isLt
  rcases lt_or_ge p.toNat (2 ^ 31) with h | h
  · rw [tri_of_first_half h, isS16]
    omega
  · rw [tri_of_second_half h, isS16]
    omega

theorem isS16_square (p : Word) (pw : Half) : isS16 (square p pw) := by
  rw [square_eq, isS16]
  split <;> omega

theorem isS16_sine (p : Word) : isS16 (sine p) := by
  have hp := sine_range p
  rw [isS16]
  omega

theorem isS16_noiseKind (wrap : Bool) (x : Voice) (m : Mix) : isS16 (noiseKind wrap x m).2.2 := by
  cases hw : x.wave.getLsbD 0 with
  | false => rw [noiseKind_of_clear hw]; exact isS16_zero
  | true =>
    cases wrap with
    | false => rw [noiseKind_of_hold hw]; exact isS16_toInt _
    | true => rw [noiseKind_of_wrap hw]; exact isS16_toInt _

theorem isS16_arbKind (p : Params) (v : Nat) (x : Voice) (m : Mix) : isS16 (arbKind p v x m).2.2 := by
  rcases arbKind_cases p v x m with ⟨-, h⟩ | ⟨-, -, -, -, h⟩ | ⟨-, -, -, -, h⟩ <;> rw [h]
  · exact isS16_zero
  · exact isS16_toInt _
  · exact isS16_toInt _

theorem isS16_rawOutputs (p : Params) (v : Nat) (wrap : Bool) (x : Voice) (m : Mix) :
    ∀ y ∈ rawOutputs p v wrap x m, isS16 y := by
  intro y hy
  simp only [rawOutputs, kindOutputs, List.mem_append, or_assoc] at hy
  rcases hy with h | h | h | h | h | h <;> rw [mem_ifSet h]
  · exact isS16_noiseKind wrap x m
  · exact isS16_saw _
  · exact isS16_tri _
  · exact isS16_square _ _
  · exact isS16_sine _
  · exact isS16_arbKind p v _ _

/-- The mean of s16 values is an s16: their sum lies between their number's multiples of the bounds. -/
theorem isS16_meanOf {outputs : List Int} (h : ∀ y ∈ outputs, isS16 y) :
    isS16 (meanOf outputs.sum outputs.length) := by
  rw [meanOf_sum_length]
  split
  · exact isS16_zero
  · next hne =>
    have hpos : (0 : Int) < outputs.length := Int.natCast_pos.mpr (List.length_pos_iff.mpr hne)
    have hlo := outputs.card_nsmul_le_sum (-32768) fun y hy => (h y hy).1
    have hhi := outputs.sum_le_card_nsmul 32767 fun y hy => (h y hy).2
    rw [nsmul_eq_mul] at hlo hhi
    have hmeanlo := Int.tdiv_le_tdiv hpos hlo
    have hmeanhi := Int.tdiv_le_tdiv hpos hhi
    rw [Int.mul_tdiv_cancel_left _ hpos.ne'] at hmeanlo hmeanhi
    exact ⟨hmeanlo, hmeanhi⟩

/-- Settles O37: each set kind's output is an s16, and so is their mean. -/
theorem rawSampleFitsSixteenBits : Obligations.RawSampleFitsSixteenBits := by
  intro p v wrap x m
  rw [voiceRaw_sample]
  exact isS16_meanOf (isS16_rawOutputs p v wrap x m)

end Sys2Proof.Machine
end

section
/-! PROOFS. The oscillator commands (spec/41_oscillator.md R104 to R108): the row each opcode decodes by, and
what each command writes, answers and leaves alone. -/

namespace Sys2Proof.Machine

open Sys2Proof.Claim

/-! ## Commands on one voice (R69, R164) -/

theorem voiceOk_of_lt {v : Byte} {s : State} (hv : v.toNat < s.g.nva.toNat) : voiceOk s v = true :=
  decide_eq_true hv

theorem voiceOk_of_le {v : Byte} {s : State} (hv : s.g.nva.toNat ≤ v.toNat) : voiceOk s v = false :=
  decide_eq_false (not_lt.mpr hv)

/-- A command that runs as a change of one voice is a voice setter (R69). -/
theorem voiceSetter_of_voiceCommand {i : Byte → Instr} {f : State → Voice → Voice}
    (h : ∀ v s, exec (i v) s = voiceCommand v (f s) s) : voiceSetter i f := by
  intro v s
  rw [h]
  exact ⟨fun hv => rejectIf_eq_of_ok (congrArg not (voiceOk_of_lt hv)) rfl,
    fun hv => rejectIf_eq_rejected (congrArg not (voiceOk_of_le hv))⟩

/-! ## SET_WAVE, SET_FREQ, SET_PW (R104 to R106) -/

/-- A value is below `2 ^ k` exactly if its bits from `k` up are 0. -/
theorem high_eq_zero_iff {n : Nat} (x : BitVec n) {k len : Nat} (h : n = k + len) :
    x.extractLsb' k len = 0 ↔ x.toNat < 2 ^ k := by
  rw [BitVec.toNat_eq, toNat_top_field x h]
  exact Nat.div_eq_zero_iff_lt (Nat.two_pow_pos k)

/-- SET_WAVE's reserved bits, IMM[15:6], are 0 exactly if IMM is a mask of six bits. -/
theorem setWaveReserved_eq_zero_iff (imm : Half) : imm.extractLsb' 6 10 = 0#10 ↔ imm.toNat < 64 :=
  high_eq_zero_iff imm rfl

theorem encodes_setWave : encodes 0x10 (fun _ imm arg => imm.extractLsb' 6 10 == 0 && arg == 0)
    (fun vf imm _ => .setWave vf (BitVec.ofNat 6 imm.toNat)) := by
  intro cmd arg hop
  rw [decode, hop]
  rfl

theorem encodes_setFreq : encodes 0x11 (fun _ _ arg => arg == 0) (fun vf imm _ => .setFreq vf imm) := by
  intro cmd arg hop
  rw [decode, hop]
  rfl

theorem encodes_setPw : encodes 0x12 (fun _ _ arg => arg == 0) (fun vf imm _ => .setPw vf imm) := by
  intro cmd arg hop
  rw [decode, hop]
  rfl

theorem encodes_arbWrite : encodes 0x13 (fun _ _ _ => true) (fun vf imm arg => .arbWrite vf imm arg) := by
  intro cmd arg hop
  rw [decode, hop]
  rfl

theorem encodes_arbRead : encodes 0x14 (fun _ imm _ => imm == 0) (fun vf _ arg => .arbRead vf arg) := by
  intro cmd arg hop
  rw [decode, hop]
  rfl

/-- Settles O20: SET_WAVE's row, and WAVE as its only write. -/
theorem setWaveWritesTheMask : Obligations.SetWaveWritesTheMask :=
  ⟨encodes_congr encodes_setWave fun _ imm _ => by simp [setWaveReserved_eq_zero_iff imm],
    fun _ => voiceSetter_of_voiceCommand fun _ _ => rfl⟩

/-- Settles O21: the two rows, and each command's register as its only write. -/
theorem setFreqAndSetPwWriteTheirRegisters : Obligations.SetFreqAndSetPwWriteTheirRegisters :=
  ⟨encodes_congr encodes_setFreq (by simp), encodes_congr encodes_setPw (by simp),
    fun _ => voiceSetter_of_voiceCommand fun _ _ => rfl,
    fun _ => voiceSetter_of_voiceCommand fun _ _ => rfl⟩

/-! ## ARB_WRITE and ARB_READ (R107, R108) -/

/-- Two changes of slot `v` that agree on what it holds are the same. -/
theorem modify_congr_of_getElem? {xs : List Voice} {v : Nat} {y : Voice} {f g : Voice → Voice}
    (hy : xs[v]? = some y) (hfg : f y = g y) : xs.modify v f = xs.modify v g := by
  refine List.ext_getElem? fun i => ?_
  rw [List.getElem?_modify, List.getElem?_modify]
  by_cases hi : v = i
  · rw [← hi, hy]
    simp [hfg]
  · simp [hi]

section

variable {v : Byte} {i : Word} {s : State}

theorem rejectIf_inactive (hv : s.g.nva.toNat ≤ v.toNat) (k : Result) :
    rejectIf (!voiceOk s v) .badVoice s k = .next (rejected .badVoice s) :=
  rejectIf_eq_rejected (congrArg not (voiceOk_of_le hv))

/-- ARB_WRITE's two checks, and the write to the slot's own buffer (R107). -/
theorem exec_arbWrite_of_ok {y : Voice} (hv : v.toNat < s.g.nva.toNat) (hi : i.toNat < s.params.arbLen)
    (hy : s.voices[v.toNat]? = some y) (x : Half) :
    exec (.arbWrite v x i) s = .next (setSlot v.toNat
      (fun z => { z with arb := Memory.write y.arb i.toNat x }) (answering 0 s)) := by
  refine rejectIf_eq_of_ok (congrArg not (voiceOk_of_lt hv))
    (rejectIf_eq_of_ok (decide_eq_false (not_le.mpr hi)) ?_)
  exact congrArg (fun xs => Host.Outcome.next ((answering 0 s).withVoices xs))
    (modify_congr_of_getElem? hy rfl)

/-- ARB_READ's two checks, and the element of the slot's own buffer (R108). -/
theorem exec_arbRead_of_ok {y : Voice} (hv : v.toNat < s.g.nva.toNat) (hi : i.toNat < s.params.arbLen)
    (hy : s.voices[v.toNat]? = some y) :
    exec (.arbRead v i) s =
      .next (answering (BitVec.ofInt 32 (Memory.read y.arb i.toNat).toInt) s) := by
  refine rejectIf_eq_of_ok (congrArg not (voiceOk_of_lt hv))
    (rejectIf_eq_of_ok (decide_eq_false (not_le.mpr hi)) ?_)
  rw [voice_of_getElem? hy, sext32_eq_ofInt, begin_respond_eq_answering]

/-- An index past the end of the buffer is BAD_VALUE, once the voice is known to be active (R165). -/
theorem checks_eq_badValue (hv : v.toNat < s.g.nva.toNat) (hi : s.params.arbLen ≤ i.toNat) (k : Result) :
    rejectIf (!voiceOk s v) .badVoice s (rejectIf (arbIndexBad i s) .badValue s k) =
      .next (rejected .badValue s) :=
  rejectIf_eq_of_ok (congrArg not (voiceOk_of_lt hv)) (rejectIf_eq_rejected (decide_eq_true hi))

end

/-- Settles O27: ARB_WRITE's row, the new buffer read at every index, and the two rejections. -/
theorem arbWriteStoresOneElement : Obligations.ArbWriteStoresOneElement :=
  ⟨encodes_arbWrite,
    fun _ x i _ y hv hi hy hwf =>
      ⟨Memory.write y.arb i.toNat x, exec_arbWrite_of_ok hv hi hy x, Memory.wf_write hwf _ _,
        Memory.read_write y.arb hwf i.toNat x⟩,
    fun _ _ _ _ hv => rejectIf_inactive hv _, fun _ _ _ _ hv hi => checks_eq_badValue hv hi _⟩

/-- Settles O28: ARB_READ's row, the element returned, and the two rejections. -/
theorem arbReadReturnsOneElement : Obligations.ArbReadReturnsOneElement :=
  ⟨encodes_congr encodes_arbRead (by simp), fun _ _ _ _ hv hi hy => exec_arbRead_of_ok hv hi hy,
    fun _ _ _ hv => rejectIf_inactive hv _, fun _ _ _ hv hi => checks_eq_badValue hv hi _⟩

end Sys2Proof.Machine
end

section
/-! PROOFS. The envelope (spec/42_envelope.md): the row each command decodes by and what it writes (R118 to
R125), one tick by cases (R127), and the course of a phase from its entry to its last frame, from which the
timelines of R128 and R130 follow. -/

namespace Sys2Proof.Machine

open Sys2Proof.Claim

/-! ## The commands (R118 to R125) -/

theorem encodes_setAttack : encodes 0x20 (fun _ _ arg => arg == 0)
    (fun vf imm _ => .setAttack vf imm) := by
  intro cmd arg hop
  rw [decode, hop]
  rfl

theorem encodes_setDecay : encodes 0x21 (fun _ _ arg => arg == 0) (fun vf imm _ => .setDecay vf imm) := by
  intro cmd arg hop
  rw [decode, hop]
  rfl

theorem encodes_setSustain : encodes 0x22 (fun _ _ arg => arg == 0)
    (fun vf imm _ => .setSustain vf imm) := by
  intro cmd arg hop
  rw [decode, hop]
  rfl

theorem encodes_setRelease : encodes 0x23 (fun _ _ arg => arg == 0)
    (fun vf imm _ => .setRelease vf imm) := by
  intro cmd arg hop
  rw [decode, hop]
  rfl

theorem encodes_trigAttack : encodes 0x24 (fun _ imm arg => imm == 0 && arg == 0)
    (fun vf _ _ => .trigAttack vf) := by
  intro cmd arg hop
  rw [decode, hop]
  rfl

theorem encodes_trigRelease : encodes 0x25 (fun _ imm arg => imm == 0 && arg == 0)
    (fun vf _ _ => .trigRelease vf) := by
  intro cmd arg hop
  rw [decode, hop]
  rfl

/-- Settles O22: the three rows, and each command's register as its only write. -/
theorem durationCommandsWriteTheirRegisters : Obligations.DurationCommandsWriteTheirRegisters :=
  ⟨encodes_congr encodes_setAttack (by simp), encodes_congr encodes_setDecay (by simp),
    encodes_congr encodes_setRelease (by simp),
    fun _ => ⟨voiceSetter_of_voiceCommand fun _ _ => rfl, voiceSetter_of_voiceCommand fun _ _ => rfl,
      voiceSetter_of_voiceCommand fun _ _ => rfl⟩⟩

/-- Settles O23: SET_SUSTAIN's row, and the clamped level as its only write. -/
theorem setSustainClampsToFullScale : Obligations.SetSustainClampsToFullScale :=
  ⟨encodes_congr encodes_setSustain (by simp), fun _ => voiceSetter_of_voiceCommand fun _ _ => rfl⟩

/-- The machine's trigger_attack is the record R122 writes out. -/
theorem triggerAttack_eq_attacked (sr : BitVec 20) : triggerAttack sr = attacked sr := rfl

/-- The machine's trigger_release is the record R124 writes out. -/
theorem triggerRelease_eq_released (sr : BitVec 20) : triggerRelease sr = released sr := rfl

/-- Settles O25: TRIG_ATTACK's row, and the entry into ATTACK as its only write. -/
theorem trigAttackEntersAttack : Obligations.TrigAttackEntersAttack :=
  ⟨encodes_congr encodes_trigAttack (by simp), voiceSetter_of_voiceCommand fun v s =>
    congrArg (fun f => voiceCommand v f s) (triggerAttack_eq_attacked s.g.sr)⟩

/-- Settles O26: TRIG_RELEASE's row, and the entry into RELEASE as its only write. -/
theorem trigReleaseEntersRelease : Obligations.TrigReleaseEntersRelease :=
  ⟨encodes_congr encodes_trigRelease (by simp), voiceSetter_of_voiceCommand fun v s =>
    congrArg (fun f => voiceCommand v f s) (triggerRelease_eq_released s.g.sr)⟩

/-! ## One tick (R127) -/

section

variable {sr : BitVec 20} {st : Timed} {x : Voice}

theorem envTick_of_sustain (hst : x.envState = .sustain) : envTick sr x = envAdvance x := by
  simp only [envTick, hst]

theorem envTick_of_timed (hst : x.envState = timedState st) :
    envTick sr x = checkTarget sr st (envAdvance x) := by
  cases st <;> simp only [envTick, hst, timedState]

/-- Before its last frame a timed phase only advances. -/
theorem envTick_before_target (hst : x.envState = timedState st) (hne : x.envElapsed + 1 ≠ x.envTarget) :
    envTick sr x = envAdvance x := by
  rw [envTick_of_timed hst, checkTarget, envAdvance_envElapsed, envAdvance_envTarget, if_neg hne]

/-- At its last frame a timed phase completes. -/
theorem envTick_at_target (hst : x.envState = timedState st) (heq : x.envElapsed + 1 = x.envTarget) :
    envTick sr x = complete sr st (envAdvance x) := by
  rw [envTick_of_timed hst, checkTarget, envAdvance_envElapsed, envAdvance_envTarget, if_pos heq]

theorem envAdvance_withSustain (x : Voice) (lvl : BitVec 9) :
    envAdvance (x.withSustain lvl) = (envAdvance x).withSustain lvl := rfl

/-- DECAY lands on the level it was entered with, so SUSTAIN is not read there (R117, log 5). -/
theorem complete_decay_withSustain (sr : BitVec 20) (x : Voice) (lvl : BitVec 9) :
    complete sr .decay (x.withSustain lvl) = (complete sr .decay x).withSustain lvl := rfl

/-- In DECAY and in SUSTAIN a tick does not read SUSTAIN (R117, R187). -/
theorem envTick_withSustain (hst : x.envState = .decay ∨ x.envState = .sustain) (lvl : BitVec 9) :
    envTick sr (x.withSustain lvl) = (envTick sr x).withSustain lvl := by
  rcases hst with hst | hst
  · by_cases heq : x.envElapsed + 1 = x.envTarget
    · rw [envTick_at_target (st := .decay) hst heq, ← complete_decay_withSustain]
      exact envTick_at_target (st := .decay) hst heq
    · rw [envTick_before_target (st := .decay) hst heq]
      exact envTick_before_target (st := .decay) hst heq
  · rw [envTick_of_sustain hst]
    exact envTick_of_sustain hst

end

/-- DECAY's entry after a frame is the record R122 writes out, whatever the value it starts from, with SUSTAIN
read (R117, log 5). -/
theorem enter_decay_envAdvance (sr : BitVec 20) (x : Voice) (value : BitVec 31) :
    enter sr .decay x.decay ((envAdvance x).withValue value) =
      { entered .decay (x.sustain.toNat * 2 ^ 22) x.decay sr { x with envValue := value } with
        decayLevel := x.sustain } := by
  simp only [enter, envAdvance, Voice.withValue, Voice.withElapsed, Voice.withPhaseEntry,
    Voice.withDecayLevel, timedState, entered, if_true]
  rfl

/-- SUSTAIN or OFF begins after a frame with every count and the step at 0, at any value (R127). -/
theorem settle_envAdvance (st : EnvState) (x : Voice) (value : BitVec 31) :
    settle st ((envAdvance x).withValue value) =
      { x with envState := st, envValue := value, envStep := 0, envElapsed := 0, envTarget := 0 } := by
  simp only [settle, envAdvance, Voice.withValue, Voice.withElapsed, Voice.withPhaseEntry]

/-- What ATTACK's last frame leaves: DECAY entered from full scale (R127). -/
theorem complete_attack_envAdvance (sr : BitVec 20) (x : Voice) :
    complete sr .attack (envAdvance x) =
      { entered .decay (x.sustain.toNat * 2 ^ 22) x.decay sr
          { x with envValue := BitVec.ofNat 31 (2 ^ 30) } with decayLevel := x.sustain } :=
  enter_decay_envAdvance sr x (BitVec.ofNat 31 (2 ^ 30))

/-- What DECAY's last frame leaves: SUSTAIN at the level read when DECAY was entered (R127, log 5). -/
theorem complete_decay_envAdvance (sr : BitVec 20) (x : Voice) :
    complete sr .decay (envAdvance x) =
      { x with
        envState := .sustain, envValue := BitVec.ofNat 31 (x.decayLevel.toNat * 2 ^ 22)
        envStep := 0, envElapsed := 0, envTarget := 0 } := by
  rw [complete, settle_envAdvance, decayLanding_eq, envAdvance_decayLevel, sustainLevel]

/-- What RELEASE's last frame leaves: OFF at 0 (R127). -/
theorem complete_release_envAdvance (sr : BitVec 20) (x : Voice) :
    complete sr .release (envAdvance x) =
      { x with envState := .off, envValue := 0, envStep := 0, envElapsed := 0, envTarget := 0 } :=
  settle_envAdvance .off x 0

/-- Settles O38: the tick's cases, each phase's completion written out. -/
theorem envTickAdvancesOneFrame : Obligations.EnvTickAdvancesOneFrame := by
  intro sr x
  refine ⟨envTick_of_sustain, ?_,
    fun hst heq => (envTick_at_target (st := .attack) hst heq).trans (complete_attack_envAdvance sr x),
    fun hst heq => (envTick_at_target (st := .decay) hst heq).trans (complete_decay_envAdvance sr x),
    fun hst heq => (envTick_at_target (st := .release) hst heq).trans (complete_release_envAdvance sr x),
    envTick_withSustain⟩
  rintro (hst | hst | hst) hne
  · exact envTick_before_target (st := .attack) hst hne
  · exact envTick_before_target (st := .decay) hst hne
  · exact envTick_before_target (st := .release) hst hne

/-! ## Frames without a completion -/

/-- The voice `k` frames on at its present step. -/
def advanceBy (k : Nat) (x : Voice) : Voice :=
  (x.withValue (BitVec.ofInt 31 ((x.envValue.toNat : Int) + k * x.envStep.toInt))).withElapsed
    (x.envElapsed + BitVec.ofNat 32 k)

@[simp] theorem advanceBy_zero (x : Voice) : advanceBy 0 x = x := by
  simp [advanceBy, Voice.withValue, Voice.withElapsed]

@[simp] theorem advanceBy_sustain (k : Nat) (x : Voice) : (advanceBy k x).sustain = x.sustain := by
  simp only [advanceBy, Voice.withElapsed_sustain, Voice.withValue_sustain]

/-- Adding to a stored value wraps as its pattern does (R127). -/
theorem ofInt_toNat_add {w : Nat} (value : BitVec w) (z : Int) :
    BitVec.ofInt w ((value.toNat : Int) + z) = value + BitVec.ofInt w z := by
  rw [BitVec.ofInt_add, BitVec.ofInt_natCast, BitVec.ofNat_toNat, BitVec.setWidth_eq]

/-- `advanceBy` counts applications of the machine's own advance. -/
theorem envAdvance_advanceBy (k : Nat) (x : Voice) : envAdvance (advanceBy k x) = advanceBy (k + 1) x := by
  have hvalue : BitVec.ofInt 31 (((advanceBy k x).envValue.toNat : Int) + x.envStep.toInt) =
      BitVec.ofInt 31 ((x.envValue.toNat : Int) + (k + 1 : Nat) * x.envStep.toInt) := by
    rw [advanceBy, Voice.withElapsed_envValue, Voice.withValue_envValue, ofInt_toNat_add,
      ← BitVec.ofInt_add, Nat.cast_succ, add_one_mul, add_assoc]
  have helapsed : x.envElapsed + BitVec.ofNat 32 k + 1 = x.envElapsed + BitVec.ofNat 32 (k + 1) := by
    rw [BitVec.ofNat_add, ← BitVec.add_assoc]
    rfl
  exact congrArg₂ (fun value elapsed => (x.withValue value).withElapsed elapsed) hvalue helapsed

/-- Ticks that complete no phase are frames counted. -/
theorem envTick_iterate_eq_advanceBy {sr : BitVec 20} {x : Voice} {k : Nat}
    (h : ∀ j < k, envTick sr (advanceBy j x) = envAdvance (advanceBy j x)) :
    (envTick sr)^[k] x = advanceBy k x := by
  induction k with
  | zero => exact (advanceBy_zero x).symm
  | succ k ih =>
    rw [Function.iterate_succ_apply', ih fun j hj => h j (Nat.lt_succ_of_lt hj), h k k.lt_succ_self,
      envAdvance_advanceBy]

/-- SUSTAIN holds its value: the step there is 0 (R127). -/
theorem envTick_iterate_of_sustain {sr : BitVec 20} {x : Voice} (hst : x.envState = .sustain)
    (hstep : x.envStep = 0) (k : Nat) :
    ((envTick sr)^[k] x).envState = .sustain ∧ ((envTick sr)^[k] x).envValue = x.envValue := by
  rw [envTick_iterate_eq_advanceBy fun j _ => envTick_of_sustain hst]
  exact ⟨hst, by simp [advanceBy, hstep]⟩

/-! ## The course of one phase (R122, R127, R130) -/

section

variable {sr : BitVec 20} {st : Timed} {ms : Half} {x : Voice} {k : Nat}

/-- Within a phase the frame counter reads the target exactly at the last frame. -/
theorem elapsed_eq_target_iff (hk : k ≤ frames sr ms) :
    BitVec.ofNat 32 k = BitVec.ofNat 32 (frames sr ms) ↔ k = frames sr ms := by
  have hle := frames_le sr ms
  rw [BitVec.toNat_eq, frames_toNat, BitVec.toNat_ofNat, Nat.mod_eq_of_lt (by omega)]

theorem advanceBy_enter_elapsed_succ (k : Nat) :
    (advanceBy k (enter sr st ms x)).envElapsed + 1 = BitVec.ofNat 32 (k + 1) := by
  rw [← envAdvance_envElapsed, envAdvance_advanceBy]
  exact BitVec.zero_add _

/-- Before its last frame an entered phase has only advanced. -/
theorem envTick_iterate_enter (hk : k < frames sr ms) :
    (envTick sr)^[k] (enter sr st ms x) = advanceBy k (enter sr st ms x) := by
  refine envTick_iterate_eq_advanceBy fun j hj => envTick_before_target (enter_envState sr st ms x) ?_
  rw [advanceBy_enter_elapsed_succ]
  have hlt : j + 1 < frames sr ms := Nat.lt_of_le_of_lt hj hk
  exact fun h => hlt.ne ((elapsed_eq_target_iff hlt.le).mp h)

/-- At its last frame an entered phase completes, and not before. -/
theorem envTick_iterate_enter_frames :
    (envTick sr)^[frames sr ms] (enter sr st ms x) =
      complete sr st (advanceBy (frames sr ms) (enter sr st ms x)) := by
  obtain ⟨n, hn⟩ : ∃ n, frames sr ms = n + 1 := Nat.exists_eq_add_of_le' (frames_pos sr ms)
  have hlast : (advanceBy n (enter sr st ms x)).envElapsed + 1 =
      (advanceBy n (enter sr st ms x)).envTarget := by
    rw [advanceBy_enter_elapsed_succ, ← hn]
    exact (enter_envTarget sr st ms x).symm
  rw [hn, Function.iterate_succ_apply', envTick_iterate_enter (hn ▸ n.lt_succ_self), ← envAdvance_advanceBy]
  exact envTick_at_target (enter_envState sr st ms x) hlast

/-- A value within full scale is stored exactly (R36). -/
theorem ofInt_value_toNat {z : Int} (h0 : 0 ≤ z) (h1 : z ≤ envOne) :
    ((BitVec.ofInt 31 z).toNat : Int) = z := by
  lift z to Nat using h0
  rw [BitVec.ofInt_natCast, value_toNat z (by exact_mod_cast h1)]

/-- After each frame of a phase the value has moved by that many steps, and is in range (R130). -/
theorem advanceBy_enter_value (hv : x.envValue.toNat ≤ envOne) (hl : level x st ≤ envOne)
    (hk : k ≤ frames sr ms) :
    ((advanceBy k (enter sr st ms x)).envValue.toNat : Int) =
      x.envValue.toNat + k * stepOf (level x st) x.envValue.toNat (frames sr ms) := by
  obtain ⟨hlow, hhigh, hstep⟩ :=
    stepOf_bounds (level x st) x.envValue.toNat (frames sr ms) (frames_pos sr ms) hl hv
  have hvalue : (advanceBy k (enter sr st ms x)).envValue = BitVec.ofInt 31
      ((x.envValue.toNat : Int) + k * stepOf (level x st) x.envValue.toNat (frames sr ms)) := by
    rw [advanceBy, Voice.withElapsed_envValue, Voice.withValue_envValue, enter_envStep, enter_envValue,
      step_toInt _ hstep]
  rw [hvalue]
  generalize stepOf (level x st) x.envValue.toNat (frames sr ms) = step at *
  have hk' : (k : Int) ≤ frames sr ms := by exact_mod_cast hk
  have hv' : (x.envValue.toNat : Int) ≤ envOne := by exact_mod_cast hv
  rw [mul_comm (k : Int) step]
  rcases le_total 0 step with hpos | hneg
  · have hup : step * k ≤ step * frames sr ms := mul_le_mul_of_nonneg_left hk' hpos
    exact ofInt_value_toNat (by positivity) (by linarith)
  · have hdown : step * frames sr ms ≤ step * k := mul_le_mul_of_nonpos_left hk' hneg
    have hnonpos : step * k ≤ 0 := mul_nonpos_of_nonpos_of_nonneg hneg k.cast_nonneg
    exact ofInt_value_toNat (by linarith) (by linarith)

/-- Before its last frame a phase is in its own state, at its start value and `k` steps (R127, R128). -/
theorem envTick_iterate_enter_timed (hv : x.envValue.toNat ≤ envOne) (hl : level x st ≤ envOne)
    (hk : k < frames sr ms) :
    ((envTick sr)^[k] (enter sr st ms x)).envState = timedState st ∧
      (((envTick sr)^[k] (enter sr st ms x)).envValue.toNat : Int) =
        x.envValue.toNat + k * stepOf (level x st) x.envValue.toNat (frames sr ms) := by
  rw [envTick_iterate_enter hk]
  exact ⟨enter_envState sr st ms x, advanceBy_enter_value hv hl hk.le⟩

end

/-! ## The timelines (R128, R130) -/

theorem complete_of_attack (sr : BitVec 20) (x : Voice) : complete sr .attack x =
    enter sr .decay x.decay (x.withValue (BitVec.ofNat 31 envOne)) := by
  rw [complete]

/-- The voice as ATTACK's last frame leaves it for DECAY's entry: at full scale (R127). -/
def attackPeak (sr : BitVec 20) (x : Voice) : Voice :=
  (advanceBy (frames sr x.attack) (triggerAttack sr x)).withValue (BitVec.ofNat 31 envOne)

@[simp] theorem attackPeak_sustain (sr : BitVec 20) (x : Voice) :
    (attackPeak sr x).sustain = x.sustain := by
  simp only [attackPeak, Voice.withValue_sustain, advanceBy_sustain, triggerAttack, enter_sustain]

theorem attackPeak_envValue_toNat (sr : BitVec 20) (x : Voice) :
    (attackPeak sr x).envValue.toNat = envOne := by
  rw [attackPeak, Voice.withValue_envValue, value_toNat envOne le_rfl]

/-- ATTACK's last frame enters DECAY from full scale, and the ticks after it are DECAY's (R127). -/
theorem envTick_iterate_after_attack (sr : BitVec 20) (x : Voice) (j : Nat) :
    (envTick sr)^[j + frames sr x.attack] (triggerAttack sr x) =
      (envTick sr)^[j] (enter sr .decay x.decay (attackPeak sr x)) := by
  rw [Function.iterate_add_apply, triggerAttack, envTick_iterate_enter_frames, complete_of_attack]
  rfl

/-- From DECAY's last frame on, the voice holds in SUSTAIN the level it entered DECAY with (R117, R127). -/
theorem envTick_iterate_after_decay {sr : BitVec 20} {ms : Half} {x : Voice} (hs : x.sustain.toNat ≤ 256)
    (j : Nat) :
    ((envTick sr)^[j + frames sr ms] (enter sr .decay ms x)).envState = .sustain ∧
      ((envTick sr)^[j + frames sr ms] (enter sr .decay ms x)).envValue.toNat = sustainLevel x.sustain := by
  rw [Function.iterate_add_apply, envTick_iterate_enter_frames]
  obtain ⟨hstate, hvalue⟩ := envTick_iterate_of_sustain (sr := sr)
    (x := complete sr .decay (advanceBy (frames sr ms) (enter sr .decay ms x))) rfl rfl j
  refine ⟨hstate, ?_⟩
  rw [hvalue]
  exact value_toNat (sustainLevel x.sustain) (sustainLevel_le x.sustain hs)

/-- DECAY's course from the attack's peak, before its last frame (R128). -/
theorem envTick_iterate_decay_timed {sr : BitVec 20} {x : Voice} (hs : x.sustain.toNat ≤ 256) {j : Nat}
    (hj : j < frames sr x.decay) :
    ((envTick sr)^[j] (enter sr .decay x.decay (attackPeak sr x))).envState = .decay ∧
      (((envTick sr)^[j] (enter sr .decay x.decay (attackPeak sr x))).envValue.toNat : Int) =
        envOne + j * stepOf (sustainLevel x.sustain) envOne (frames sr x.decay) := by
  have hpeak := attackPeak_envValue_toNat sr x
  have hlevel : level (attackPeak sr x) .decay = sustainLevel x.sustain := by
    rw [level, attackPeak_sustain]
  have h := envTick_iterate_enter_timed (st := .decay) hpeak.le (hlevel ▸ sustainLevel_le x.sustain hs) hj
  rwa [hpeak, hlevel] at h

/-- Settles O39: ATTACK's course, its landing, DECAY's course from full scale, and SUSTAIN. -/
theorem attackDecaySustainTimeline : Obligations.AttackDecaySustainTimeline := by
  intro sr x hv hs nA nD level sA sD k _ y
  refine ⟨fun hk => envTick_iterate_enter_timed (st := .attack) hv le_rfl hk, fun hk => ?_,
    fun hA hD => ?_, fun hD => ?_⟩
  · obtain rfl : k = 0 + nA := hk.trans (Nat.zero_add nA).symm
    rw [show y = _ from envTick_iterate_after_attack sr x 0]
    exact ⟨rfl, attackPeak_envValue_toNat sr x⟩
  · obtain ⟨j, rfl⟩ : ∃ j, k = j + nA := Nat.exists_eq_add_of_le' hA.le
    rw [show y = _ from envTick_iterate_after_attack sr x j, Nat.cast_add, add_sub_cancel_right]
    exact envTick_iterate_decay_timed hs (show j < nD by omega)
  · obtain ⟨j, rfl⟩ : ∃ j, k = j + nD + nA := ⟨k - (nA + nD), by omega⟩
    rw [show y = _ from envTick_iterate_after_attack sr x (j + nD)]
    obtain ⟨hstate, hvalue⟩ := envTick_iterate_after_decay (sr := sr) (ms := x.decay)
      (x := attackPeak sr x) (by rwa [attackPeak_sustain]) j
    rw [attackPeak_sustain] at hvalue
    exact ⟨hstate, hvalue⟩

/-- A release never steps upwards (R131). -/
theorem stepOf_zero_nonpos (e : Nat) {n : Nat} (hn : 1 ≤ n) : stepOf 0 e n ≤ 0 :=
  ((quot_mul_between _ n hn).2 (by omega)).1

/-- Settles O40: RELEASE's course, downwards because its step is, and its landing in OFF. -/
theorem releaseFallsToOff : Obligations.ReleaseFallsToOff := by
  intro sr x hv n step
  have hlast : (envTick sr)^[n] (triggerRelease sr x) =
      complete sr .release (advanceBy n (triggerRelease sr x)) := envTick_iterate_enter_frames
  refine ⟨fun k hk => ?_, ?_, ?_⟩
  · obtain ⟨hstate, hvalue⟩ := envTick_iterate_enter_timed (sr := sr) (st := .release) (ms := x.release)
      (x := x) (k := k) hv (Nat.zero_le _) hk
    have hdown : (k : Int) * step ≤ 0 :=
      mul_nonpos_of_nonneg_of_nonpos k.cast_nonneg (stepOf_zero_nonpos _ (frames_pos sr x.release))
    refine ⟨hstate, hvalue, ?_⟩
    have hle := hvalue.trans_le (add_le_of_nonpos_right hdown)
    exact_mod_cast hle
  · rw [hlast]
    rfl
  · rw [hlast]
    rfl

end Sys2Proof.Machine
end

section
/-! PROOFS. The mixer and the per-sample pull (spec/43_mixer.md): SET_VOL (R133), SAMPLE as the loop over
the active voices on the whole state (R134), the ranges of the gains, of the accumulator and of the output
(R135 to R139), and a SAMPLE of silence. -/

namespace Sys2Proof.Machine

open Sys2Proof.Claim

/-! ## SET_VOL (R133) -/

/-- SET_VOL's reserved bits, IMM[15:8], are 0 exactly if IMM is a byte. -/
theorem setVolReserved_eq_zero_iff (imm : Half) : imm.extractLsb' 8 8 = 0#8 ↔ imm.toNat < 256 :=
  high_eq_zero_iff imm rfl

theorem encodes_setVol : encodes 0x30 (fun _ imm arg => imm.extractLsb' 8 8 == 0 && arg == 0)
    (fun vf imm _ => .setVol vf (BitVec.ofNat 8 imm.toNat)) := by
  intro cmd arg hop
  rw [decode, hop]
  rfl

theorem encodes_sample : encodes 0x31 (fun vf imm arg => vf == 0 && imm == 0 && arg == 0)
    (fun _ _ _ => .sample) := by
  intro cmd arg hop
  rw [decode, hop]
  rfl

/-- Settles O24: SET_VOL's row, and VOL as its only write. -/
theorem setVolWritesTheVolume : Obligations.SetVolWritesTheVolume :=
  ⟨encodes_congr encodes_setVol fun _ imm _ => by simp [setVolReserved_eq_zero_iff imm],
    fun _ => voiceSetter_of_voiceCommand fun _ _ => rfl⟩

/-! ## The gains (R135, R136) -/

/-- The envelope takes a sample that is not negative no further from 0 (R135). -/
theorem envScale_of_nonneg {w : Int} {e : BitVec 31} (hw : 0 ≤ w) (he : e.toNat ≤ envOne) :
    0 ≤ envScale w e ∧ envScale w e ≤ w := by
  have hlo : 0 ≤ w * e.toNat := mul_nonneg hw (Int.natCast_nonneg _)
  have hhi : w * e.toNat ≤ w * 2 ^ 30 := mul_le_mul_of_nonneg_left (by exact_mod_cast he) hw
  simp only [envScale, asr]
  omega

/-- A negative sample stays between itself and -1 while the envelope is not 0: the floor rounds away
from 0 (R135). -/
theorem envScale_of_neg {w : Int} {e : BitVec 31} (hw : w < 0) (hpos : 0 < e.toNat)
    (he : e.toNat ≤ envOne) : w ≤ envScale w e ∧ envScale w e ≤ -1 := by
  have hlo : w * 2 ^ 30 ≤ w * e.toNat := mul_le_mul_of_nonpos_left (by exact_mod_cast he) hw.le
  have hhi : w * e.toNat < 0 := mul_neg_of_neg_of_pos hw (by exact_mod_cast hpos)
  simp only [envScale, asr]
  omega

theorem envScale_of_zero (w : Int) {e : BitVec 31} (he : e.toNat = 0) : envScale w e = 0 := by
  simp [envScale, asr, he]

theorem envScale_of_full (w : Int) {e : BitVec 31} (he : e.toNat = 2 ^ 30) : envScale w e = w := by
  simp [envScale, asr, he]

/-- The envelope keeps an s16 an s16 (R135). -/
theorem isS16_envScale {w : Int} {e : BitVec 31} (hw : isS16 w) (he : e.toNat ≤ envOne) :
    isS16 (envScale w e) := by
  obtain ⟨hlo, hhi⟩ := hw
  rcases lt_or_ge w 0 with hneg | hpos
  · rcases Nat.eq_zero_or_pos e.toNat with h0 | h0
    · rw [envScale_of_zero w h0]
      exact isS16_zero
    · obtain ⟨h1, h2⟩ := envScale_of_neg hneg h0 he
      exact ⟨hlo.trans h1, by omega⟩
  · obtain ⟨h1, h2⟩ := envScale_of_nonneg hpos he
    exact ⟨by omega, h2.trans hhi⟩

/-- The range of one voice's contribution to the sum (R136). -/
def isGain (g : Int) : Prop := -32640 ≤ g ∧ g ≤ 32639

/-- The volume is at most 255/256 (R136). -/
theorem isGain_volScale {a : Int} (ha : isS16 a) (vol : BitVec 8) : isGain (volScale a vol) := by
  obtain ⟨hlo, hhi⟩ := ha
  have hvol : (vol.toNat : Int) ≤ 255 := by have := vol.isLt; omega
  have hvol0 : (0 : Int) ≤ vol.toNat := Int.natCast_nonneg _
  have h1 : -32768 * (vol.toNat : Int) ≤ a * vol.toNat := mul_le_mul_of_nonneg_right hlo hvol0
  have h2 : a * (vol.toNat : Int) ≤ 32767 * vol.toNat := mul_le_mul_of_nonneg_right hhi hvol0
  simp only [isGain, volScale, asr]
  omega

/-- Settles O43: each clause is one case of the sign of the sample and of the envelope's value. -/
theorem voiceGainStaysInRange : Obligations.VoiceGainStaysInRange := fun w _ vol hlo hhi he =>
  ⟨fun hw => envScale_of_nonneg hw he, fun hw hpos => envScale_of_neg hw hpos he, envScale_of_zero w,
    envScale_of_full w, isGain_volScale (isS16_envScale ⟨hlo, hhi⟩ he) vol⟩

/-! ## The master volume and the clip (R137, R139) -/

/-- The clip, written as R137 writes it. -/
theorem mixOut_eq_clipped (acc : Int) (mvol : BitVec 7) : mixOut acc mvol = clipped acc mvol := by
  simp only [mixOut, clipped, clamp, quot]
  omega

theorem isS16_mixOut (acc : Int) (mvol : BitVec 7) : isS16 (mixOut acc mvol) := by
  rw [mixOut_eq_clipped, isS16, clipped]
  omega

theorem mixOut_zero (mvol : BitVec 7) : mixOut 0 mvol = 0 := by
  simp [mixOut, clamp, quot]

/-- An s16 is read back from its 32-bit pattern (R87). -/
theorem toInt_pattern32 {y : Int} (hy : isS16 y) : (pattern32 y).toInt = y := by
  obtain ⟨hlo, hhi⟩ := hy
  exact BitVec.toInt_ofInt_eq_self (by decide) (by omega) (by omega)

/-! ## When SAMPLE answers (R134) -/

/-- A SAMPLE that answers leaves the state after its loop. -/
theorem eq_sampleResult_of_next {s t : State} (h : exec .sample s = .next t) : t = sampleResult s := by
  change execSample s = .next t at h
  unfold execSample at h
  split at h
  · cases h
  · split at h
    · cases h
    · exact (Host.Outcome.next.inj h).symm

/-- SAMPLE answers where neither of its faults is raised (log 7). -/
theorem exec_sample_of_ready {s : State} (hrate : s.g.nva = 0 ∨ s.g.sr ≠ 0)
    (harb : ∀ x ∈ s.voices.take s.g.nva.toNat, arbBroken s.params x = false) :
    exec .sample s = .next (sampleResult s) := by
  have hzero : ¬(s.g.nva ≠ 0 ∧ s.g.sr = 0) := fun ⟨hnva, hsr⟩ => hrate.elim hnva (· hsr)
  have hany : (s.voices.take s.g.nva.toNat).any (arbBroken s.params) = false := by
    simpa only [List.any_eq_false, Bool.not_eq_true] using harb
  change execSample s = _
  rw [execSample, if_neg hzero, hany, if_neg Bool.false_ne_true]

theorem arbBroken_of_le {p : Params} {x : Voice} (h : x.arbRd.toNat ≤ p.arbLen) :
    arbBroken p x = false := by
  simp only [arbBroken, decide_eq_false (not_lt.mpr h), Bool.and_false]

theorem arbBroken_of_off {x : Voice} (h : x.envState = .off) (p : Params) : arbBroken p x = false := by
  simp [arbBroken, h]

/-- Settles O45: RDATA is the pattern of a clipped sample, and a clipped sample is an s16. -/
theorem sampleOutputIsSixteenBits : Obligations.SampleOutputIsSixteenBits := by
  intro s t h
  rw [eq_sampleResult_of_next h, sampleResult_port_rdata, toInt_pattern32 (isS16_mixOut _ _)]
  exact isS16_mixOut _ _

/-! ## The accumulator and the kinds (R134, R138) -/

/-- The shared state with another accumulator. -/
def Mix.withAcc (m : Mix) (a : Int) : Mix := { m with acc := a }

theorem noiseKind_withAcc (wrap : Bool) (x : Voice) (m : Mix) (a : Int) :
    noiseKind wrap x (m.withAcc a) =
      ((noiseKind wrap x m).1, (noiseKind wrap x m).2.1.withAcc a, (noiseKind wrap x m).2.2) := by
  unfold noiseKind
  split
  · split <;> rfl
  · rfl

theorem arbReady_withAcc (p : Params) (v : Nat) (x : Voice) (m : Mix) (a : Int) :
    arbReady p v x (m.withAcc a) = ((arbReady p v x m).1, (arbReady p v x m).2.withAcc a) := by
  unfold arbReady
  split <;> rfl

theorem arbKind_withAcc (p : Params) (v : Nat) (x : Voice) (m : Mix) (a : Int) :
    arbKind p v x (m.withAcc a) =
      ((arbKind p v x m).1, (arbKind p v x m).2.1.withAcc a, (arbKind p v x m).2.2) := by
  unfold arbKind
  split
  · rw [arbReady_withAcc]
  · rfl

/-- The kinds neither read the accumulator nor change it. -/
theorem voiceRaw_withAcc (p : Params) (v : Nat) (wrap : Bool) (x : Voice) (m : Mix) (a : Int) :
    voiceRaw p v wrap x (m.withAcc a) =
      ((voiceRaw p v wrap x m).1, (voiceRaw p v wrap x m).2.1.withAcc a,
        (voiceRaw p v wrap x m).2.2) := by
  simp only [voiceRaw, noiseKind_withAcc, arbKind_withAcc]

theorem voiceRaw_acc (p : Params) (v : Nat) (wrap : Bool) (x : Voice) (m : Mix) :
    (voiceRaw p v wrap x m).2.1.acc = m.acc :=
  congrArg (fun r => r.2.1.acc) (voiceRaw_withAcc p v wrap x m m.acc)

/-- The pass over a sounding voice, with the gain written in the registers the voice came with. -/
theorem sampleSounding_eq (p : Params) (sr : BitVec 20) (v : Nat) (wrap : Bool) (x : Voice) (m : Mix) :
    let k := voiceRaw p v wrap x m
    sampleSounding p sr v wrap x m =
      (envTick sr k.1, k.2.1.withAcc (m.acc + volScale (envScale k.2.2 x.envValue) x.vol)) := by
  simp only [sampleSounding, voiceRaw_acc, voiceRaw_envValue, voiceRaw_vol, Mix.withAcc]

/-! ## The range of the accumulator (R138) -/

/-- One pass adds at most one gain to the accumulator. -/
theorem sampleVoice_acc_bound (p : Params) (sr : BitVec 20) (v : Nat) {x : Voice}
    (hx : x.envValue.toNat ≤ envOne) (m : Mix) :
    |(sampleVoice p sr v x m).2.acc - m.acc| ≤ 32640 := by
  rw [abs_le]
  rcases sampleVoice_cases p sr v x m with ⟨-, h⟩ | ⟨-, h⟩
  · simp [h]
  · obtain ⟨hlo, hhi⟩ := isGain_volScale (isS16_envScale
      (rawSampleFitsSixteenBits p v (phaseWraps sr x) (advancePhase sr x) m) hx) x.vol
    rw [h, sampleSounding_eq]
    simp only [Mix.withAcc, add_sub_cancel_left, advancePhase_envValue, advancePhase_vol]
    omega

/-- After `n` passes the accumulator has moved by at most `n` gains: each slot is passed once, with the
envelope value it came with. -/
theorem sampleSlots_acc_bound (p : Params) (sr : BitVec 20) (v n : Nat) {xs : List Voice}
    (hxs : ∀ x ∈ xs, x.envValue.toNat ≤ envOne) (m : Mix) :
    |(sampleSlots p sr v n xs m).2.acc - m.acc| ≤ 32640 * n := by
  induction n generalizing v xs m with
  | zero => simp [sampleSlots]
  | succ n ih =>
    cases xs with
    | nil =>
      simp only [sampleSlots, sub_self, abs_zero]
      omega
    | cons x xs =>
      have hhead := sampleVoice_acc_bound p sr v (hxs x List.mem_cons_self) m
      have htail := ih (v + 1) (fun y hy => hxs y (List.mem_cons_of_mem x hy)) (sampleVoice p sr v x m).2
      simp only [sampleSlots, abs_le] at hhead htail ⊢
      omega

/-- Settles O44: at most 64 gains are added to an accumulator of 0. -/
theorem accumulatorStaysExact : Obligations.AccumulatorStaysExact := by
  intro s hinv
  have hbound (n : Nat) (hn : n ≤ s.g.nva.toNat) :
      -2088960 ≤ (sampleSlots s.params s.g.sr 0 n s.voices (mixStart s)).2.acc ∧
        (sampleSlots s.params s.g.sr 0 n s.voices (mixStart s)).2.acc ≤ 2088960 := by
    obtain ⟨⟨-, hmax, -⟩, -, ⟨hnva, -⟩, hvoices, -⟩ := hinv
    have hvalue (x : Voice) (hx : x ∈ s.voices) : x.envValue.toNat ≤ envOne := by
      obtain ⟨⟨hle, -⟩, -⟩ := hvoices x hx
      exact hle
    have hacc := sampleSlots_acc_bound s.params s.g.sr 0 n hvalue (mixStart s)
    have hstart : (mixStart s).acc = 0 := rfl
    rw [hstart, sub_zero, abs_le] at hacc
    omega
  exact ⟨hbound _ le_rfl, hbound⟩

/-! ## The phase advance (R94, R95) -/

/-- `t` of R95, by the increment of R94 as a number. -/
theorem phaseSum_eq (sr : BitVec 20) (x : Voice) :
    phaseSum sr x = x.phase.toNat + (x.freq.toNat * 2 ^ 32 / sr.toNat) % 2 ^ 32 := by
  rw [phaseSum, phaseInc, BitVec.toNat_ofNat]

/-- The phase advance, written as an update of the whole record (R95). -/
theorem advancePhase_eq (sr : BitVec 20) (x : Voice) :
    advancePhase sr x =
      { x with phase := BitVec.ofNat 32
                 (x.phase.toNat + (x.freq.toNat * 2 ^ 32 / sr.toNat) % 2 ^ 32) } := by
  rw [← phaseSum_eq]
  rfl

/-! ## A SAMPLE of silence (R134, R184) -/

/-- Where every slot it reaches is in OFF, the loop advances their phases and does nothing else. -/
theorem sampleSlots_of_off (p : Params) (sr : BitVec 20) (v n : Nat) {xs : List Voice}
    (hoff : ∀ i x, i < n → xs[i]? = some x → x.envState = .off) (m : Mix) :
    sampleSlots p sr v n xs m = (mapSlots (fun _ => advancePhase sr) v n xs, m) := by
  induction n generalizing v xs with
  | zero => rfl
  | succ n ih =>
    cases xs with
    | nil => rfl
    | cons x xs =>
      have hx : sampleVoice p sr v x m = (advancePhase sr x, m) := by
        rw [sampleVoice, if_pos (hoff 0 x n.succ_pos rfl)]
      have htail := ih (v + 1) fun i y hi hy => hoff (i + 1) y (Nat.succ_lt_succ hi) hy
      simp only [sampleSlots, hx, htail, mapSlots]

/-- Settles O42: the loop raises no event and adds nothing, so what it leaves is the advanced phases. -/
theorem sampleOfSilenceAdvancesPhases : Obligations.SampleOfSilenceAdvancesPhases := by
  intro s hrate hoff
  have hloop : sampleLoop s =
      (mapSlots (fun _ => advancePhase s.g.sr) 0 s.g.nva.toNat s.voices, mixStart s) :=
    sampleSlots_of_off s.params s.g.sr 0 s.g.nva.toNat hoff (mixStart s)
  refine ⟨mapSlots (fun _ => advancePhase s.g.sr) 0 s.g.nva.toNat s.voices, ?_, fun v => ?_⟩
  · have harb : ∀ x ∈ s.voices.take s.g.nva.toNat, arbBroken s.params x = false := by
      intro x hx
      obtain ⟨v, hv⟩ := List.mem_iff_getElem?.mp hx
      obtain ⟨hlt, hv⟩ : v < s.g.nva.toNat ∧ s.voices[v]? = some x := by
        simpa [List.getElem?_take] using hv
      exact arbBroken_of_off (hoff v x hlt hv) s.params
    have hout : mixOut (mixStart s).acc s.g.mvol = 0 := mixOut_zero s.g.mvol
    rw [exec_sample_of_ready hrate harb, sampleResult, hloop, hout]
    rfl
  · rw [mapSlots_getElem?]
    cases s.voices[v]? with
    | none => exact ite_self none
    | some x =>
      simp only [Option.map_some, advancePhase_eq]
      split <;> rfl

/-! ## SAMPLE on the whole state (R134) -/

/-- What R134's loop holds, on the whole state and the accumulator, when it has left the voices `xs` and
the shared state `m` of a SAMPLE of `s`. -/
def duringSample (s : State) (xs : List Voice) (m : Mix) : State × Int :=
  ({ s with
     voices := xs
     g := { s.g with noise := m.noise }
     port := { s.port with
       refills := m.refills, refillCount := m.refillCount, rdata := 0, events := m.events } },
   m.acc)

theorem duringSample_start (s : State) : duringSample s s.voices (mixStart s) = (answering 0 s, 0) := rfl

/-- The body of R134's loop on a slot that does not exist. -/
theorem sampleBody_of_none {r : State × Int} {v : Nat} (hx : r.1.voices[v]? = none) :
    sampleBody r v = r := by
  simp only [sampleBody, hx]

/-- The body of R134's loop on a voice in OFF, by the machine's phase advance. -/
theorem sampleBody_of_off {r : State × Int} {v : Nat} {x : Voice} (hx : r.1.voices[v]? = some x)
    (hoff : x.envState = .off) :
    sampleBody r v = (setSlot v (fun _ => advancePhase r.1.g.sr x) r.1, r.2) := by
  simp only [sampleBody, hx, if_pos hoff, advancePhase_eq]

/-- The body of R134's loop on a sounding voice, by the machine's phase advance and gains. -/
theorem sampleBody_of_sounding {r : State × Int} {v : Nat} {x : Voice} (hx : r.1.voices[v]? = some x)
    (hon : x.envState ≠ .off) :
    let k := voiceRaw r.1.params v (phaseWraps r.1.g.sr x) (advancePhase r.1.g.sr x) (mixOf r.1)
    sampleBody r v =
      (setSlot v (fun _ => envTick r.1.g.sr k.1)
        { r.1 with
          g := { r.1.g with noise := k.2.1.noise }
          port := { r.1.port with
            refills := k.2.1.refills, refillCount := k.2.1.refillCount, events := k.2.1.events } },
        r.2 + volScale (envScale k.2.2 x.envValue) x.vol) := by
  simp only [sampleBody, hx, if_neg hon, phaseWraps, phaseSum_eq, advancePhase_eq, envScale, volScale, asr]

/-- One pass of R134's loop on the whole state is the machine's pass over one voice. -/
theorem sampleBody_duringSample (s : State) {xs : List Voice} {v : Nat} {x : Voice} (m : Mix)
    (hx : xs[v]? = some x) :
    sampleBody (duringSample s xs m) v =
      duringSample s (xs.set v (sampleVoice s.params s.g.sr v x m).1)
        (sampleVoice s.params s.g.sr v x m).2 := by
  have hmix : mixOf (duringSample s xs m).1 = m.withAcc 0 := rfl
  rcases sampleVoice_cases s.params s.g.sr v x m with ⟨hoff, h⟩ | ⟨hon, h⟩
  · rw [sampleBody_of_off hx hoff, h, List.set_eq_modify]
    simp only [duringSample, setSlot]
  · rw [sampleBody_of_sounding hx hon, hmix, voiceRaw_withAcc, h, sampleSounding_eq, List.set_eq_modify]
    simp only [duringSample, setSlot, Mix.withAcc, advancePhase_envValue, advancePhase_vol]

/-- R134's loop does nothing at indices past the last slot. -/
theorem foldl_sampleBody_of_none {r : State × Int} {vs : List Nat}
    (hnone : ∀ v ∈ vs, r.1.voices[v]? = none) : vs.foldl sampleBody r = r := by
  induction vs with
  | nil => rfl
  | cons v vs ih =>
    obtain ⟨hv, hvs⟩ := List.forall_mem_cons.mp hnone
    rw [List.foldl_cons, sampleBody_of_none hv, ih hvs]

/-- R134's loop on the whole state, from slot `v` on, is the machine's loop over the slots from there. -/
theorem foldl_sampleBody_duringSample (s : State) (n : Nat) (before xs : List Voice) (m : Mix) :
    (List.range' before.length n).foldl sampleBody (duringSample s (before ++ xs) m) =
      duringSample s (before ++ (sampleSlots s.params s.g.sr before.length n xs m).1)
        (sampleSlots s.params s.g.sr before.length n xs m).2 := by
  induction n generalizing before xs m with
  | zero => rfl
  | succ n ih =>
    cases xs with
    | nil =>
      refine foldl_sampleBody_of_none fun v hv => List.getElem?_eq_none ?_
      rw [List.append_nil]
      exact List.left_le_of_mem_range' hv
    | cons x xs =>
      have hx : (before ++ x :: xs)[before.length]? = some x := by simp
      have hnext := ih (before ++ [(sampleVoice s.params s.g.sr before.length x m).1]) xs
        (sampleVoice s.params s.g.sr before.length x m).2
      rw [List.range'_succ, List.foldl_cons, sampleBody_duringSample s m hx]
      simpa [sampleSlots] using hnext

theorem sampleFold_eq_duringSample (s : State) :
    sampleFold s = duringSample s (sampleLoop s).1 (sampleLoop s).2 := by
  rw [sampleFold, ← duringSample_start, List.range_eq_range']
  exact foldl_sampleBody_duringSample s s.g.nva.toNat [] s.voices (mixStart s)

/-- The state the machine leaves after SAMPLE is R134's. -/
theorem sampleResult_eq_sampled (s : State) : sampleResult s = sampled s := by
  rw [sampled, sampleFold_eq_duringSample, ← mixOut_eq_clipped]
  rfl

/-- Settles O41: SAMPLE's row, and the two loops in step. -/
theorem sampleRunsTheVoicesInOrder : Obligations.SampleRunsTheVoicesInOrder := by
  refine ⟨encodes_congr encodes_sample (by simp [and_assoc]), fun s ⟨hrate, hrd⟩ => ?_⟩
  rw [exec_sample_of_ready hrate fun x hx => arbBroken_of_le (hrd x (List.mem_of_mem_take hx)),
    sampleResult_eq_sampled]

end Sys2Proof.Machine
end

section
/-! PROOFS. The sequencer's configuration commands (spec/44_sequencer.md R143 to R154): the row each opcode
decodes by, the table, the run flags and the tempo, and SEQ_STOP's silence as R144's loop over the voices. -/

namespace Sys2Proof.Machine

open Sys2Proof.Claim

/-! ## Rows of the opcode table (R70, R72) -/

/-- A row may be claimed with any command that is the same wherever the reserved fields pass their check. -/
theorem encodes_congr_instr {op : Byte} {z : Byte → Half → Word → Bool}
    {i j : Byte → Half → Word → Instr} (hrow : encodes op z i)
    (hij : ∀ vf imm arg, z vf imm arg = true → i vf imm arg = j vf imm arg) : encodes op z j := by
  intro cmd arg hop
  rw [hrow cmd arg hop]
  split
  · next hz => rw [hij _ _ _ hz]
  · rfl

/-- IMM[15:1] is 0 exactly if IMM is a flag. -/
theorem flagReserved_eq_zero_iff (imm : Half) : imm.extractLsb' 1 15 = 0#15 ↔ imm.toNat < 2 :=
  high_eq_zero_iff imm rfl

/-- A flag is set exactly if IMM is 1. -/
theorem getLsbD_zero_eq_decide {imm : Half} (h : imm.toNat < 2) : imm.getLsbD 0 = decide (imm = 1) := by
  rw [← setWidth_flag ((flagReserved_eq_zero_iff imm).mpr h)]
  cases imm.getLsbD 0 <;> rfl

theorem encodes_seqInit : encodes 0x40 (fun _ _ _ => true) (fun vf imm arg => .seqInit vf imm arg) := by
  intro cmd arg hop
  rw [decode, hop]
  rfl

theorem encodes_seqStart : encodes 0x41 (fun vf imm _ => vf == 0 && imm.extractLsb' 1 15 == 0)
    (fun _ imm arg => .seqStart (imm.getLsbD 0) arg) := by
  intro cmd arg hop
  rw [decode, hop]
  rfl

theorem encodes_seqStop : encodes 0x42 (fun vf imm arg => vf == 0 && imm == 0 && arg == 0)
    (fun _ _ _ => .seqStop) := by
  intro cmd arg hop
  rw [decode, hop]
  rfl

theorem encodes_seqTempo : encodes 0x43 (fun vf _ arg => vf == 0 && arg == 0)
    (fun _ imm _ => .seqTempo imm) := by
  intro cmd arg hop
  rw [decode, hop]
  rfl

theorem encodes_seqCb :
    encodes 0x44 (fun vf imm arg => vf == 0 && imm.extractLsb' 1 15 == 0 && arg == 0)
      (fun _ imm _ => .seqCb (imm.getLsbD 0)) := by
  intro cmd arg hop
  rw [decode, hop]
  rfl

theorem encodes_ntWrite : encodes 0x45 (fun vf _ _ => vf == 0) (fun _ imm arg => .ntWrite imm arg) := by
  intro cmd arg hop
  rw [decode, hop]
  rfl

theorem encodes_ntRead : encodes 0x46 (fun vf imm _ => vf == 0 && imm == 0)
    (fun _ _ arg => .ntRead arg) := by
  intro cmd arg hop
  rw [decode, hop]
  rfl

theorem encodes_tick : encodes 0x47 (fun vf imm _ => vf == 0 && imm == 0) (fun _ _ arg => .tick arg) := by
  intro cmd arg hop
  rw [decode, hop]
  rfl

/-! ## NT_WRITE and NT_READ (R153, R154) -/

section

variable {a : Word} {s : State}

theorem ntIndexBad_of_lt (ha : a.toNat < s.params.ntWords) : ntIndexBad a s = false :=
  decide_eq_false (not_le.mpr ha)

theorem ntIndexBad_of_le (ha : s.params.ntWords ≤ a.toNat) : ntIndexBad a s = true :=
  decide_eq_true ha

theorem exec_ntRead_of_lt (ha : a.toNat < s.params.ntWords) :
    exec (.ntRead a) s = .next (answering (BitVec.ofInt 32 (Memory.read s.nt a.toNat).toInt) s) := by
  refine rejectIf_eq_of_ok (ntIndexBad_of_lt ha) ?_
  rw [sext32_eq_ofInt, begin_respond_eq_answering]

end

/-- Settles O29: NT_WRITE's row, the new table read at every index, and the rejection. -/
theorem ntWriteStoresOneEntry : Obligations.NtWriteStoresOneEntry :=
  ⟨encodes_congr encodes_ntWrite (by simp),
    fun x a s ha hwf => ⟨Memory.write s.nt a.toNat x, rejectIf_eq_of_ok (ntIndexBad_of_lt ha) rfl,
      Memory.wf_write hwf _ _, Memory.read_write s.nt hwf a.toNat x⟩,
    fun _ _ _ ha => rejectIf_eq_rejected (ntIndexBad_of_le ha)⟩

/-- Settles O30: NT_READ's row, the entry returned, and the rejection. -/
theorem ntReadReturnsOneEntry : Obligations.NtReadReturnsOneEntry :=
  ⟨encodes_congr encodes_ntRead (by simp), fun _ _ ha => exec_ntRead_of_lt ha,
    fun _ _ ha => rejectIf_eq_rejected (ntIndexBad_of_le ha)⟩

/-! ## SEQ_INIT, SEQ_START, SEQ_CB (R146, R147, R152) -/

/-- SEQ_INIT's check is the complement of R146's ranges. -/
theorem seqInitBad_eq_false_iff (n : Byte) (len : Half) (base : Word) (s : State) :
    seqInitBad n len base s = false ↔
      1 ≤ n.toNat ∧ n.toNat ≤ s.g.nva.toNat ∧ 1 ≤ len.toNat ∧
        base.toNat + n.toNat * len.toNat ≤ s.params.ntWords := by
  simp only [seqInitBad, decide_eq_false_iff_not, not_or, not_lt, Nat.one_le_iff_ne_zero]

/-- SEQ_START's check is the complement of what R147 asks. -/
theorem seqStartBad_eq_false_iff (s : State) :
    seqStartBad s = false ↔
      1 ≤ s.seq.len.toNat ∧ 1 ≤ s.seq.voices.toNat ∧ s.seq.voices.toNat ≤ s.g.nva.toNat := by
  simp only [seqStartBad, decide_eq_false_iff_not, not_or, not_lt, BitVec.toNat_eq,
    Nat.one_le_iff_ne_zero, BitVec.ofNat_eq_ofNat, BitVec.toNat_ofNat, Nat.zero_mod]

/-- Settles O46: SEQ_INIT's row, and its two checks in R165's order. -/
theorem seqInitBindsTheTable : Obligations.SeqInitBindsTheTable := by
  refine ⟨encodes_seqInit, fun n len base s =>
    ⟨fun hok hstop => ?_, fun hbad => ?_, fun hok hplay => ?_⟩⟩
  · rw [BitVec.ofNat_toNat, BitVec.ofNat_toNat]
    exact rejectIf_eq_of_ok ((seqInitBad_eq_false_iff n len base s).mpr hok)
      (rejectIf_eq_of_ok hstop rfl)
  · refine rejectIf_eq_rejected (Bool.of_not_eq_false ?_)
    rwa [seqInitBad_eq_false_iff]
  · exact rejectIf_eq_of_ok ((seqInitBad_eq_false_iff n len base s).mpr hok)
      (rejectIf_eq_rejected hplay)

/-- Settles O47: SEQ_START's row, and its check decides between the start and BAD_STATE. -/
theorem seqStartCapturesTheTime : Obligations.SeqStartCapturesTheTime := by
  refine ⟨encodes_congr_instr (encodes_congr encodes_seqStart fun _ imm _ => ?_) fun _ imm _ hz => ?_,
    fun loop now s => ⟨fun hok => ?_, fun hbad => ?_⟩⟩
  · simp [flagReserved_eq_zero_iff imm]
  · obtain ⟨-, himm⟩ := of_decide_eq_true hz
    rw [getLsbD_zero_eq_decide himm]
  · exact rejectIf_eq_of_ok ((seqStartBad_eq_false_iff s).mpr hok) rfl
  · refine rejectIf_eq_rejected (Bool.of_not_eq_false ?_)
    rwa [seqStartBad_eq_false_iff]

/-- Settles O52: SEQ_CB's row, and CB_EN as its only write. -/
theorem seqCbWritesTheEnable : Obligations.SeqCbWritesTheEnable := by
  refine ⟨encodes_congr_instr (encodes_congr encodes_seqCb fun _ imm _ => ?_) fun _ imm _ hz => ?_,
    fun _ _ => rfl⟩
  · simp [flagReserved_eq_zero_iff imm, and_assoc]
  · obtain ⟨-, himm, -⟩ := of_decide_eq_true hz
    rw [getLsbD_zero_eq_decide himm]

/-! ## SEQ_TEMPO (R143, R150, R151) -/

/-- A beat duration is stored exactly (R42, R143). -/
theorem bpmToMs_toNat (bpm : Half) : (BitVec.ofNat 14 (bpmToMs bpm)).toNat = bpmToMs bpm := by
  have hmax := (bpmToMs_range bpm).2
  rw [BitVec.toNat_ofNat, Nat.mod_eq_of_lt (by omega)]

theorem exec_seqTempo_of_zero {bpm : Half} (h : bpm.toNat = 0) (s : State) :
    exec (.seqTempo bpm) s = .next (rejected .badValue s) :=
  rejectIf_eq_rejected (decide_eq_true (BitVec.eq_of_toNat_eq h))

theorem exec_seqTempo_of_pos {bpm : Half} (h : 1 ≤ bpm.toNat) (s : State) :
    exec (.seqTempo bpm) s = .next (s.begin.withSeq (retime (bpmToMs bpm) s.seq)) := by
  have hne : bpm ≠ 0 := fun h0 => by simp [h0] at h
  exact rejectIf_eq_of_ok (decide_eq_false hne) rfl

/-- Settles O50: SEQ_TEMPO's row, the range of the new duration, and the rebased start. -/
theorem seqTempoRebasesTheStart : Obligations.SeqTempoRebasesTheStart := by
  refine ⟨encodes_congr encodes_seqTempo (by simp), fun bpm s =>
    ⟨fun h => exec_seqTempo_of_zero h s, fun h => ⟨(bpmToMs_range bpm).2, ?_⟩⟩⟩
  rw [exec_seqTempo_of_pos h, retime]
  simp only [Bool.and_eq_true]
  rfl

/-- The start as a number, rebased while a beat of this playback has been dispatched (R150). -/
theorem retime_start_toNat {q : Sequencer} (hplay : q.playing = true) (hvalid : q.beatValid = true)
    (ms : Nat) :
    ((retime ms q).start.toNat : Int) =
      ((q.start.toNat : Int) + (q.last.toNat : Int) * q.beatMs.toNat - (q.last.toNat : Int) * ms) %
        2 ^ 32 := by
  rw [retime, Sequencer.withTiming_start, hplay, hvalid, Bool.and_self, if_pos rfl, BitVec.toNat_ofInt,
    Int.toNat_of_nonneg (Int.emod_nonneg _ (by decide))]
  rfl

/-- A time `d` ms after the start of the last dispatched beat is, from the rebased start, `d` after the new
durations of the beats before it (R150). -/
theorem elapsed_retime {q : Sequencer} {ms d : Nat} {now : Word} (hplay : q.playing = true)
    (hvalid : q.beatValid = true)
    (hd : ((now.toNat : Int) - q.start.toNat - q.last.toNat * q.beatMs.toNat) % 2 ^ 32 = d)
    (hfit : d + q.last.toNat * ms < 2 ^ 32) :
    (now.toNat + 2 ^ 32 - (retime ms q).start.toNat) % 2 ^ 32 = d + q.last.toNat * ms := by
  have hstart := retime_start_toNat hplay hvalid ms
  have hlt := (retime ms q).start.isLt
  rw [← Nat.cast_mul q.last.toNat ms] at hstart
  generalize q.last.toNat * ms = new at *
  omega

/-- Settles O51: from the rebased start the last beat's new durations are whole beats. -/
theorem tempoChangeRefiresNoBeat : Obligations.TempoChangeRefiresNoBeat := by
  intro bpm s t now d h hbpm hplay hvalid hd hfit
  obtain rfl : _ = t := Host.Outcome.next.inj ((exec_seqTempo_of_pos hbpm s).symm.trans h)
  have hms : (retime (bpmToMs bpm) s.seq).beatMs.toNat = bpmToMs bpm := bpmToMs_toNat bpm
  rw [State.withSeq_seq] at hfit ⊢
  rw [hms] at hfit ⊢
  rw [beatAt, hms, elapsed_retime hplay hvalid hd hfit,
    Nat.add_mul_div_right _ _ (bpmToMs_range bpm).1, Nat.add_comm]

/-! ## Loops over the slots (R144, R155) -/

/-- One pass more changes the next slot. -/
theorem mapSlots_succ (f : Nat → Voice → Voice) (n : Nat) (xs : List Voice) :
    mapSlots f 0 (n + 1) xs = (mapSlots f 0 n xs).modify n (f n) := by
  refine List.ext_getElem? fun i => ?_
  rw [List.getElem?_modify, mapSlots_getElem?, mapSlots_getElem?, Nat.zero_add]
  rcases lt_trichotomy i n with hi | rfl | hi
  · simp [hi, hi.ne', Nat.lt_succ_of_lt hi]
  · simp
  · simp [hi.ne, not_lt.mpr hi.le, show ¬i < n + 1 by omega]

/-- A loop in ascending order whose body changes only its own slot, by a function that does not read the
slots, is the machine's loop over them. -/
theorem foldl_eq_withVoices_mapSlots {body : State → Nat → State} {f : Nat → Voice → Voice} {s : State}
    (hbody : ∀ xs v, body (s.withVoices xs) v = setSlot v (f v) (s.withVoices xs)) (n : Nat) :
    (List.range n).foldl body s = s.withVoices (mapSlots f 0 n s.voices) := by
  induction n with
  | zero => rfl
  | succ n ih =>
    rw [List.range_succ, List.foldl_append, ih, List.foldl_cons, List.foldl_nil, hbody, mapSlots_succ]
    rfl

/-- R144's loop is the machine's silence of every active voice. -/
theorem silenced_eq_silenceAll (s : State) : silenced s = silenceAll s :=
  foldl_eq_withVoices_mapSlots (fun _ _ => rfl) s.g.nva.toNat

/-! ## SEQ_STOP (R148, R149) -/

/-- What SEQ_STOP leaves before it silences the active voices: stopped, with a response of 0 (R148). -/
def stoppedSeq (s : State) : State := s.begin.withSeq (s.seq.withRun false false)

theorem exec_seqStop (s : State) : exec .seqStop s = .next (silenceAll (stoppedSeq s)) := rfl

/-- Settles O48: SEQ_STOP's row, and R144's loop on the stopped sequencer. -/
theorem seqStopSilencesEveryActiveVoice : Obligations.SeqStopSilencesEveryActiveVoice := by
  refine ⟨encodes_congr encodes_seqStop (by simp [and_assoc]), fun s => ?_⟩
  rw [silenced_eq_silenceAll]
  exact exec_seqStop s

theorem silenceAll_silenceAll (s : State) : silenceAll (silenceAll s) = silenceAll s := by
  refine congrArg s.withVoices (List.ext_getElem? fun v => ?_)
  rw [silenceAll_voices, silenceAll_g, mapSlots_getElem?, mapSlots_getElem?]
  split
  · cases s.voices[v]? <;> simp
  · rfl

/-- Every active voice is silent after `silence_all` (R144). -/
theorem silent_of_silenceAll {s : State} {v : Nat} {x : Voice} (hv : v < (silenceAll s).g.nva.toNat)
    (hx : (silenceAll s).voices[v]? = some x) : x.envState = .off ∧ x.envValue = 0 := by
  rw [silenceAll_g] at hv
  rw [silenceAll_getElem?, if_pos hv] at hx
  obtain ⟨y, -, rfl⟩ := Option.map_eq_some_iff.mp hx
  exact ⟨silence_envState y, silence_envValue y⟩

/-- A SAMPLE that answers returns 0 where every active voice is in OFF (R134, R149). -/
theorem sample_rdata_of_off {s t : State} (h : exec .sample s = .next t)
    (hoff : ∀ v x, v < s.g.nva.toNat → s.voices[v]? = some x → x.envState = .off) :
    t.port.rdata = 0 := by
  have hloop := sampleSlots_of_off s.params s.g.sr 0 s.g.nva.toNat hoff (mixStart s)
  have hacc : (sampleLoop s).2.acc = 0 := congrArg (fun r => r.2.acc) hloop
  rw [eq_sampleResult_of_next h, sampleResult_port_rdata, hacc, mixOut_zero]
  rfl

/-- Stopping again, after the silence, changes nothing (R149). -/
theorem stoppedSeq_silenceAll_stoppedSeq (s : State) :
    stoppedSeq (silenceAll (stoppedSeq s)) = silenceAll (stoppedSeq s) := rfl

/-- Settles O49: what the first SEQ_STOP leaves is stopped, and all its active voices are silent. -/
theorem seqStopIsIdempotentAndSilent : Obligations.SeqStopIsIdempotentAndSilent := by
  intro s t h
  obtain rfl : _ = t := Host.Outcome.next.inj ((exec_seqStop s).symm.trans h)
  refine ⟨?_, fun v x => silent_of_silenceAll,
    fun u hu => sample_rdata_of_off hu fun v x hv hx => (silent_of_silenceAll hv hx).1⟩
  rw [exec_seqStop, stoppedSeq_silenceAll_stoppedSeq, silenceAll_silenceAll]

end Sys2Proof.Machine
end

section
/-! PROOFS. TICK (spec/44_sequencer.md R145, R155, R156, R158): when a beat is due, its column dispatched as
R155's loop over the rows, the end of a one-shot track, and that neither happens twice at one time. -/

namespace Sys2Proof.Machine

open Sys2Proof.Claim

/-! ## The beat at a time (R145) -/

theorem curBeat_eq_ofNat (q : Sequencer) (now : Word) : curBeat q now = BitVec.ofNat 32 (beatAt q now) := by
  have hstart := q.start.isLt
  rw [curBeat, beatAt, BitVec.toNat_sub]
  congr 3
  omega

theorem curBeat_toNat (q : Sequencer) (now : Word) : (curBeat q now).toNat = beatAt q now := by
  have hle : beatAt q now ≤ (now.toNat + 2 ^ 32 - q.start.toNat) % 2 ^ 32 := Nat.div_le_self ..
  rw [curBeat_eq_ofNat, BitVec.toNat_ofNat, Nat.mod_eq_of_lt (by omega)]

/-! ## What TICK can do (R156) -/

/-- TICK has nothing to do at `now`: stopped, or the beat is the one dispatched last (R156). -/
def nothingDue (now : Word) (q : Sequencer) : Prop :=
  q.playing = false ∨ 1 ≤ q.beatMs.toNat ∧ q.beatValid = true ∧ beatAt q now = q.last.toNat

section

variable {now cur : Word} {s t : State}

theorem not_nothingDue_of_beatDue (h : beatDue now s) : ¬nothingDue now s.seq := by
  obtain ⟨hplay, -, hnew⟩ := h
  rintro (hstop | ⟨-, hvalid, hlast⟩)
  · simp [hplay] at hstop
  · exact hnew.elim (by simp [hvalid]) (· hlast)

/-- Everything TICK can do: nothing, a fault in a state no run reaches (log 7), or a new beat. -/
theorem exec_tick_cases (now : Word) (s : State) :
    nothingDue now s.seq ∧ exec (.tick now) s = .next (answering 0 s) ∨
      s.seq.playing = true ∧ s.seq.beatMs.toNat = 0 ∧ exec (.tick now) s = .fault .zeroBeat ∨
        beatDue now s ∧ exec (.tick now) s = newBeat (curBeat s.seq now) s.begin := by
  change _ ∧ execTick now s = _ ∨ _ ∧ _ ∧ execTick now s = _ ∨ _ ∧ execTick now s = _
  simp only [execTick, BitVec.toNat_eq, curBeat_toNat, BitVec.ofNat_eq_ofNat, BitVec.toNat_ofNat,
    Nat.zero_mod]
  by_cases hplay : s.seq.playing = false
  · exact .inl ⟨.inl hplay, if_pos hplay⟩
  rw [if_neg hplay]
  have hplay' : s.seq.playing = true := Bool.of_not_eq_false hplay
  by_cases hms : s.seq.beatMs.toNat = 0
  · exact .inr (.inl ⟨hplay', hms, if_pos hms⟩)
  rw [if_neg hms]
  have hpos : 1 ≤ s.seq.beatMs.toNat := Nat.one_le_iff_ne_zero.mpr hms
  by_cases hlast : s.seq.beatValid = true ∧ beatAt s.seq now = s.seq.last.toNat
  · exact .inl ⟨.inr ⟨hpos, hlast⟩, if_pos hlast⟩
  · have hnew : s.seq.beatValid = false ∨ beatAt s.seq now ≠ s.seq.last.toNat := by
      rwa [not_and_or, Bool.not_eq_true] at hlast
    exact .inr (.inr ⟨⟨hplay', hpos, hnew⟩, if_neg hlast⟩)

theorem exec_tick_of_nothingDue (h : nothingDue now s.seq) :
    exec (.tick now) s = .next (answering 0 s) := by
  rcases exec_tick_cases now s with ⟨-, hexec⟩ | ⟨hplay, hms, -⟩ | ⟨hdue, -⟩
  · exact hexec
  · rcases h with hstop | ⟨hpos, -⟩
    · simp [hplay] at hstop
    · omega
  · exact absurd h (not_nothingDue_of_beatDue hdue)

theorem exec_tick_of_beatDue (h : beatDue now s) :
    exec (.tick now) s = newBeat (curBeat s.seq now) s.begin := by
  rcases exec_tick_cases now s with ⟨hidle, -⟩ | ⟨-, hms, -⟩ | ⟨-, hexec⟩
  · exact absurd hidle (not_nothingDue_of_beatDue h)
  · obtain ⟨-, hpos, -⟩ := h
    omega
  · exact hexec

theorem newBeat_of_end (hend : s.seq.len.toNat ≤ cur.toNat) (hloop : s.seq.loop = false) :
    newBeat cur s = .next (endTrack (s.withSeq (s.seq.withBeat cur))) := by
  unfold newBeat
  dsimp only
  rw [if_pos ⟨hend, hloop⟩]

/-- Every row of a column of a table that fits lies in the note table (R52). -/
theorem columnInTable_of_tableFits (h : tableFits s) {col : Nat} (hcol : col < s.seq.len.toNat) :
    columnInTable col s = true := by
  obtain ⟨-, hfit⟩ := h
  simp only [columnInTable, List.all_eq_true, List.mem_range, decide_eq_true_eq]
  intro v hv
  calc ntIndex s.seq v col
    _ < s.seq.base.toNat + (v + 1) * s.seq.len.toNat := by
      rw [ntIndex, Nat.add_one_mul]
      omega
    _ ≤ s.seq.base.toNat + s.seq.voices.toNat * s.seq.len.toNat :=
      Nat.add_le_add_left (Nat.mul_le_mul_right _ hv) _
    _ ≤ s.params.ntWords := hfit

theorem newBeat_of_column (hfit : tableFits s) (hin : cur.toNat < s.seq.len.toNat ∨ s.seq.loop = true) :
    newBeat cur s =
      .next (dispatch (cur.toNat % s.seq.len.toNat) (s.withSeq (s.seq.withBeat cur))) := by
  have hlen : 1 ≤ s.seq.len.toNat := hfit.1
  have hlen0 : s.seq.len ≠ 0 := fun h0 => by simp [h0] at hlen
  have hgo : ¬(s.seq.len.toNat ≤ cur.toNat ∧ s.seq.loop = false) := by
    rwa [not_and_or, not_le, Bool.not_eq_false]
  unfold newBeat
  dsimp only
  rw [if_neg hgo, if_neg hlen0, if_pos (columnInTable_of_tableFits hfit (Nat.mod_lt _ hlen))]

end

/-- Settles O53: TICK's row, and its two ways to have nothing to do. -/
theorem tickWithoutANewBeatChangesNothing : Obligations.TickWithoutANewBeatChangesNothing :=
  ⟨encodes_congr encodes_tick (by simp), fun _ _ h => exec_tick_of_nothingDue h⟩

/-! ## The dispatch of a column (R155) -/

/-- The body of R155's loop is the machine's dispatch of the row's note to the row's slot. -/
theorem dispatchBody_eq (col : Nat) (s : State) (v : Nat) :
    dispatchBody col s v =
      setSlot v (dispatchNote s.g.sr (Memory.read s.nt (ntIndex s.seq v col))) s := by
  unfold dispatchBody ntIndex
  dsimp only
  generalize Memory.read s.nt _ = n
  by_cases hpos : 0 < n.toInt
  · have hnote : dispatchNote s.g.sr n = fun x => attacked s.g.sr { x with freq := n } :=
      funext fun x => if_pos hpos
    rw [if_pos hpos, hnote]
  · by_cases hneg : n.toInt = -1
    · have hnote : dispatchNote s.g.sr n = fun x => released s.g.sr x :=
        funext fun x => (if_neg hpos).trans (if_pos hneg)
      rw [if_neg hpos, if_pos hneg, hnote]
    · have hnote : dispatchNote s.g.sr n = id :=
        funext fun x => (if_neg hpos).trans (if_neg hneg)
      rw [if_neg hpos, if_neg hneg, hnote, setSlot, List.modify_id]

/-- R155's loop is the machine's dispatch of the column. -/
theorem dispatched_eq_dispatch (col : Nat) (s : State) : dispatched col s = dispatch col s :=
  foldl_eq_withVoices_mapSlots (fun _ _ => dispatchBody_eq col _ _) s.seq.voices.toNat

/-- Settles O54: inside the track or in loop mode the due beat is dispatched, by R155's loop. -/
theorem tickDispatchesTheBeatsColumn : Obligations.TickDispatchesTheBeatsColumn := by
  intro now s hdue hfit hin
  rw [exec_tick_of_beatDue hdue, dispatched_eq_dispatch, ← curBeat_eq_ofNat, ← curBeat_toNat]
  exact newBeat_of_column (s := s.begin) hfit (by rwa [curBeat_toNat])

/-! ## The end of a one-shot track (R156, R158) -/

@[simp] theorem endTrack_seq (s : State) : (endTrack s).seq = s.seq.withRun false s.seq.beatValid := by
  unfold endTrack; split <;> simp

/-- The end of a track after a fresh response, written as updates of whole records and R144's loop. -/
theorem endTrack_eq_silenced (s : State) (cur : Word) :
    endTrack (s.begin.withSeq (s.seq.withBeat cur)) = silenced
      { s with
        seq := { s.seq with playing := false, last := cur, beatValid := true }
        g := { s.g with done := true }
        port := { s.port with rdata := 0, events := if s.seq.cbEn then [.done] else [] } } := by
  rw [silenced_eq_silenceAll, endTrack, State.withSeq_seq, Sequencer.withBeat_cbEn]
  cases s.seq.cbEn <;> rfl

/-- Settles O55: past the end of a one-shot track the due beat ends it. -/
theorem tickEndsAOneShotTrack : Obligations.TickEndsAOneShotTrack := by
  intro now s hdue hloop hend
  rw [exec_tick_of_beatDue hdue, ← curBeat_eq_ofNat, ← endTrack_eq_silenced]
  exact newBeat_of_end (s := s.begin) (by rwa [curBeat_toNat]) hloop

/-! ## A second TICK (R156, R168) -/

section

variable {now cur : Word} {s t : State}

/-- A new beat that does not fault ends the track, or is from then on the last one dispatched. -/
theorem newBeat_seq (h : newBeat cur s = .next t) :
    t.seq.playing = false ∨ t.seq = s.seq.withBeat cur := by
  unfold newBeat at h
  dsimp only at h
  split at h
  · cases h
    exact .inl (by simp)
  · split at h
    · cases h
    · split at h
      · cases h
        exact .inr (by simp)
      · cases h

/-- After a TICK that answers, nothing is due at the same time (R156). -/
theorem nothingDue_of_tick (h : exec (.tick now) s = .next t) : nothingDue now t.seq := by
  rcases exec_tick_cases now s with ⟨hidle, hexec⟩ | ⟨-, -, hexec⟩ | ⟨⟨-, hms, -⟩, hexec⟩
  · cases hexec.symm.trans h
    exact hidle
  · cases hexec.symm.trans h
  · refine (newBeat_seq (hexec.symm.trans h)).imp_right fun hseq => ?_
    rw [hseq]
    exact ⟨hms, rfl, (curBeat_toNat s.seq now).symm⟩

end

/-- Settles O56: whatever the first TICK did, it left nothing due at that time. -/
theorem tickAgainAtTheSameTimeChangesNothing : Obligations.TickAgainAtTheSameTimeChangesNothing :=
  fun _ _ _ h => exec_tick_of_nothingDue (nothingDue_of_tick h)

end Sys2Proof.Machine
end

section
/-! PROOFS. Rejection and events (spec/60_exceptions.md R163, R167): a transfer that does not decode is
rejected with its code; the refill requests SAMPLE's loop raises, slot by slot, and the events every
command leaves. -/

namespace Sys2Proof.Machine

open Sys2Proof.Claim

/-! ## Rejection of a transfer (R79, R163) -/

/-- A transfer that does not decode is rejected with the decoder's code (R79). -/
theorem runTransfer_of_error {cmd arg : Word} {c : ErrCode} (hd : decode cmd arg = .error c) (s : State) :
    runTransfer cmd arg s = .next (rejected c s) := by
  simp only [runTransfer, hd, reject_eq_rejected]

/-- Settles O8: the step takes the transfer, and the transfer is rejected with the decoder's code. -/
theorem stepRejectsAnUndecodableTransfer : Obligations.StepRejectsAnUndecodableTransfer := by
  intro s cmd arg rest c hlegal hlen hp hd
  calc step s
    _ = runTransfer cmd arg (s.withPending rest) :=
      step_of_command (s.isInstance_iff.mpr ⟨hlegal, hlen⟩) hp
    _ = .next (rejected c (s.withPending rest)) := runTransfer_of_error hd _
    _ = .next (rejected c { s with port := { s.port with pending := rest } }) := rfl

/-! ## The refill requests of SAMPLE's loop (R102, R134, R167) -/

/-- From `m` to `m'` the events grow by refill requests for some of `slots`, in their order and each at
most once. -/
def RaisesFrom (slots : List Nat) (m m' : Mix) : Prop :=
  ∃ vs : List Nat, vs.Sublist slots ∧ m'.events = m.events ++ vs.map Event.refill

section

variable {slots slots' : List Nat} {m m' m'' : Mix}

theorem RaisesFrom.of_eq (slots : List Nat) (h : m'.events = m.events) : RaisesFrom slots m m' :=
  ⟨[], slots.nil_sublist, by simpa using h⟩

theorem RaisesFrom.trans (h : RaisesFrom slots m m') (h' : RaisesFrom slots' m' m'') :
    RaisesFrom (slots ++ slots') m m'' := by
  obtain ⟨vs, hsub, hev⟩ := h
  obtain ⟨vs', hsub', hev'⟩ := h'
  exact ⟨vs ++ vs', hsub.append hsub', by rw [hev', hev, List.map_append, List.append_assoc]⟩

end

theorem noiseKind_events (wrap : Bool) (x : Voice) (m : Mix) :
    (noiseKind wrap x m).2.1.events = m.events := by
  rcases noiseKind_cases wrap x m with ⟨-, hmix⟩ | ⟨-, hmix⟩ <;> rw [hmix]

/-- The ARB kind requests a refill exactly where it finds the buffer exhausted (R102). -/
theorem arbKind_raisesFrom (p : Params) (v : Nat) (x : Voice) (m : Mix) :
    RaisesFrom [v] m (arbKind p v x m).2.1 := by
  rcases arbKind_cases p v x m with ⟨-, hkind⟩ | ⟨-, -, -, hmix, -⟩ | ⟨-, -, -, hmix, -⟩
  · exact .of_eq _ (by rw [hkind])
  · exact .of_eq _ (by rw [hmix])
  · exact ⟨[v], .refl _, by rw [hmix]; rfl⟩

theorem voiceRaw_raisesFrom (p : Params) (v : Nat) (wrap : Bool) (x : Voice) (m : Mix) :
    RaisesFrom [v] m (voiceRaw p v wrap x m).2.1 :=
  (RaisesFrom.of_eq [] (noiseKind_events wrap x m)).trans (arbKind_raisesFrom p v _ _)

/-- A pass over a voice requests at most one refill, and for that voice. -/
theorem sampleVoice_raisesFrom (p : Params) (sr : BitVec 20) (v : Nat) (x : Voice) (m : Mix) :
    RaisesFrom [v] m (sampleVoice p sr v x m).2 := by
  rcases sampleVoice_cases p sr v x m with ⟨-, hpass⟩ | ⟨-, hpass⟩ <;> rw [hpass]
  · exact .of_eq _ rfl
  · exact voiceRaw_raisesFrom p v (phaseWraps sr x) (advancePhase sr x) m

/-- The loop's refill requests are for some of the slots it passes, in the order it passes them. -/
theorem sampleSlots_raisesFrom (p : Params) (sr : BitVec 20) (v n : Nat) (xs : List Voice) (m : Mix) :
    RaisesFrom (List.range' v n) m (sampleSlots p sr v n xs m).2 := by
  induction n generalizing v xs m with
  | zero => exact .of_eq _ rfl
  | succ n ih =>
    cases xs with
    | nil => exact .of_eq _ rfl
    | cons x xs => exact (sampleVoice_raisesFrom p sr v x m).trans (ih (v + 1) xs _)

/-- SAMPLE's events are refill requests for some of the active voices, in ascending order (R167). -/
theorem sampleResult_events_cases (s : State) :
    ∃ vs : List Nat, vs.Sublist (List.range s.g.nva.toNat) ∧
      (sampleResult s).port.events = vs.map Event.refill := by
  rw [sampleResult_port_events, List.range_eq_range']
  exact sampleSlots_raisesFrom s.params s.g.sr 0 s.g.nva.toNat s.voices (mixStart s)

/-! ## The events of every command (R167) -/

/-- The end of a one-shot track raises EV_DONE exactly while CB_EN is set (R158). -/
theorem endTrack_port_events (s : State) :
    (endTrack s).port.events = if s.seq.cbEn then s.port.events ++ [.done] else s.port.events := by
  cases hcb : s.seq.cbEn <;> simp [endTrack, hcb]

/-- The events a command can leave: none, SAMPLE's refill requests, or TICK's one EV_DONE. -/
inductive EventsOf (s : State) : Instr → List Event → Prop where
  | none (i : Instr) : EventsOf s i []
  | sample {vs : List Nat} (hvs : vs.Sublist (List.range s.g.nva.toNat)) :
    EventsOf s .sample (vs.map Event.refill)
  | tick (now : Word) (hcb : s.seq.cbEn = true) : EventsOf s (.tick now) [.done]

section

variable {s t : State} {i : Instr} {es : List Event}

theorem EventsOf.of_eq_nil (i : Instr) (h : es = []) : EventsOf s i es := h ▸ .none i

theorem eventsOf_endTrack (now cur : Word) :
    EventsOf s (.tick now) (endTrack (s.begin.withSeq (s.seq.withBeat cur))).port.events := by
  simp only [endTrack_port_events, State.withSeq_seq, Sequencer.withBeat_cbEn, State.withSeq_port,
    State.begin_port_events, List.nil_append]
  split
  next hcb => exact .tick now hcb
  next => exact .none _

/-- Of the effects of a command that passed its checks, SAMPLE's loop and the end of a track raise events;
every other one leaves the empty list its response began with. -/
theorem Accepted.eventsOf (h : Accepted s i t) : EventsOf s i t.port.events := by
  cases h with
  | sample =>
    obtain ⟨vs, hvs, hev⟩ := sampleResult_events_cases s
    exact hev ▸ .sample hvs
  | tickEnd now cur hplay => exact eventsOf_endTrack now cur
  | init n sr hok => exact .of_eq_nil _ (by simp [initEngine])
  | nop | setSr | setMvol | clrStatus | slot | read | arbRead | seqInit | seqStart | seqStop | seqTempo
  | seqCb | ntWrite | ntRead | tickIdle | tickBeat => exact .of_eq_nil _ (by simp)

theorem eventsOf_exec (h : exec i s = .next t) : EventsOf s i t.port.events := by
  rcases exec_answered h with ⟨c, -, rfl⟩ | hacc
  · exact .of_eq_nil i (State.reject_port_events c s)
  · exact hacc.eventsOf

/-- An ascending selection of the active voices is strictly ascending: no voice is named twice. -/
theorem EventsOf.ordered (h : EventsOf s i es) : eventsOrdered es := by
  cases h with
  | none => exact .inr ⟨[], rfl, .nil⟩
  | sample hvs => exact .inr ⟨_, rfl, List.pairwise_lt_range.sublist hvs⟩
  | tick => exact .inl rfl

/-- Each event has the command that may raise it, and names an active voice or needs CB_EN. -/
theorem EventsOf.source (h : EventsOf s i es) {e : Event} (he : e ∈ es) :
    (i = .sample ∧ ∃ v, v < s.g.nva.toNat ∧ e = .refill v) ∨
      ((∃ now, i = .tick now) ∧ s.seq.cbEn = true ∧ e = .done) := by
  cases h with
  | none => exact absurd he List.not_mem_nil
  | sample hvs =>
    obtain ⟨v, hv, rfl⟩ := List.mem_map.mp he
    exact .inl ⟨rfl, v, List.mem_range.mp (hvs.subset hv), rfl⟩
  | tick now hcb => exact .inr ⟨⟨now, rfl⟩, hcb, List.mem_singleton.mp he⟩

end

/-- Settles O59: a command leaves no event, an ascending selection of the active voices, or one EV_DONE. -/
theorem eventsComeOnlyFromSampleAndTick : Obligations.EventsComeOnlyFromSampleAndTick :=
  fun _ _ _ h => ⟨(eventsOf_exec h).ordered, fun _ he => (eventsOf_exec h).source he⟩

end Sys2Proof.Machine
end
